-- ==== Sys2Proof/Word.lean ====
section
/-! DEFINITION. The words of the block (00_scope.md R11, R12): a Byte, a 32-bit descriptor word, a close status. -/

namespace Sys2Proof

/-- R11: an 8-bit unsigned value, with bit 0 the least significant. -/
abbrev Byte := BitVec 8

/-- One word of a descriptor, and the RESULT register (R25, R61). -/
abbrev Word := BitVec 32

/-- A close status, zero-extended to the 16 bits of RESULT.STATUS (R25, R78). -/
abbrev Status := BitVec 16

end Sys2Proof
end

