-- ==== Sys2Proof/Config.lean ====
section
/-! DEFINITION. The configuration of 00_scope.md R8 to R10, fixed at construction, and the free values: what TRANSPORT
answers past the answers that State lists, and the Byte read after a source race. -/

namespace Sys2Proof

/-- R3: the two transport variants. -/
inductive Variant where
  | addressed
  | strobe
deriving DecidableEq, Repr

/-- One command frame of INIT_FRAMES (R8, R112). -/
structure InitFrame where
  opcode : Byte
  args : List Byte
deriving DecidableEq, Repr

/-- The parameters of R8. The fixed widths LEN_BITS, COORD_BITS, COL_BITS and ROW_BITS are in the types of the
operands. `initSettle` is the duration the `Settle` event stands for: R150 gives it no modelled time, so no rule reads it. -/
structure Config where
  variant : Variant
  width : Nat
  height : Nat
  maxChunk : Nat
  ctrlCmd : Byte
  ctrlData : Byte
  opSetColumn : Byte
  opSetRow : Byte
  opStartLine : Byte
  initFrames : List InitFrame
  initSettle : Nat
  statusBits : Nat
  addrBits : Nat
deriving DecidableEq, Repr

namespace Config

/-- R9: the reserved header Bytes of a session. -/
def hdr (c : Config) : Nat :=
  match c.variant with
  | .addressed => 2
  | .strobe => 1

/-- R8: `P = MAX_CHUNK - HDR`, the payload capacity of one data session. -/
def p (c : Config) : Nat := c.maxChunk - c.hdr

/-- R10: the three conditions on a well-formed configuration. -/
def wellFormed (c : Config) : Bool :=
  decide (1 ≤ c.width) && decide (1 ≤ c.height) && decide (c.ctrlCmd ≠ c.ctrlData)
    && decide (c.hdr + 1 ≤ c.maxChunk)

/-- R8: the parameters with a bounded width are within it. -/
def inLegalRange (c : Config) : Bool :=
  decide (c.width ≤ 65535) && decide (c.height ≤ 65535) && decide (c.maxChunk ≤ 65535)
    && decide (1 ≤ c.statusBits) && decide (c.statusBits ≤ 16)
    && decide (1 ≤ c.addrBits) && decide (c.addrBits ≤ 32)

/-- A configuration the model is defined for (R8 and R10). -/
def wf (c : Config) : Bool := c.wellFormed && c.inLegalRange

/-- PRESUMED (log entry 5), unsafe: the example configuration under "Parameter values used" of
95_test_vectors.md. Its values are general knowledge of the SSD1327 family (93_implementation_defined.md G1 to G4). Only `State.reset` uses it,
because the interface asks for one state after reset; no meaning and no statement rests on these values. -/
def example95 : Config where
  variant := .addressed
  width := 128
  height := 128
  maxChunk := 32
  ctrlCmd := 0x00
  ctrlData := 0x40
  opSetColumn := 0x15
  opSetRow := 0x75
  opStartLine := 0xA1
  initFrames := []
  initSettle := 0
  statusBits := 8
  addrBits := 16

/-- Free value (log entry 6): the raw answer of the n-th `TClose` where State lists none (R78: "a free draw"). -/
opaque freeCloseStatus : Nat → Status

/-- Free value (log entry 7): the answer of the n-th `THwReset` where State lists none (R114, I6). -/
opaque freeHwReset : Nat → Bool

/-- Free value (log entry 13): the Byte PP reads from an address HOST wrote while the request that names it was busy
(R56, I10), by the number of such writes so far and the address. -/
opaque racedByte : Nat → Nat → Byte

end Config

end Sys2Proof
end

