-- ==== Sys2Proof/Syntax.lean ====
section
/-! DEFINITION. The nine requests of 30_encoding.md R63 and R65, the descriptor they are encoded in (R61, R62) and
the reasons a descriptor is rejected for (R66 to R69). -/

namespace Sys2Proof

/-- R61: the three words HOST presents together. -/
structure Descriptor where
  w0 : Word
  w1 : Word
  w2 : Word
deriving DecidableEq, Repr

/-- R65: the operations, by name. -/
inductive Op where
  | sendCmd
  | sendData
  | setColRange
  | setRowRange
  | resetRange
  | render
  | clear
  | init
  | transportReset
deriving DecidableEq, Repr

/-- R63: a request with the operands its operation uses. `src` is W2 as it stands; whether it fits ADDR_BITS is the
check of R68. -/
inductive Instr where
  /-- SEND_CMD (R87) -/
  | sendCmd (op : Byte) (len : BitVec 16) (src : Word)
  /-- SEND_DATA (R88) -/
  | sendData (len : BitVec 16) (src : Word)
  /-- SET_COL_RANGE (R90) -/
  | setColRange (start stop : Byte)
  /-- SET_ROW_RANGE (R91) -/
  | setRowRange (start stop : Byte)
  /-- RESET_RANGE (R92) -/
  | resetRange
  /-- RENDER (R95) -/
  | render (x y w h : Byte) (len : BitVec 16) (src : Word)
  /-- CLEAR (R110) -/
  | clear
  /-- INIT (R112) -/
  | init
  /-- TRANSPORT_RESET (R114) -/
  | transportReset
deriving DecidableEq, Repr

/-- R65: the operation of a request. -/
def Instr.op : Instr → Op
  | .sendCmd _ _ _ => .sendCmd
  | .sendData _ _ => .sendData
  | .setColRange _ _ => .setColRange
  | .setRowRange _ _ => .setRowRange
  | .resetRange => .resetRange
  | .render _ _ _ _ _ _ => .render
  | .clear => .clear
  | .init => .init
  | .transportReset => .transportReset

/-- R66 to R70: why a descriptor is rejected. -/
inductive Reject where
  /-- R66: OP is 0x0 or 0xA to 0xF -/
  | badOp
  /-- R67: RSV0 or RSV1 is not 0 -/
  | reservedBits
  /-- R68: the source range does not lie inside SM -/
  | badRange
  /-- R69: RENDER of a region with no pixels -/
  | emptyRegion
deriving DecidableEq, Repr

end Sys2Proof
end

