-- ==== Sys2Proof/WellFormed.lean ====
section
/-! DEFINITION. The static checks on a request's operands (30_encoding.md R68, R69). Field widths are in the types, so
every request of `Instr` fits a descriptor; what is left to check is that its source range lies inside SM and that its
region has a pixel. -/

namespace Sys2Proof

/-- R68: the range `[src, src + len)` lies inside SM, also when `len = 0`, and `src` fits ADDR_BITS. -/
def rangeInsideSM (c : Config) (src : Word) (len : BitVec 16) : Bool :=
  decide (src.toNat < 2 ^ c.addrBits) && decide (src.toNat + len.toNat ≤ 2 ^ c.addrBits)

/-- R69: the region has a pixel. -/
def regionNotEmpty (w h : Byte) : Bool := decide (w ≠ 0) && decide (h ≠ 0)

/-- A request that passes the checks of R68 and R69. -/
def Instr.wf (c : Config) : Instr → Bool
  | .sendCmd _ len src => rangeInsideSM c src len
  | .sendData len src => rangeInsideSM c src len
  | .render _ _ w h len src => rangeInsideSM c src len && regionNotEmpty w h
  | .setColRange _ _ => true
  | .setRowRange _ _ => true
  | .resetRange => true
  | .clear => true
  | .init => true
  | .transportReset => true

end Sys2Proof
end

