-- ==== Sys2Proof/Decode.lean ====
section
/-! DEFINITION. The descriptor decoder (30_encoding.md R62 to R70), total on any three words and rejecting by name,
and after it the encoder (R62). The checks that need operands (R68, R69) are `operandCheck`. -/

namespace Sys2Proof

namespace Descriptor

/-- W0[3:0] -/
def opField (d : Descriptor) : BitVec 4 := d.w0.extractLsb' 0 4
/-- W0[7:4] -/
def rsv0 (d : Descriptor) : BitVec 4 := d.w0.extractLsb' 4 4
/-- W0[15:8] -/
def p0 (d : Descriptor) : Byte := d.w0.extractLsb' 8 8
/-- W0[23:16] -/
def p1 (d : Descriptor) : Byte := d.w0.extractLsb' 16 8
/-- W0[31:24] -/
def p2 (d : Descriptor) : Byte := d.w0.extractLsb' 24 8
/-- W1[7:0] -/
def p3 (d : Descriptor) : Byte := d.w1.extractLsb' 0 8
/-- W1[15:8] -/
def rsv1 (d : Descriptor) : Byte := d.w1.extractLsb' 8 8
/-- W1[31:16] -/
def len (d : Descriptor) : BitVec 16 := d.w1.extractLsb' 16 16

end Descriptor

/-- R65: the opcode map; `none` for the illegal values of R66. -/
def opOfField (v : BitVec 4) : Option Op :=
  if v = 1 then some .sendCmd
  else if v = 2 then some .sendData
  else if v = 3 then some .setColRange
  else if v = 4 then some .setRowRange
  else if v = 5 then some .resetRange
  else if v = 6 then some .render
  else if v = 7 then some .clear
  else if v = 8 then some .init
  else if v = 9 then some .transportReset
  else none

/-- R65, the other way: the OP value of an operation. -/
def fieldOfOp : Op → BitVec 4
  | .sendCmd => 1
  | .sendData => 2
  | .setColRange => 3
  | .setRowRange => 4
  | .resetRange => 5
  | .render => 6
  | .clear => 7
  | .init => 8
  | .transportReset => 9

/-- R63: the operands of an operation, each taken as it stands in its field; the other fields are ignored (R64). -/
def operandsOf (d : Descriptor) : Op → Instr
  | .sendCmd => .sendCmd d.p0 d.len d.w2
  | .sendData => .sendData d.len d.w2
  | .setColRange => .setColRange d.p0 d.p1
  | .setRowRange => .setRowRange d.p0 d.p1
  | .resetRange => .resetRange
  | .render => .render d.p0 d.p1 d.p2 d.p3 d.len d.w2
  | .clear => .clear
  | .init => .init
  | .transportReset => .transportReset

/-- The first two checks of R70, in its order (R66, then R67), and the operands of a descriptor that passes them. -/
def decode (d : Descriptor) : Except Reject Instr :=
  match opOfField d.opField with
  | none => .error .badOp
  | some op => if d.rsv0 = 0 ∧ d.rsv1 = 0 then .ok (operandsOf d op) else .error .reservedBits

/-- The check of R68. -/
def rangeCheck (c : Config) (src : Word) (len : BitVec 16) : Option Reject :=
  if 2 ^ c.addrBits ≤ src.toNat ∨ 2 ^ c.addrBits < src.toNat + len.toNat then some .badRange else none

/-- The check of R69. -/
def regionCheck (w h : Byte) : Option Reject :=
  if w = 0 ∨ h = 0 then some .emptyRegion else none

/-- The last two checks of R70, in its order (R68, then R69): `none` for a legal request. -/
def operandCheck (c : Config) : Instr → Option Reject
  | .sendCmd _ len src => rangeCheck c src len
  | .sendData len src => rangeCheck c src len
  | .render _ _ w h len src => (rangeCheck c src len).or (regionCheck w h)
  | .setColRange _ _ => none
  | .setRowRange _ _ => none
  | .resetRange => none
  | .clear => none
  | .init => none
  | .transportReset => none

/-- R70: all four checks in order; the first that fails names the reason. -/
def checkRequest (c : Config) (d : Descriptor) : Except Reject Instr :=
  match decode d with
  | .error r => .error r
  | .ok i =>
    match operandCheck c i with
    | some r => .error r
    | none => .ok i

/-- R62: W0 of a request, with RSV0 = 0. -/
def packW0 (op : Op) (p0 p1 p2 : Byte) : Word := p2 ++ p1 ++ p0 ++ (0 : BitVec 4) ++ fieldOfOp op

/-- R62: W1 of a request, with RSV1 = 0. -/
def packW1 (len : BitVec 16) (p3 : Byte) : Word := len ++ (0 : Byte) ++ p3

/-- R62, R72: the descriptor of a request, with 0 in the fields its operation does not use. -/
def encode : Instr → Descriptor
  | .sendCmd op len src => ⟨packW0 .sendCmd op 0 0, packW1 len 0, src⟩
  | .sendData len src => ⟨packW0 .sendData 0 0 0, packW1 len 0, src⟩
  | .setColRange start stop => ⟨packW0 .setColRange start stop 0, 0, 0⟩
  | .setRowRange start stop => ⟨packW0 .setRowRange start stop 0, 0, 0⟩
  | .resetRange => ⟨packW0 .resetRange 0 0 0, 0, 0⟩
  | .render x y w h len src => ⟨packW0 .render x y w, packW1 len h, src⟩
  | .clear => ⟨packW0 .clear 0 0 0, 0, 0⟩
  | .init => ⟨packW0 .init 0 0 0, 0, 0⟩
  | .transportReset => ⟨packW0 .transportReset 0 0 0, 0, 0⟩

/-- The descriptor whose 96 bits are `w`, bit 0 being bit 0 of W0, of which `nbits` are given and the rest are 0. -/
def descriptorOfBits (nbits w : Nat) : Descriptor :=
  let v := w % 2 ^ nbits
  ⟨BitVec.ofNat 32 v, BitVec.ofNat 32 (v / 2 ^ 32), BitVec.ofNat 32 (v / 2 ^ 64)⟩

/-- The request the decoder reads from the first `nbits` bits `w` of a descriptor. -/
def decodeTableWord (nbits w : Nat) : Option Instr :=
  match decode (descriptorOfBits nbits w) with
  | .ok i => some i
  | .error _ => none

end Sys2Proof
end

