-- ==== Sys2Proof/Machine/Memory.lean ====
section
/-! DEFINITION. Source memory (20_memory.md R42, R43, R48) as a list of cells in one canonical form: addresses strictly
rising, no cell equal to what an unlisted address reads as. One access is one Byte. -/

namespace Sys2Proof.Machine

/-- SM: the Bytes HOST has written, by address. -/
abbrev Memory := List Host.Cell

namespace Memory

/-- DESIGN CHOICE (log entry 8), unsafe: what an address HOST has not written reads as. The spec gives SM no contents
before HOST writes it (R137), and a read never faults (R43). -/
def unlisted : Byte := 0x00

/-- R43: the Byte at an address. -/
def read (a : Nat) : Memory → Byte
  | [] => unlisted
  | (x, b) :: m => if a = x then b else read a m

/-- HOST's write of one Byte (R42), keeping the canonical form. -/
def write (a : Nat) (b : Byte) : Memory → Memory
  | [] => if b = unlisted then [] else [(a, b)]
  | (x, c) :: m =>
    if a < x then (if b = unlisted then (x, c) :: m else (a, b) :: (x, c) :: m)
    else if a = x then (if b = unlisted then m else (a, b) :: m)
    else (x, c) :: write a b m

/-- Every cell lies above `lo`, the addresses rise strictly, and no cell holds the unlisted value. -/
def wfAbove (lo : Nat) : Memory → Bool
  | [] => true
  | (x, b) :: m => decide (lo ≤ x) && decide (b ≠ unlisted) && wfAbove (x + 1) m

/-- The canonical form. -/
def wf (m : Memory) : Bool := wfAbove 0 m

/-- R42: every listed address is below the top of SM. -/
def below (top : Nat) (m : Memory) : Bool := m.all fun cell => decide (cell.1 < top)

end Memory

end Sys2Proof.Machine
end

