-- ==== Sys2Proof/Machine/State.lean ====
section
/-! DEFINITION. The state of the block (10_state.md R18, R41), of the descriptor port, of source memory, and of what
HOST and TRANSPORT are about to do, as plain data; the state after reset; the reasons a step can stop. -/

namespace Sys2Proof.Machine

/-- R14: the kind of a frame, and of the session that carries it. -/
inductive Kind where
  | cmd
  | data
deriving DecidableEq, Repr

/-- R36: the transport session. -/
inductive Session where
  | closed
  | opened (k : Kind)
deriving DecidableEq, Repr

/-- R37: which row phase the odd-width packer runs next. -/
inductive Phase where
  | even
  | odd
deriving DecidableEq, Repr

/-- R40: the events of the bus trace, `O(k)`, `W(b)`, `C→st`, `H→p` and `S`. -/
inductive Event where
  | opened (k : Kind)
  | wrote (b : Byte)
  | closed (st : Status)
  | pulsed (p : Bool)
  | settled
deriving DecidableEq, Repr

/-- R20: the request latch. `src` holds the ADDR_BITS bits of SRC, zero above them. -/
structure Req where
  op : BitVec 4
  p0 : Byte
  p1 : Byte
  p2 : Byte
  p3 : Byte
  len : BitVec 16
  src : Word
deriving DecidableEq, Repr

/-- R39: the set of fault reasons, one flag a reason. It is recorded in the state; the machine goes on. -/
structure FaultSet where
  resetMidOperation : Bool
  sourceRace : Bool
  unknownRead : Bool
deriving DecidableEq, Repr

/-- R41: the empty set. -/
def FaultSet.empty : FaultSet := ⟨false, false, false⟩

/-- Where the Bytes of a data frame come from (`get` of R83): source memory from REQ.SRC on (R88, R100), the row buffer
(R102 to R104), or zeros made inside the block (R110). -/
inductive DataSource where
  | sourceMemory
  | rowBuffer
  | zeros
deriving DecidableEq, Repr

/-- Where the status of a running frame returns to: the call of `FramedCmd` or `FramedData` in the operation's
pseudocode, with the local variables that are still needed. -/
inductive Site where
  /-- the frame's status is the request's status: SEND_DATA (R88), CLEAR (R110), the even-width path (R100) and the
  terminal row (R104) -/
  | last
  /-- SEND_CMD (R87) -/
  | sendCmd
  /-- SET_COL_RANGE (R90) -/
  | setCol
  /-- SET_ROW_RANGE (R91) -/
  | setRow
  /-- the column frame of RESET_RANGE (R92) -/
  | rangeCol
  /-- the row frame of RESET_RANGE, with `st1` -/
  | rangeRow (st1 : Status)
  /-- the row frame of RENDER (R95) -/
  | renderRow
  /-- the column frame of RENDER -/
  | renderCol
  /-- the start-line frame of RENDER (R98) -/
  | renderLine
  /-- a full row of the odd-width packer (R99) -/
  | packRow
  /-- a frame of INIT (R112): its opcode, the frames after it and `acc` before it -/
  | initFrame (opcode : Byte) (rest : List InitFrame) (acc : Status)
deriving DecidableEq, Repr

/-- The three rows of the odd-width packer (R102, R103, R104). -/
inductive RowKind where
  | even
  | odd
  | terminal
deriving DecidableEq, Repr

/-- R21: a position in the pseudocode, that is the next step of R7 and the local variables it and its successors need. -/
inductive Pos where
  /-- R87: the next argument Byte is read; `got` are the ones before it -/
  | argByte (got : List Byte)
  /-- R81: `TOpen(CMD)` of a frame of these Bytes, its marker first -/
  | cmdOpen (site : Site) (bytes : List Byte)
  /-- R81: the next `TWrite`, or `TClose` when no Byte is left -/
  | cmdNext (site : Site) (bytes : List Byte)
  /-- R83: `TOpen(DATA)` before payload Byte `i` of `n` -/
  | dataOpen (site : Site) (source : DataSource) (i n : Nat)
  /-- R83: `TWrite(CTRL_DATA)` -/
  | dataMark (site : Site) (source : DataSource) (i n : Nat)
  /-- R83: the head of the loop at `i`: a `TClose`, a `MemRead` or a `TWrite` -/
  | dataNext (site : Site) (source : DataSource) (i n : Nat)
  /-- R83: `TWrite(get(i))` of a Byte that was read from source memory -/
  | dataPut (site : Site) (source : DataSource) (i n : Nat) (b : Byte)
  /-- R102 to R104: the next `MemRead` of a row; `got` are the Bytes before it -/
  | rowByte (row : RowKind) (got : List Byte)
  /-- R114: `THwReset()` -/
  | hwReset
  /-- R112: `Settle()` -/
  | settle (acc : Status)
  /-- R29: `Finish(st, 0, pulsed)` -/
  | finish (st : Status) (pulsed : Bool)
deriving DecidableEq, Repr

/-- R21: the sequencer. -/
inductive Seq where
  | idle
  /-- DEDUCED (log entry 14): R118 rejects in the step after acceptance; the reason is that step's label -/
  | rejecting (reason : Reject)
  | run (op : Op) (pos : Pos)
deriving DecidableEq, Repr

/-- What HOST can do (R125, R42, R134), and how long it waits while PP moves (log entries 1 and 2). -/
inductive HostAct where
  /-- put a descriptor on the port with request-valid asserted, in place of what is there -/
  | present (d : Descriptor)
  /-- withdraw request-valid -/
  | withdraw
  /-- write one Byte of source memory -/
  | writeByte (addr : Nat) (b : Byte)
  /-- assert block reset -/
  | assertReset
  /-- wait while PP takes one step of R7 -/
  | letPP
  /-- wait, as one move, while an idle PP accepts the presented descriptor and takes all steps of R7 up to the Finish of its
  request; a busy PP takes one step of R7 -/
  | letRequest
deriving DecidableEq, Repr

/-- The whole state. UNKNOWN of R31 and R20 is `none`. The fields after `trace` belong to HOST and TRANSPORT or are the
model's own (INVENTORY.md). -/
structure State where
  cfg : Config
  busy : Bool
  result : Word
  colStart : Option (BitVec 6)
  colEnd : Option (BitVec 6)
  rowStart : Option (BitVec 7)
  rowEnd : Option (BitVec 7)
  req : Option Req
  seq : Seq
  session : Session
  cnt : Nat
  phase : Phase
  carry : Byte
  cur : Nat
  scratch : List Byte
  fault : FaultSet
  trace : List Event
  mem : Memory
  port : Option Descriptor
  script : List HostAct
  closes : List Status
  closeNo : Nat
  pulses : List Bool
  pulseNo : Nat
  raced : List Nat
  raceNo : Nat
deriving DecidableEq, Repr

/-- The machine stops. -/
inductive Fault where
  /-- Raised by a HOST write, or by a `MemRead` of the sequencer, at an address outside SM (R42). Safe: the spec gives no
  such access an effect, and no `MemRead` of a running request comes to one (R43). Log entry 20. -/
  | noSuchAddress
deriving DecidableEq, Repr

/-- The model gives no meaning. -/
inductive Refusal where
  /-- Raised by an arm of `exec` whose request has no meaning yet; safe. -/
  | notModelled (mnemonic : String)
  /-- Raised by every step of a machine whose configuration is not well formed (R10: "it refuses it"); safe. Log entry 19. -/
  | configNotWellFormed
deriving DecidableEq, Repr

/-- R41: a constructed block after block reset, with nothing presented, no Byte written and no answer listed. SCRATCH is
unspecified there: DESIGN CHOICE (log entry 9) the empty buffer. -/
def State.constructed (c : Config) : State where
  cfg := c
  busy := false
  result := 0x00000000
  colStart := none
  colEnd := none
  rowStart := none
  rowEnd := none
  req := none
  seq := .idle
  session := .closed
  cnt := 0
  phase := .even
  carry := 0x00
  cur := 0
  scratch := []
  fault := .empty
  trace := []
  mem := []
  port := none
  script := []
  closes := []
  closeNo := 0
  pulses := []
  pulseNo := 0
  raced := []
  raceNo := 0

/-- The state right after reset. R41 resets the configuration to "the constructed values"; the one taken here is
PRESUMED (log entry 5), unsafe. -/
def State.reset : State := State.constructed Config.example95

end Sys2Proof.Machine
end

