-- ==== Sys2Proof/Machine/Flags.lean ====
section
/-! DEFINITION. The RESULT register and its fields (10_state.md R25 to R29). PP has no arithmetic flags (R23): ILLEGAL and
RESET_PULSED are its flags beside BUSY. -/

namespace Sys2Proof.Machine

/-- R29: the word `Finish(st, illegal, pulsed)` writes. -/
def resultWord (st : Status) (illegal pulsed : Bool) : Word :=
  (0 : BitVec 14) ++ BitVec.ofBool pulsed ++ BitVec.ofBool illegal ++ st

/-- R25: RESULT.STATUS, bits [15:0]. -/
def statusField (r : Word) : Status := r.extractLsb' 0 16

/-- R25, R27: RESULT.ILLEGAL, bit 16. -/
def illegalFlag (r : Word) : Bool := r.getLsbD 16

/-- R25, R28: RESULT.RESET_PULSED, bit 17. -/
def pulsedFlag (r : Word) : Bool := r.getLsbD 17

/-- R25: bits [31:18], hardwired 0. -/
def reservedField (r : Word) : BitVec 14 := r.extractLsb' 18 14

end Sys2Proof.Machine
end

