-- ==== Sys2Proof/Machine/Ops.lean ====
section
/-! DEFINITION. The primitives of 00_scope.md R14 as operations on State: the transport calls, the read of source memory,
the window shadow, `Finish` and `reject`. -/

namespace Sys2Proof.Machine

/-! ### The transport (40_framer.md R74 to R78)

R36 says which session a call requires and not what a call does in another one; the calls here do not look at SESSION and
act all the same (DESIGN CHOICE, log entry 26). The invariant `Inv` rules such states out. -/

/-- A status as the STATUS_BITS lines of the transport carry it (R78). -/
def statusOnPort (c : Config) (st : Status) : Status := BitVec.ofNat 16 (st.toNat % 2 ^ c.statusBits)

/-- The status of the n-th `TClose` from this state on, counted from 0: the listed answer, or a free draw (log entry 6). -/
def closeStatus (s : State) (n : Nat) : Status :=
  statusOnPort s.cfg (s.closes.getD (s.closeNo + n) (Config.freeCloseStatus (s.closeNo + n)))

/-- The answer of the next `THwReset`: the listed one, or a free draw (log entry 7). -/
def hwAnswer (s : State) : Bool := s.pulses.getD s.pulseNo (Config.freeHwReset s.pulseNo)

/-- R40: append one event to the bus trace. -/
def emit (e : Event) (s : State) : State := { s with trace := s.trace ++ [e] }

/-- R14, R36: `TOpen(k)`. That it also acts while SESSION is not CLOSED is DESIGN CHOICE (log entry 26). -/
def tOpen (k : Kind) (s : State) : State := emit (.opened k) { s with session := .opened k, cnt := 0 }

/-- R14, R36: `TWrite(b)`. That it also acts while SESSION is CLOSED is DESIGN CHOICE (log entry 26). -/
def tWrite (b : Byte) (s : State) : State := emit (.wrote b) s

/-- R83: `TWrite` of a payload Byte of a data frame, and `CNT <- CNT + 1`. -/
def tWritePayload (b : Byte) (s : State) : State := tWrite b { s with cnt := s.cnt + 1 }

/-- R14, R36: `TClose()`: the status and the state after it. That it also acts while SESSION is CLOSED is DESIGN CHOICE
(log entry 26). -/
def tClose (s : State) : Status × State :=
  (closeStatus s 0, emit (.closed (closeStatus s 0)) { s with session := .closed, closeNo := s.closeNo + 1 })

/-- R114: `THwReset()`: the Boolean and the state after it. -/
def tHwReset (s : State) : Bool × State :=
  (hwAnswer s, emit (.pulsed (hwAnswer s)) { s with pulseNo := s.pulseNo + 1 })

/-- R112, R150: `Settle()`, an event without duration. -/
def settle (s : State) : State := emit .settled s

/-! ### Source memory (20_memory.md R42, R43, R56) -/

/-- R43: `MemRead(a, 1)`. A Byte HOST wrote while the running request named it is any Byte (R56, log entry 13). -/
def memRead (a : Nat) (s : State) : Byte :=
  if a ∈ s.raced then Config.racedByte s.raceNo a else s.mem.read a

/-- R42: an address of SM. -/
def addressExists (a : Nat) (s : State) : Bool := decide (a < 2 ^ s.cfg.addrBits)

/-! ### The window shadow (10_state.md R31 to R33) -/

/-- R32: the window-command update of the columns. -/
def updateCols (start stop : BitVec 6) (st : Status) (s : State) : State :=
  if st = 0 then { s with colStart := some start, colEnd := some stop }
  else { s with colStart := none, colEnd := none }

/-- R32: the window-command update of the rows. -/
def updateRows (start stop : BitVec 7) (st : Status) (s : State) : State :=
  if st = 0 then { s with rowStart := some start, rowEnd := some stop }
  else { s with rowStart := none, rowEnd := none }

/-- R33: what a frame of SEND_CMD or INIT does to the shadow, by its opcode. -/
def forgetWindow (op : Byte) (s : State) : State :=
  { s with
    colStart := if op = s.cfg.opSetColumn then none else s.colStart
    colEnd := if op = s.cfg.opSetColumn then none else s.colEnd
    rowStart := if op = s.cfg.opSetRow then none else s.rowStart
    rowEnd := if op = s.cfg.opSetRow then none else s.rowEnd }

/-- R33: a pulsed reset line makes the whole shadow UNKNOWN. -/
def forgetAll (s : State) : State :=
  { s with colStart := none, colEnd := none, rowStart := none, rowEnd := none }

/-! ### Completion and rejection (10_state.md R29, 60_exceptions.md R118)

PP has no trap (R122): a rejection is what takes its place, and there is no return from one (R123). -/

/-- R29: `Finish(st, illegal, pulsed)`. -/
def finish (st : Status) (illegal pulsed : Bool) (s : State) : State :=
  { s with result := resultWord st illegal pulsed, busy := false, seq := .idle }

/-- R118: `reject(reason)`. The reason is the label of the step and is not state. -/
def reject (_reason : Reject) (s : State) : State := finish 0 true false s

/-- R70, R118: run the body of a request that passes the checks of R68 and R69, or reject it. -/
def ifLegal (i : Instr) (body : State → State) (s : State) : State :=
  match operandCheck s.cfg i with
  | some reason => reject reason s
  | none => body s

/-! ### Fault reasons (10_state.md R39): a step adds one and removes none -/

def addResetMidOperation (f : FaultSet) : FaultSet := { f with resetMidOperation := true }
def addSourceRace (f : FaultSet) : FaultSet := { f with sourceRace := true }
def addUnknownRead (f : FaultSet) : FaultSet := { f with unknownRead := true }

/-- R39: every reason of `f` is one of `g`. -/
def FaultSet.subset (f g : FaultSet) : Bool :=
  (!f.resetMidOperation || g.resetMidOperation) && (!f.sourceRace || g.sourceRace)
    && (!f.unknownRead || g.unknownRead)

end Sys2Proof.Machine
end

