-- ==== Sys2Proof/Machine/Operands.lean ====
section
/-! DEFINITION. The operand forms: masked window values (41_window.md R89), the range formulas (R92, R96, R97), the Bytes
of a source range (20_memory.md R44), and the nibble operations of a row (00_scope.md R12, 42_packer.md R102 to R104). -/

namespace Sys2Proof.Machine

/-- R89, R90: `v mod 64`. -/
def maskCol (v : Byte) : BitVec 6 := BitVec.ofNat 6 v.toNat

/-- R89, R91: `v mod 128`. -/
def maskRow (v : Byte) : BitVec 7 := BitVec.ofNat 7 v.toNat

/-- The Byte that carries a column value. -/
def colValueByte (v : BitVec 6) : Byte := BitVec.ofNat 8 v.toNat

/-- The Byte that carries a row value. -/
def rowValueByte (v : BitVec 7) : Byte := BitVec.ofNat 8 v.toNat

/-- R92: `(WIDTH div 2 - 1) mod 64`, on integers (R13). -/
def fullColEnd (c : Config) : BitVec 6 := BitVec.ofInt 6 ((c.width / 2 : Nat) - 1 : Int)

/-- R92: `(HEIGHT - 1) mod 128`. -/
def fullRowEnd (c : Config) : BitVec 7 := BitVec.ofInt 7 ((c.height : Nat) - 1 : Int)

/-- R96: `y mod 128`. -/
def renderRowStart (y : Byte) : BitVec 7 := BitVec.ofNat 7 y.toNat

/-- R96: `(y + h - 1) mod 128`. -/
def renderRowEnd (y h : Byte) : BitVec 7 := BitVec.ofInt 7 ((y.toNat + h.toNat : Nat) - 1 : Int)

/-- R97: `(x div 2) mod 64`. -/
def renderColStart (x : Byte) : BitVec 6 := BitVec.ofNat 6 (x.toNat / 2)

/-- R97: `((x + w) div 2 - 1 + (w mod 2)) mod 64`. -/
def renderColEnd (x w : Byte) : BitVec 6 :=
  BitVec.ofInt 6 (((x.toNat + w.toNat) / 2 : Nat) - 1 + (w.toNat % 2 : Nat) : Int)

/-- R110: `(WIDTH * HEIGHT) div 2`. -/
def clearCount (c : Config) : Nat := c.width * c.height / 2

/-- The `n` Bytes of source memory from `base` on, in increasing offset (R44, R47). -/
def readBytes (base n : Nat) (s : State) : List Byte := (List.range n).map fun i => memRead (base + i) s

/-- R12: `hi(b)`. -/
def hi (b : Byte) : BitVec 4 := b.extractLsb' 4 4

/-- R12: `lo(b)`. -/
def lo (b : Byte) : BitVec 4 := b.extractLsb' 0 4

/-- R94: `B = w div 2 + 1`, the source's `bufLen`. -/
def bufLen (w : Byte) : Nat := w.toNat / 2 + 1

/-- R102: `zext_8(lo(b))` of the last Byte of a row. -/
def carryOf (row : List Byte) : Byte := (lo (row.getLastD 0)).setWidth 8

/-- R102, R104: a row with the low nibble of its last Byte cleared. -/
def clearLastLow : List Byte → List Byte
  | [] => []
  | [b] => [b &&& 0xF0]
  | a :: b :: row => a :: clearLastLow (b :: row)

/-- R103: every Byte shifted left by a nibble and fused with the high nibble of the next one, the last one's low nibble
cleared. -/
def fuseNibbles : List Byte → List Byte
  | [] => []
  | [b] => [(b <<< 4) &&& 0xF0]
  | a :: b :: row => ((a <<< 4) ||| (b >>> 4)) :: fuseNibbles (b :: row)

end Sys2Proof.Machine
end

