-- ==== Sys2Proof/Machine/Framer.lean ====
section
/-! DEFINITION. The display-framer (40_framer.md): command frames, data frames with chunking, SEND_CMD and SEND_DATA. -/

namespace Sys2Proof.Machine

/-- A run of `TWrite` calls, in order. -/
def writeAll : List Byte → State → State
  | [], s => s
  | b :: bytes, s => writeAll bytes (tWrite b s)

/-- R80, R81: the Bytes of a command session, its marker first. -/
def cmdBytes (c : Config) (op : Byte) (args : List Byte) : List Byte := c.ctrlCmd :: op :: args

/-- R81: `FramedCmd(op, args)`, exactly one session. -/
def framedCmd (op : Byte) (args : List Byte) (s : State) : Status × State :=
  tClose (writeAll (cmdBytes s.cfg op args) (tOpen .cmd s))

/-- R83: a data session is opened and its marker written; `TOpen` sets CNT to 0 (R36). -/
def openData (s : State) : State := tWrite s.cfg.ctrlData (tOpen .data s)

/-- R83: the loop of `FramedData`, on the payload Bytes that are left. A full session is closed only when another Byte
remains, and a nonzero status ends the frame (R85). -/
def dataLoop : List Byte → State → Status × State
  | [], s => tClose s
  | b :: bytes, s =>
    if s.cnt = s.cfg.p then
      if (tClose s).1 = 0 then dataLoop bytes (tWritePayload b (openData (tClose s).2)) else tClose s
    else dataLoop bytes (tWritePayload b s)

/-- R83: `FramedData` of these payload Bytes. -/
def framedData (bytes : List Byte) (s : State) : Status × State := dataLoop bytes (openData s)

/-- R87: what SEND_CMD does after its frame: the shadow of a window opcode is forgotten, then `Finish`. -/
def endSendCmd (op : Byte) (r : Status × State) : State := finish r.1 false false (forgetWindow op r.2)

/-- SEND_CMD (R87). -/
def execSendCmd (op : Byte) (len : BitVec 16) (src : Word) (s : State) : Host.Outcome State Fault Refusal :=
  .next (ifLegal (.sendCmd op len src)
    (fun s => endSendCmd op (framedCmd op (readBytes src.toNat len.toNat s) s)) s)

/-- `Finish(st, 0, 0)` with the status of the last frame. -/
def endRequest (r : Status × State) : State := finish r.1 false false r.2

/-- SEND_DATA (R88). -/
def execSendData (len : BitVec 16) (src : Word) (s : State) : Host.Outcome State Fault Refusal :=
  .next (ifLegal (.sendData len src)
    (fun s => endRequest (framedData (readBytes src.toNat len.toNat s) s)) s)

end Sys2Proof.Machine
end

