-- ==== Sys2Proof/Machine/DriverSession.lean ====
section
/-! DEFINITION. The driver session (43_session.md): CLEAR, INIT and TRANSPORT_RESET. -/

namespace Sys2Proof.Machine

/-- CLEAR (R110): zero Bytes made inside the block. -/
def execClear (s : State) : Host.Outcome State Fault Refusal :=
  .next (endRequest (framedData (List.replicate (clearCount s.cfg) 0x00) s))

/-- R112: the frames of INIT, best-effort: every one is sent and the statuses are ORed onto `acc`. -/
def initLoop : List InitFrame → Status → State → Status × State
  | [], acc, s => (acc, s)
  | f :: frames, acc, s =>
    let r := framedCmd f.opcode f.args s
    initLoop frames (acc ||| r.1) (forgetWindow f.opcode r.2)

/-- R112: the settle delay, then `Finish(acc, 0, 0)`. -/
def endInit (r : Status × State) : State := finish r.1 false false (settle r.2)

/-- INIT (R112). -/
def execInit (s : State) : Host.Outcome State Fault Refusal := .next (endInit (initLoop s.cfg.initFrames 0 s))

/-- R114: what TRANSPORT_RESET does with the transport's answer. -/
def afterHwReset (r : Bool × State) : State := if r.1 then forgetAll r.2 else r.2

/-- TRANSPORT_RESET (R114). -/
def execTransportReset (s : State) : Host.Outcome State Fault Refusal :=
  .next (finish 0 false (tHwReset s).1 (afterHwReset (tHwReset s)))

end Sys2Proof.Machine
end

