-- ==== Sys2Proof/Machine/Window.lean ====
section
/-! DEFINITION. The addressing window (41_window.md): SET_COL_RANGE, SET_ROW_RANGE and RESET_RANGE. -/

namespace Sys2Proof.Machine

/-- The argument Bytes of a column-range frame, the start first (R47). -/
def colArgs (start stop : BitVec 6) : List Byte := [colValueByte start, colValueByte stop]

/-- The argument Bytes of a row-range frame. -/
def rowArgs (start stop : BitVec 7) : List Byte := [rowValueByte start, rowValueByte stop]

/-- A column-range frame and the window-command update it brings (R32). -/
def colFrame (start stop : BitVec 6) (s : State) : Status × State :=
  let r := framedCmd s.cfg.opSetColumn (colArgs start stop) s
  (r.1, updateCols start stop r.1 r.2)

/-- A row-range frame and the window-command update it brings (R32). -/
def rowFrame (start stop : BitVec 7) (s : State) : Status × State :=
  let r := framedCmd s.cfg.opSetRow (rowArgs start stop) s
  (r.1, updateRows start stop r.1 r.2)

/-- SET_COL_RANGE (R90). -/
def execSetColRange (start stop : Byte) (s : State) : Host.Outcome State Fault Refusal :=
  .next (endRequest (colFrame (maskCol start) (maskCol stop) s))

/-- SET_ROW_RANGE (R91). -/
def execSetRowRange (start stop : Byte) (s : State) : Host.Outcome State Fault Refusal :=
  .next (endRequest (rowFrame (maskRow start) (maskRow stop) s))

/-- R92: both frames, whatever the first close returns, and the bitwise OR of their statuses. -/
def fullRange (s : State) : Status × State :=
  let col := colFrame 0 (fullColEnd s.cfg) s
  let row := rowFrame 0 (fullRowEnd s.cfg) col.2
  (col.1 ||| row.1, row.2)

/-- RESET_RANGE (R92). -/
def execResetRange (s : State) : Host.Outcome State Fault Refusal := .next (endRequest (fullRange s))

end Sys2Proof.Machine
end

