-- ==== Sys2Proof/Machine/Packer.lean ====
section
/-! DEFINITION. The pixel packer (42_packer.md): the rows of an odd width with their carried nibble, and RENDER. -/

namespace Sys2Proof.Machine

/-- R102: the source Bytes of an EVEN row become the row buffer, their last low nibble the carry. -/
def loadEvenRow (row : List Byte) (s : State) : State :=
  { s with carry := carryOf row, scratch := clearLastLow row }

/-- R103: the carried Byte and the fresh Bytes of an ODD row become the row buffer. -/
def loadOddRow (fresh : List Byte) (s : State) : State :=
  { s with scratch := fuseNibbles (s.carry :: fresh) }

/-- R104: the Bytes that are left become the row buffer, even-style. -/
def loadTerminalRow (row : List Byte) (s : State) : State := { s with scratch := clearLastLow row }

/-- One row is one data frame (R99). -/
def sendRow (s : State) : Status × State := framedData s.scratch s

/-- R102: `EvenRow(base + CUR, B)`. -/
def evenRow (base b : Nat) (s : State) : Status × State :=
  sendRow (loadEvenRow (readBytes (base + s.cur) b s) s)

/-- R103: `OddRow(base + CUR, B)`. -/
def oddRow (base b : Nat) (s : State) : Status × State :=
  sendRow (loadOddRow (readBytes (base + s.cur) (b - 1) s) s)

/-- R104: `TerminalRow(base + CUR, r)`; with nothing left no frame is sent. -/
def terminalRow (base r : Nat) (s : State) : Status × State :=
  if r = 0 then (0, s) else sendRow (loadTerminalRow (readBytes (base + s.cur) r s) s)

/-- R99: after an EVEN row, `CUR <- CUR + B; PHASE <- ODD`. -/
def afterEvenRow (b : Nat) (s : State) : State := { s with cur := s.cur + b, phase := .odd }

/-- R99: after an ODD row, `CUR <- CUR + (B - 1); PHASE <- EVEN`. -/
def afterOddRow (b : Nat) (s : State) : State := { s with cur := s.cur + (b - 1), phase := .even }

/-- R99: which row the source has Bytes for, by phase: a full row, or the terminal one. -/
def nextRow (b len : Nat) (s : State) : RowKind :=
  match s.phase with
  | .even => if len - s.cur < b then .terminal else .even
  | .odd => if len - s.cur + 1 < b then .terminal else .odd

/-- R99: the loop of an odd width, on fuel (log entry 15): `packFuel` rows are enough for any source. -/
def packLoop (base b len : Nat) : Nat → State → Status × State
  | 0, s => (0, s)
  | fuel + 1, s =>
    match nextRow b len s with
    | .terminal => terminalRow base (len - s.cur) s
    | .even =>
      let r := evenRow base b s
      if r.1 = 0 then packLoop base b len fuel (afterEvenRow b r.2) else (r.1, afterEvenRow b r.2)
    | .odd =>
      let r := oddRow base b s
      if r.1 = 0 then packLoop base b len fuel (afterOddRow b r.2) else (r.1, afterOddRow b r.2)

/-- Every two rows consume a Byte (R99), and one more row is terminal. -/
def packFuel (len : Nat) : Nat := 2 * len + 2

/-- R99, R101: CUR, PHASE and CARRY at the start of every odd-width pack. -/
def startPack (s : State) : State := { s with cur := 0, phase := .even, carry := 0x00 }

/-- R99: `Pack(w, base, len)`: one data frame for an even width (R100), a frame a row for an odd one. -/
def pack (w : Byte) (base len : Nat) (s : State) : Status × State :=
  if w.toNat % 2 = 0 then framedData (readBytes base len s) s
  else packLoop base (bufLen w) len (packFuel len) (startPack s)

/-- R98: the start-line frame. -/
def startLineFrame (s : State) : Status × State := framedCmd s.cfg.opStartLine [0x00] s

/-- R95: a frame, and what follows it if its status is 0. -/
def andThen (r : Status × State) (next : State → Status × State) : Status × State :=
  if r.1 = 0 then next r.2 else r

/-- R95: row range, column range, start line, pixels; the first nonzero status ends the request. -/
def render (x y w h : Byte) (base len : Nat) (s : State) : Status × State :=
  andThen (rowFrame (renderRowStart y) (renderRowEnd y h) s) fun s =>
  andThen (colFrame (renderColStart x) (renderColEnd x w) s) fun s =>
  andThen (startLineFrame s) fun s => pack w base len s

/-- RENDER (R95). -/
def execRender (x y w h : Byte) (len : BitVec 16) (src : Word) (s : State) : Host.Outcome State Fault Refusal :=
  .next (ifLegal (.render x y w h len src)
    (fun s => endRequest (render x y w h src.toNat len.toNat s)) s)

end Sys2Proof.Machine
end

