-- ==== Sys2Proof/Machine/Dispatch.lean ====
section
/-! DEFINITION. The meaning of every request: one arm a constructor of `Instr` (30_encoding.md R65). -/

namespace Sys2Proof.Machine

-- The whole request, from the state its acceptance leaves (60_exceptions.md R125) to the state its Finish leaves (10_state.md R29).
def exec (i : Instr) (s : State) : Host.Outcome State Fault Refusal :=
  match i with
  | .sendCmd op len src => Sys2Proof.Machine.execSendCmd op len src s
  | .sendData len src => Sys2Proof.Machine.execSendData len src s
  | .setColRange start stop => Sys2Proof.Machine.execSetColRange start stop s
  | .setRowRange start stop => Sys2Proof.Machine.execSetRowRange start stop s
  | .resetRange => Sys2Proof.Machine.execResetRange s
  | .render x y w h len src => Sys2Proof.Machine.execRender x y w h len src s
  | .clear => Sys2Proof.Machine.execClear s
  | .init => Sys2Proof.Machine.execInit s
  | .transportReset => Sys2Proof.Machine.execTransportReset s

end Sys2Proof.Machine
end

