-- ==== Sys2Proof/Machine/Sequencer.lean ====
section
/-! DEFINITION. The sequencer at the grain of 00_scope.md R7: acceptance (60_exceptions.md R125), and one step of a running
request, that is one transport call, one read of source memory, or its completion (10_state.md R21, R22). Assignments
between two such steps happen with the first of them (log entry 12). -/

namespace Sys2Proof.Machine

/-- R22: move SEQ to a position. -/
def goto (op : Op) (pos : Pos) (s : State) : State := { s with seq := .run op pos }

/-- R87: SEND_CMD reads its argument Bytes, and then opens its session. -/
def gatherArgs (op : Op) (r : Req) (got : List Byte) (s : State) : State :=
  if got.length < r.len.toNat then goto op (.argByte got) s
  else goto op (.cmdOpen .sendCmd (cmdBytes s.cfg r.p0 got)) s

/-- R102 to R104: how many Bytes of source memory a row reads. -/
def rowNeeds (row : RowKind) (r : Req) (s : State) : Nat :=
  match row with
  | .even => bufLen r.p2
  | .odd => bufLen r.p2 - 1
  | .terminal => r.len.toNat - s.cur

/-- R102 to R104: the Bytes of a row go to the row buffer. -/
def loadRow (row : RowKind) (bytes : List Byte) (s : State) : State :=
  match row with
  | .even => loadEvenRow bytes s
  | .odd => loadOddRow bytes s
  | .terminal => loadTerminalRow bytes s

/-- R99: the terminal row's status is the request's; a full row's goes back to the loop. -/
def rowSite : RowKind → Site
  | .even => .packRow
  | .odd => .packRow
  | .terminal => .last

/-- R102 to R104: a row reads its Bytes, and then opens its data frame. -/
def gatherRow (op : Op) (r : Req) (row : RowKind) (got : List Byte) (s : State) : State :=
  if got.length < rowNeeds row r s then goto op (.rowByte row got) s
  else goto op (.dataOpen (rowSite row) .rowBuffer 0 (loadRow row got s).scratch.length) (loadRow row got s)

/-- R99: the head of the packer's loop. A terminal row of no Bytes sends no frame (R104). -/
def packNext (op : Op) (r : Req) (s : State) : State :=
  match nextRow (bufLen r.p2) r.len.toNat s with
  | .even => gatherRow op r .even [] s
  | .odd => gatherRow op r .odd [] s
  | .terminal =>
    if r.len.toNat - s.cur = 0 then goto op (.finish 0 false) s else gatherRow op r .terminal [] s

/-- R99: `Pack(w, REQ.SRC, len)` begins. -/
def packBegin (op : Op) (r : Req) (s : State) : State :=
  if r.p2.toNat % 2 = 0 then goto op (.dataOpen .last .sourceMemory 0 r.len.toNat) s
  else packNext op r (startPack s)

/-- R112: the next frame of INIT, or the settle delay. -/
def initNext (op : Op) (frames : List InitFrame) (acc : Status) (s : State) : State :=
  match frames with
  | [] => goto op (.settle acc) s
  | f :: rest => goto op (.cmdOpen (.initFrame f.opcode rest acc) (cmdBytes s.cfg f.opcode f.args)) s

/-- R22, R125: `SEQ <- RUN(op, first statement)`. -/
def beginRequest (op : Op) (r : Req) (s : State) : State :=
  match op with
  | .sendCmd => gatherArgs op r [] s
  | .sendData => goto op (.dataOpen .last .sourceMemory 0 r.len.toNat) s
  | .setColRange =>
    goto op (.cmdOpen .setCol (cmdBytes s.cfg s.cfg.opSetColumn (colArgs (maskCol r.p0) (maskCol r.p1)))) s
  | .setRowRange =>
    goto op (.cmdOpen .setRow (cmdBytes s.cfg s.cfg.opSetRow (rowArgs (maskRow r.p0) (maskRow r.p1)))) s
  | .resetRange =>
    goto op (.cmdOpen .rangeCol (cmdBytes s.cfg s.cfg.opSetColumn (colArgs 0 (fullColEnd s.cfg)))) s
  | .render =>
    goto op (.cmdOpen .renderRow
      (cmdBytes s.cfg s.cfg.opSetRow (rowArgs (renderRowStart r.p1) (renderRowEnd r.p1 r.p3)))) s
  | .clear => goto op (.dataOpen .last .zeros 0 (clearCount s.cfg)) s
  | .init => initNext op s.cfg.initFrames 0 s
  | .transportReset => goto op .hwReset s

/-- The statements between the `TClose` of a frame and the next step, by the place the frame was called from. -/
def resume (op : Op) (r : Req) (site : Site) (st : Status) (s : State) : State :=
  match site with
  | .last => goto op (.finish st false) s
  | .sendCmd => goto op (.finish st false) (forgetWindow r.p0 s)
  | .setCol => goto op (.finish st false) (updateCols (maskCol r.p0) (maskCol r.p1) st s)
  | .setRow => goto op (.finish st false) (updateRows (maskRow r.p0) (maskRow r.p1) st s)
  | .rangeCol =>
    goto op (.cmdOpen (.rangeRow st) (cmdBytes s.cfg s.cfg.opSetRow (rowArgs 0 (fullRowEnd s.cfg))))
      (updateCols 0 (fullColEnd s.cfg) st s)
  | .rangeRow st1 => goto op (.finish (st1 ||| st) false) (updateRows 0 (fullRowEnd s.cfg) st s)
  | .renderRow =>
    if st = 0 then
      goto op (.cmdOpen .renderCol
          (cmdBytes s.cfg s.cfg.opSetColumn (colArgs (renderColStart r.p0) (renderColEnd r.p0 r.p2))))
        (updateRows (renderRowStart r.p1) (renderRowEnd r.p1 r.p3) st s)
    else goto op (.finish st false) (updateRows (renderRowStart r.p1) (renderRowEnd r.p1 r.p3) st s)
  | .renderCol =>
    if st = 0 then
      goto op (.cmdOpen .renderLine (cmdBytes s.cfg s.cfg.opStartLine [0x00]))
        (updateCols (renderColStart r.p0) (renderColEnd r.p0 r.p2) st s)
    else goto op (.finish st false) (updateCols (renderColStart r.p0) (renderColEnd r.p0 r.p2) st s)
  | .renderLine => if st = 0 then packBegin op r s else goto op (.finish st false) s
  | .packRow =>
    let next := match s.phase with
      | .even => afterEvenRow (bufLen r.p2) s
      | .odd => afterOddRow (bufLen r.p2) s
    if st = 0 then packNext op r next else goto op (.finish st false) next
  | .initFrame opcode rest acc => initNext op rest (acc ||| st) (forgetWindow opcode s)

/-- R43: one `MemRead`; an address outside SM does not exist (no running request comes to one, R43). -/
def readStep (a : Nat) (s : State) (k : Byte → State) : Host.Outcome State Fault Refusal :=
  if addressExists a s then .next (k (memRead a s)) else .fault .noSuchAddress

/-- R83: one step of a data frame at the head of its loop. -/
def dataStep (op : Op) (r : Req) (site : Site) (source : DataSource) (i n : Nat) (s : State) :
    Host.Outcome State Fault Refusal :=
  if n ≤ i then .next (resume op r site (tClose s).1 (tClose s).2)
  else if s.cnt = s.cfg.p then
    .next (if (tClose s).1 = 0 then goto op (.dataOpen site source i n) (tClose s).2
      else resume op r site (tClose s).1 (tClose s).2)
  else
    match source with
    | .sourceMemory => readStep (r.src.toNat + i) s fun b => goto op (.dataPut site source i n b) s
    | .rowBuffer => .next (goto op (.dataNext site source (i + 1) n) (tWritePayload (s.scratch.getD i 0) s))
    | .zeros => .next (goto op (.dataNext site source (i + 1) n) (tWritePayload 0x00 s))

/-- R22: the step at a position of a running request. -/
def stepAt (op : Op) (pos : Pos) (r : Req) (s : State) : Host.Outcome State Fault Refusal :=
  match pos with
  | .argByte got => readStep (r.src.toNat + got.length) s fun b => gatherArgs op r (got ++ [b]) s
  | .cmdOpen site bytes => .next (goto op (.cmdNext site bytes) (tOpen .cmd s))
  | .cmdNext site (b :: bytes) => .next (goto op (.cmdNext site bytes) (tWrite b s))
  | .cmdNext site [] => .next (resume op r site (tClose s).1 (tClose s).2)
  | .dataOpen site source i n => .next (goto op (.dataMark site source i n) (tOpen .data s))
  | .dataMark site source i n => .next (goto op (.dataNext site source i n) (tWrite s.cfg.ctrlData s))
  | .dataNext site source i n => dataStep op r site source i n s
  | .dataPut site source i n b => .next (goto op (.dataNext site source (i + 1) n) (tWritePayload b s))
  | .rowByte row got =>
    readStep (r.src.toNat + s.cur + got.length) s fun b => gatherRow op r row (got ++ [b]) s
  | .hwReset => .next (goto op (.finish 0 (tHwReset s).1) (afterHwReset (tHwReset s)))
  | .settle acc => .next (goto op (.finish acc false) (settle s))
  | .finish st pulsed => .next (finish st false pulsed s)

/-- One step of R7 of a busy block. The operands are read from REQ (R19); if REQ is UNKNOWN, which no run comes to, the
reason UnknownRead is added and PP stays where it is (R39, log entry 10). -/
def tick (s : State) : Host.Outcome State Fault Refusal :=
  match s.seq with
  | .idle => .next s
  | .rejecting reason => .next (reject reason s)
  | .run op pos =>
    match s.req with
    | none => .next { s with fault := addUnknownRead s.fault }
    | some r => stepAt op pos r s

/-- R62, R125: the fields of a descriptor, as acceptance latches them. -/
def latch (c : Config) (d : Descriptor) : Req where
  op := d.opField
  p0 := d.p0
  p1 := d.p1
  p2 := d.p2
  p3 := d.p3
  len := d.len
  src := BitVec.ofNat 32 (d.w2.toNat % 2 ^ c.addrBits)

/-- R125: acceptance up to the choice of SEQ. The descriptor leaves the port (log entry 3), and no Byte of the new
request's range has been written under it (R56). -/
def latchRequest (d : Descriptor) (s : State) : State :=
  { s with req := some (latch s.cfg d), busy := true, port := none, raced := [] }

/-- R125: acceptance of a descriptor. -/
def accept (d : Descriptor) (s : State) : State :=
  match checkRequest s.cfg d with
  | .error reason => { latchRequest d s with seq := .rejecting reason }
  | .ok i => beginRequest i.op (latch s.cfg d) (latchRequest d s)

end Sys2Proof.Machine
end

