-- ==== Sys2Proof/Machine/SourceRace.lean ====
section
/-! DEFINITION. The Bytes of a source race (20_memory.md R54, R56): a Byte of the running request's range that HOST writes
may be read at any time before the `TWrite` of the first Byte computed from it, so a copy of it that PP has read and not yet
used is any Byte too. -/

namespace Sys2Proof.Machine

/-- R87: a pending argument Byte `j` of SEND_CMD gets another value. The Bytes left to write end with the arguments. -/
def redrawArg (r : Req) (j : Nat) (f : Byte) (site : Site) (bytes : List Byte) : List Byte :=
  if site = .sendCmd ∧ r.len.toNat - j ≤ bytes.length then bytes.set (bytes.length - (r.len.toNat - j)) f else bytes

/-- R103: the fresh Byte `m` of a fused row gets another value: its high nibble is in Byte `m` of the row buffer, its low
one in the next. -/
def refuseNibbles : Nat → Byte → List Byte → List Byte
  | 0, f, a :: b :: row => ((a &&& (0xF0 : Byte)) ||| (f >>> 4)) :: ((f <<< 4) ||| (b &&& (0x0F : Byte))) :: row
  | 0, _, row => row
  | m + 1, f, a :: row => a :: refuseNibbles m f row
  | _ + 1, _, [] => []

/-- R102 to R104: Byte `m` of the source Bytes of the row in the row buffer gets another value, and the carry if it is of
that Byte. -/
def redrawRow (row : RowKind) (m : Nat) (f : Byte) (s : State) : State :=
  match row with
  | .even =>
    { s with
      scratch := clearLastLow (s.scratch.set m f)
      carry := if m + 1 = s.scratch.length then carryOf [f] else s.carry }
  | .odd => { s with scratch := refuseNibbles m f s.scratch }
  | .terminal => { s with scratch := clearLastLow (s.scratch.set m f) }

/-- R99: which row the row buffer holds while its data frame runs. -/
def rowInBuffer (site : Site) (s : State) : RowKind :=
  if site = .last then .terminal
  else
    match s.phase with
    | .even => .even
    | .odd => .odd

/-- A data frame about to send its Byte `i`: the row buffer's copy of source Byte `j` gets another value if no Byte computed
from it has been sent (R54). -/
def redrawBuffer (site : Site) (source : DataSource) (i j : Nat) (f : Byte) (s : State) : State :=
  match source with
  | .rowBuffer => if s.cur + i ≤ j then redrawRow (rowInBuffer site s) (j - s.cur) f s else s
  | .sourceMemory => s
  | .zeros => s

/-- At a position of a running request, what PP has read of source Byte `j` and not yet used gets another value. -/
def redrawAt (op : Op) (pos : Pos) (r : Req) (j : Nat) (f : Byte) (s : State) : State :=
  match pos with
  | .argByte got => goto op (.argByte (got.set j f)) s
  | .cmdOpen site bytes => goto op (.cmdOpen site (redrawArg r j f site bytes)) s
  | .cmdNext site bytes => goto op (.cmdNext site (redrawArg r j f site bytes)) s
  | .dataOpen site source i _ => redrawBuffer site source i j f s
  | .dataMark site source i _ => redrawBuffer site source i j f s
  | .dataNext site source i _ => redrawBuffer site source i j f s
  | .dataPut site source i n b => goto op (.dataPut site source i n (if i = j then f else b)) s
  | .rowByte row got => goto op (.rowByte row (if s.cur ≤ j then got.set (j - s.cur) f else got)) s
  | .hwReset => s
  | .settle _ => s
  | .finish _ _ => s

/-- R54, R56: the copy that PP holds of the source Byte at `a` and has not yet used gets the value `f`. -/
def redraw (a : Nat) (f : Byte) (s : State) : State :=
  match s.seq with
  | .idle => s
  | .rejecting _ => s
  | .run op pos =>
    match s.req with
    | none => s
    | some r => redrawAt op pos r (a - r.src.toNat) f s

end Sys2Proof.Machine
end

