-- ==== Sys2Proof/Machine/HostPort.lean ====
section
/-! DEFINITION. What HOST can do to the block: the descriptor port (60_exceptions.md R125), source memory
(20_memory.md R42, R56) and block reset (70_reset_and_hazards.md R134, R135). -/

namespace Sys2Proof.Machine

/-- R125: one step of R7 with no other agent moving: a busy block takes the next step of its request; an idle block
accepts the descriptor on the port, if there is one. -/
def ppStep (s : State) : Host.Outcome State Fault Refusal :=
  if s.busy then tick s
  else
    match s.port with
    | none => .next s
    | some d => .next (accept d s)

/-- DEDUCED (log entry 17): the operations that read the range `[SRC, SRC + LEN)` (R44, R64). -/
def usesSource (op : BitVec 4) : Bool :=
  match opOfField op with
  | some .sendCmd => true
  | some .sendData => true
  | some .render => true
  | _ => false

/-- R55, R56: the address lies in the range of the request that is running. -/
def inRunningRange (a : Nat) (s : State) : Bool :=
  match s.req with
  | none => false
  | some r => s.busy && usesSource r.op && decide (r.src.toNat ≤ a) && decide (a < r.src.toNat + r.len.toNat)

/-- R42, R56: HOST writes one Byte of SM. In the range of the running request that adds SourceRace, and the Byte PP reads
there is any Byte: what it reads from then on, and what it has read and not yet used (R54, log entry 13). -/
def hostWrite (a : Nat) (b : Byte) (s : State) : Host.Outcome State Fault Refusal :=
  if addressExists a s then
    if inRunningRange a s then
      .next (redraw a (Config.racedByte (s.raceNo + 1) a) { s with
        mem := s.mem.write a b
        fault := addSourceRace s.fault
        raced := a :: s.raced
        raceNo := s.raceNo + 1 })
    else .next { s with mem := s.mem.write a b }
  else .fault .noSuchAddress

/-- R134: block reset of PP's registers. It makes no transport call and touches nothing of HOST's or TRANSPORT's
(log entry 18). -/
def resetRegisters (s : State) : State :=
  { s with
    busy := false
    result := 0x00000000
    colStart := none
    colEnd := none
    rowStart := none
    rowEnd := none
    req := none
    seq := .idle
    session := .closed
    cnt := 0
    phase := .even
    carry := 0x00
    cur := 0
    scratch := []
    raced := [] }

/-- R134, R135, R41: block reset. While BUSY = 1 it adds ResetMidOperation to the reasons in FAULT and keeps the trace; an
idle block has FAULT and the trace emptied (log entry 11). -/
def blockReset (s : State) : State :=
  if s.busy then { resetRegisters s with fault := addResetMidOperation s.fault }
  else { resetRegisters s with fault := .empty, trace := [] }

end Sys2Proof.Machine
end

