-- ==== Sys2Proof/Machine/Request.lean ====
section
/-! DEFINITION. The moves of the machine: what HOST plans next, or else one step of R7 of PP; among them a whole request as
one move. -/

namespace Sys2Proof.Machine

/-- DESIGN CHOICE (log entry 1): acceptance of a descriptor and its whole request as one move: `exec` of the decoded
request, or its rejection (R125, R118). -/
def runRequest (d : Descriptor) (s : State) : Host.Outcome State Fault Refusal :=
  match decode d with
  | .error reason => .next (reject reason (accept d s))
  | .ok i => exec i (accept d s)

/-- The move `letRequest`: a busy block takes one step of R7, an idle one runs the presented request, and with nothing
presented nothing happens. -/
def requestMove (s : State) : Host.Outcome State Fault Refusal :=
  if s.busy then tick s
  else
    match s.port with
    | none => .next s
    | some d => runRequest d s

/-- One action of HOST. -/
def hostMove (act : HostAct) (s : State) : Host.Outcome State Fault Refusal :=
  match act with
  | .present d => .next { s with port := some d }
  | .withdraw => .next { s with port := none }
  | .writeByte a b => hostWrite a b s
  | .assertReset => .next (blockReset s)
  | .letPP => ppStep s
  | .letRequest => requestMove s

/-- A move of the machine with a well-formed configuration: the next planned action of HOST, or else one step of R7 of
PP. -/
def move (s : State) : Host.Outcome State Fault Refusal :=
  match s.script with
  | [] => ppStep s
  | act :: rest => hostMove act { s with script := rest }

/-- HOST presents this descriptor to an idle block and only waits for its request (log entry 4). -/
def presentAlone (d : Descriptor) (s : State) : State :=
  { s with port := some d, script := [.letRequest], busy := false, seq := .idle }

end Sys2Proof.Machine
end

