-- ==== Sys2Proof/Machine/Step.lean ====
section
/-! DEFINITION. One step of the machine, and the state in which HOST presents a given descriptor. -/

namespace Sys2Proof.Machine

/-- R10: a machine whose configuration is not well formed is refused. Otherwise one move (log entries 1 and 2). -/
def step (s : State) : Host.Outcome State Fault Refusal :=
  if s.cfg.wf then move s else .refused .configNotWellFormed

/-- The state in which the next step accepts and runs the descriptor whose first `nbits` bits are `w` (log entry 4). -/
def State.withFetchWord (s : State) (nbits w : Nat) : State := presentAlone (descriptorOfBits nbits w) s

end Sys2Proof.Machine
end

