-- ==== Sys2Proof/Safety.lean ====
section
/-! DEFINITION. The terms claims are stated in (10_state.md R40: a claim observes the trace, RESULT, BUSY and the shadow):
frames as events, the transport contract as a monitor over the trace, the pixels of a source buffer, and the invariant
of the running block. -/

namespace Sys2Proof.Machine

/-! ### Frames as events (40_framer.md R81, R83, R84) -/

/-- A field of a descriptor word: bits `lo` to `lo + n - 1` (00_scope.md R11). -/
def fieldAt (w : Word) (lo n : Nat) : BitVec n := BitVec.ofNat n (w.toNat / 2 ^ lo)

/-- R81: the events of a command frame. -/
def cmdSession (c : Config) (op : Byte) (args : List Byte) (st : Status) : List Event :=
  [.opened .cmd, .wrote c.ctrlCmd, .wrote op] ++ args.map .wrote ++ [.closed st]

/-- R80, R83: the events of one session of a data frame. -/
def dataSession (c : Config) (chunk : List Byte) (st : Status) : List Event :=
  [.opened .data, .wrote c.ctrlData] ++ chunk.map .wrote ++ [.closed st]

/-- R84: `s = max(1, ceil(n / P))`. -/
def sessionCount (p n : Nat) : Nat := max 1 ((n + p - 1) / p)

/-- R84: the payload Bytes of session `j`. -/
def chunkAt (p j : Nat) (bytes : List Byte) : List Byte := (bytes.drop (j * p)).take p

/-- R84: the first `k` sessions of a data frame, session `j` closing with `status j`. -/
def dataFrame (c : Config) (bytes : List Byte) (k : Nat) (status : Nat → Status) : List Event :=
  (List.range k).flatMap fun j => dataSession c (chunkAt c.p j bytes) (status j)

/-- R84, R85: `k` sessions are what `FramedData` sends when its closes return `status 0, status 1, …`: all of them, or
those up to the first that fails. -/
def SessionsSent (p n : Nat) (status : Nat → Status) (k : Nat) : Prop :=
  1 ≤ k ∧ k ≤ sessionCount p n ∧ (∀ j < k - 1, status j = 0) ∧ (k < sessionCount p n → status (k - 1) ≠ 0)

/-- R86: the Bytes written in some events, the first of each session (its marker) left out. -/
def payloadOf : List Event → List Byte
  | [] => []
  | .opened _ :: .wrote _ :: events => payloadOf events
  | .wrote b :: events => b :: payloadOf events
  | _ :: events => payloadOf events

/-- The close statuses among some events, in order. -/
def closesOf (events : List Event) : List Status :=
  events.filterMap fun e => match e with
    | .closed st => some st
    | _ => none

/-- R39: a state a claim may be about the end of: PP is idle, and no fault reason is recorded. DESIGN CHOICE (log entry 27):
R39 says only that a state with a reason is never final; that every other idle state is, also one with a descriptor waiting
on the port, is the model's. -/
def isFinal (s : State) : Bool := !s.busy && decide (s.fault = .empty)

/-- R119: fail-fast and single status: the first nonzero status, or 0. -/
def firstFailure (statuses : List Status) : Status := (statuses.find? (· ≠ 0)).getD 0

/-- R119: aggregation: the bitwise OR of all statuses. -/
def orOfAll (statuses : List Status) : Status := statuses.foldl (· ||| ·) 0

/-- R119: the requests that aggregate. -/
def aggregates : Instr → Bool
  | .resetRange => true
  | .init => true
  | .sendCmd _ _ _ => false
  | .sendData _ _ => false
  | .setColRange _ _ => false
  | .setRowRange _ _ => false
  | .render _ _ _ _ _ _ => false
  | .clear => false
  | .transportReset => false

/-! ### The transport contract, as a monitor over the trace (R36, R79, R80) -/

/-- Between sessions, just opened, or inside with `n` Bytes after the marker. -/
inductive BusView where
  | between
  | fresh (k : Kind)
  | inside (k : Kind) (n : Nat)
deriving DecidableEq, Repr

/-- One event of a trace that keeps the contract: sessions do not overlap, each begins with its one marker, and a data
session carries at most P Bytes after it. -/
def busNext (c : Config) (v : BusView) (e : Event) : Option BusView :=
  match v, e with
  | .between, .opened k => some (.fresh k)
  | .between, .pulsed _ => some .between
  | .between, .settled => some .between
  | .fresh .cmd, .wrote b => if b = c.ctrlCmd then some (.inside .cmd 0) else none
  | .fresh .data, .wrote b => if b = c.ctrlData then some (.inside .data 0) else none
  | .inside .cmd n, .wrote _ => some (.inside .cmd (n + 1))
  | .inside .data n, .wrote _ => if n < c.p then some (.inside .data (n + 1)) else none
  | .inside _ _, .closed _ => some .between
  | _, _ => none

/-- The view after some events; `none` if one of them breaks the contract. -/
def busRun (c : Config) (v : BusView) : List Event → Option BusView
  | [] => some v
  | e :: events =>
    match busNext c v e with
    | some v' => busRun c v' events
    | none => none

/-! ### Pixels (20_memory.md R45, R46) -/

/-- R45: pixel `p` of a source buffer, two a Byte, the even one in the high nibble. -/
def pixelAt (bytes : List Byte) (p : Nat) : BitVec 4 :=
  if p % 2 = 0 then hi (bytes.getD (p / 2) 0) else lo (bytes.getD (p / 2) 0)

/-- R107: a row of width `w` as it is sent: `B` Bytes, nibble `col` is pixel `col` of row `r`, and the last nibble is 0. -/
def RowIsPixels (bytes : List Byte) (w r : Nat) (row : List Byte) : Prop :=
  row.length = w / 2 + 1 ∧ (∀ col < w, pixelAt row col = pixelAt bytes (r * w + col)) ∧ pixelAt row w = 0

/-- R99: every row is a data frame of its own; all of their closes return 0. -/
def rowFrames (c : Config) (rows : List (List Byte)) : List Event :=
  rows.flatMap fun row => dataFrame c row (sessionCount c.p row.length) fun _ => 0

/-- R99 to R104: the rows of an odd width as a function of the source Bytes alone, `b` Bytes each but the terminal one. -/
def packRows (b : Nat) : Nat → Phase → Byte → List Byte → List (List Byte)
  | 0, _, _, _ => []
  | fuel + 1, .even, _, bytes =>
    if bytes.length < b then (if bytes = [] then [] else [clearLastLow bytes])
    else clearLastLow (bytes.take b) :: packRows b fuel .odd (carryOf (bytes.take b)) (bytes.drop b)
  | fuel + 1, .odd, carry, bytes =>
    if bytes.length + 1 < b then (if bytes = [] then [] else [clearLastLow bytes])
    else fuseNibbles (carry :: bytes.take (b - 1)) :: packRows b fuel .even carry (bytes.drop (b - 1))

/-- R99: all rows of a region `w` pixels wide. -/
def rowsOf (w : Nat) (bytes : List Byte) : List (List Byte) :=
  packRows (w / 2 + 1) (2 * bytes.length + 2) .even 0x00 bytes

/-- R99, R105: how many full rows, EVEN and ODD ones, a source of `len` Bytes has for a region `w` pixels wide. Two of them
take `w` Bytes. -/
def fullRows (w len : Nat) : Nat := 2 * (len / w) + if w / 2 + 1 ≤ len % w then 1 else 0

/-- R34, R37, R38, R99: PHASE, CARRY and CUR after the first `m` full rows of a region `w` pixels wide: the phases alternate
from EVEN, CARRY is the low nibble of the last Byte of the last EVEN row, and CUR counts the Bytes of the rows. -/
def withPackerAfter (w m : Nat) (bytes : List Byte) (s : State) : State :=
  { s with
    phase := if m % 2 = 0 then .even else .odd
    carry := if m = 0 then 0x00 else carryOf [bytes.getD ((m - 1) / 2 * w + w / 2) 0]
    cur := m / 2 * w + if m % 2 = 0 then 0 else w / 2 + 1 }

/-- R96: the row frame of a RENDER, `[y, y + h - 1]` masked to 7 bits. -/
def renderRowSession (c : Config) (y h : Byte) (st : Status) : List Event :=
  cmdSession c c.opSetRow
    [BitVec.ofNat 8 (y.toNat % 128), BitVec.ofNat 8 ((y.toNat + h.toNat - 1) % 128)] st

/-- R97: its column frame, `[x div 2, (x + w) div 2 - 1 + (w mod 2)]` masked to 6 bits (`w ≥ 1`, so the subtraction on
numbers is exact). -/
def renderColSession (c : Config) (x w : Byte) (st : Status) : List Event :=
  cmdSession c c.opSetColumn
    [BitVec.ofNat 8 (x.toNat / 2 % 64),
      BitVec.ofNat 8 (((x.toNat + w.toNat) / 2 + w.toNat % 2 - 1) % 64)] st

/-- R98: its start-line frame. -/
def startLineSession (c : Config) (st : Status) : List Event := cmdSession c c.opStartLine [0x00] st

/-- R95: the window a RENDER leaves in the shadow when its row and column frames close with 0. -/
def withRenderWindow (x y w h : Byte) (s : State) : State :=
  { s with
    rowStart := some (BitVec.ofNat 7 (y.toNat % 128))
    rowEnd := some (BitVec.ofNat 7 ((y.toNat + h.toNat - 1) % 128))
    colStart := some (BitVec.ofNat 6 (x.toNat / 2 % 64))
    colEnd := some (BitVec.ofNat 6 (((x.toNat + w.toNat) / 2 + w.toNat % 2 - 1) % 64)) }

/-! ### Which state a request may read (10_state.md R19, 20_memory.md R44) -/

/-- R44: the addresses a request may read. -/
def readsAddress (a : Nat) : Instr → Prop
  | .sendCmd _ len src => src.toNat ≤ a ∧ a < src.toNat + len.toNat
  | .sendData len src => src.toNat ≤ a ∧ a < src.toNat + len.toNat
  | .render _ _ _ _ len src => src.toNat ≤ a ∧ a < src.toNat + len.toNat
  | .setColRange _ _ => False
  | .setRowRange _ _ => False
  | .resetRange => False
  | .clear => False
  | .init => False
  | .transportReset => False

/-- The next state of an outcome, changed. -/
def mapNext (f : State → State) : Host.Outcome State Fault Refusal → Host.Outcome State Fault Refusal
  | .next s => .next (f s)
  | .fault r => .fault r
  | .refused r => .refused r

/-! ### The invariant of the running block -/

/-- A status is STATUS_BITS wide (R78). -/
def StatusFits (c : Config) (st : Status) : Prop := st.toNat < 2 ^ c.statusBits

/-- The request REQ holds (R19), as an instruction: its operands are those of the latched fields. -/
def requestOf (r : Req) : Option Instr :=
  match opOfField r.op with
  | some .sendCmd => some (.sendCmd r.p0 r.len r.src)
  | some .sendData => some (.sendData r.len r.src)
  | some .setColRange => some (.setColRange r.p0 r.p1)
  | some .setRowRange => some (.setRowRange r.p0 r.p1)
  | some .resetRange => some .resetRange
  | some .render => some (.render r.p0 r.p1 r.p2 r.p3 r.len r.src)
  | some .clear => some .clear
  | some .init => some .init
  | some .transportReset => some .transportReset
  | none => none

/-- R99, R38: the packer is about to take a row that the source has Bytes for. -/
def RowFits (row : RowKind) (r : Req) (s : State) : Prop :=
  r.p2.toNat % 2 = 1 ∧ s.cur + rowNeeds row r s ≤ r.len.toNat ∧ rowNeeds row r s ≤ bufLen r.p2

/-- What holds while a frame called from `site` runs. -/
def SiteOk (op : Op) (r : Req) (s : State) : Site → Prop
  | .last => True
  | .sendCmd => op = .sendCmd
  | .setCol => op = .setColRange
  | .setRow => op = .setRowRange
  | .rangeCol => op = .resetRange
  | .rangeRow st1 => op = .resetRange ∧ StatusFits s.cfg st1
  | .renderRow => op = .render
  | .renderCol => op = .render
  | .renderLine => op = .render
  | .packRow =>
    op = .render ∧ r.p2.toNat % 2 = 1 ∧
      match s.phase with
      | .even => s.cur + bufLen r.p2 ≤ r.len.toNat
      | .odd => s.cur + (bufLen r.p2 - 1) ≤ r.len.toNat
  | .initFrame _ _ acc => op = .init ∧ StatusFits s.cfg acc

/-- Where a data frame's `n` Bytes come from: all of the source range, or all of the row buffer. -/
def SourceOk (op : Op) (r : Req) (s : State) (source : DataSource) (n : Nat) : Prop :=
  match source with
  | .sourceMemory => (op = .sendData ∨ op = .render) ∧ n = r.len.toNat
  | .rowBuffer => op = .render ∧ n = s.scratch.length
  | .zeros => True

/-- R87: before its session the frame of SEND_CMD has its marker, its opcode and LEN arguments to write. -/
def ArgsOk (r : Req) (site : Site) (bytes : List Byte) : Prop := site = .sendCmd → bytes.length = r.len.toNat + 2

/-- What holds at a position of a running request (R36: which calls need which session). -/
def PosOk (op : Op) (r : Req) (s : State) (v : BusView) : Pos → Prop
  | .argByte got => op = .sendCmd ∧ v = .between ∧ got.length < r.len.toNat
  | .cmdOpen site bytes =>
    v = .between ∧ bytes.head? = some s.cfg.ctrlCmd ∧ ArgsOk r site bytes ∧ SiteOk op r s site
  | .cmdNext site bytes =>
    SiteOk op r s site ∧
      (v = .fresh .cmd ∧ bytes.head? = some s.cfg.ctrlCmd ∧ ArgsOk r site bytes ∨ ∃ n, v = .inside .cmd n)
  | .dataOpen site source i n =>
    v = .between ∧ i ≤ n ∧ SiteOk op r s site ∧ SourceOk op r s source n
  | .dataMark site source i n =>
    v = .fresh .data ∧ s.cnt = 0 ∧ i ≤ n ∧ SiteOk op r s site ∧ SourceOk op r s source n
  | .dataNext site source i n =>
    v = .inside .data s.cnt ∧ i ≤ n ∧ SiteOk op r s site ∧ SourceOk op r s source n
  | .dataPut site source i n _ =>
    v = .inside .data s.cnt ∧ s.cnt < s.cfg.p ∧ i < n ∧ SiteOk op r s site ∧ SourceOk op r s source n
  | .rowByte row got =>
    op = .render ∧ v = .between ∧ got.length < rowNeeds row r s ∧ RowFits row r s ∧
      match row with
      | .even => s.phase = .even
      | .odd => s.phase = .odd
      | .terminal => True
  | .hwReset => op = .transportReset ∧ v = .between
  | .settle acc => op = .init ∧ v = .between ∧ StatusFits s.cfg acc
  | .finish st pulsed => v = .between ∧ StatusFits s.cfg st ∧ (pulsed = true → op = .transportReset)

/-- R21, R22: what SEQ says of BUSY, REQ and the bus. -/
def SeqOk (s : State) (v : BusView) : Prop :=
  match s.seq with
  | .idle => s.busy = false ∧ v = .between
  | .rejecting _ => s.busy = true ∧ v = .between
  | .run op pos =>
    s.busy = true ∧ ∃ r i, s.req = some r ∧ requestOf r = some i ∧ i.op = op ∧ i.wf s.cfg = true ∧ PosOk op r s v pos

/-- R36: SESSION, by the monitor's view. -/
def sessionOfView : BusView → Session
  | .between => .closed
  | .fresh k => .opened k
  | .inside k _ => .opened k

/-- The invariant of the block: the memory is canonical and inside SM, RESULT's reserved bits are 0 and its status fits
(R25, R26), the counters and the row buffer keep their widths (R35, R36, R38), and SEQ, SESSION and the bus agree
(R21, R36). The trace itself keeps the transport contract as long as no reset cut a request short (R135). -/
structure Inv (s : State) : Prop where
  memCanonical : s.mem.wf = true
  memInside : s.mem.below (2 ^ s.cfg.addrBits) = true
  resultReserved : reservedField s.result = 0
  resultStatus : StatusFits s.cfg (statusField s.result)
  cntWidth : s.cnt ≤ s.cfg.p
  curWidth : s.cur < 2 ^ 16
  scratchWidth : s.scratch.length ≤ 128
  running : ∃ v, SeqOk s v ∧ s.session = sessionOfView v ∧
    (s.fault.resetMidOperation = false → busRun s.cfg .between s.trace = some v)

/-- `n` steps of the machine. -/
def steps : Nat → State → Host.Outcome State Fault Refusal
  | 0, s => .next s
  | n + 1, s =>
    match step s with
    | .next t => steps n t
    | .fault f => .fault f
    | .refused r => .refused r

/-- `n` steps of R7 of a busy block. -/
def ticks : Nat → State → Host.Outcome State Fault Refusal
  | 0, s => .next s
  | n + 1, s =>
    match tick s with
    | .next t => ticks n t
    | .fault f => .fault f
    | .refused r => .refused r

end Sys2Proof.Machine
end

