-- ==== Sys2Proof/Certificates/Slice0/Obligations.lean ====
section
/-! DEFINITION. The statements for the provers, from the numbered rules of spec/. -/

open Sys2Proof Sys2Proof.Machine

/-! ### Encoding (30_encoding.md) -/

/-- R62, R63, R65, R64: with the reserved fields 0, OP selects the request and every operand is its field as it stands;
the other fields do not matter. -/
def Obligations.EveryOperandIsItsField : Prop :=
  ∀ d : Descriptor, d.w0.toNat / 2 ^ 4 % 16 = 0 → d.w1.toNat / 2 ^ 8 % 256 = 0 →
    (d.w0.toNat % 16 = 1 → decode d = .ok (.sendCmd (fieldAt d.w0 8 8) (fieldAt d.w1 16 16) d.w2)) ∧
    (d.w0.toNat % 16 = 2 → decode d = .ok (.sendData (fieldAt d.w1 16 16) d.w2)) ∧
    (d.w0.toNat % 16 = 3 → decode d = .ok (.setColRange (fieldAt d.w0 8 8) (fieldAt d.w0 16 8))) ∧
    (d.w0.toNat % 16 = 4 → decode d = .ok (.setRowRange (fieldAt d.w0 8 8) (fieldAt d.w0 16 8))) ∧
    (d.w0.toNat % 16 = 5 → decode d = .ok .resetRange) ∧
    (d.w0.toNat % 16 = 6 → decode d = .ok (.render (fieldAt d.w0 8 8) (fieldAt d.w0 16 8) (fieldAt d.w0 24 8)
      (fieldAt d.w1 0 8) (fieldAt d.w1 16 16) d.w2)) ∧
    (d.w0.toNat % 16 = 7 → decode d = .ok .clear) ∧
    (d.w0.toNat % 16 = 8 → decode d = .ok .init) ∧
    (d.w0.toNat % 16 = 9 → decode d = .ok .transportReset)

/-- R62: decoding the descriptor of any request gives the request back, with every operand at every value; a request
that is well formed passes all checks. -/
def Obligations.DecodeOfEncodeIsTheRequest : Prop :=
  ∀ (c : Config) (i : Instr), decode (encode i) = .ok i ∧ (i.wf c = true → checkRequest c (encode i) = .ok i)

/-- R66 to R70: the four checks in their order, and what passes them all is legal. -/
def Obligations.ChecksRunInTheirOrder : Prop :=
  ∀ (c : Config) (d : Descriptor),
    let badOp := d.w0.toNat % 16 = 0 ∨ 10 ≤ d.w0.toNat % 16
    let reserved := d.w0.toNat / 2 ^ 4 % 16 ≠ 0 ∨ d.w1.toNat / 2 ^ 8 % 256 ≠ 0
    let badRange := (d.w0.toNat % 16 = 1 ∨ d.w0.toNat % 16 = 2 ∨ d.w0.toNat % 16 = 6) ∧
      (d.w2.toNat / 2 ^ c.addrBits ≠ 0 ∨
        2 ^ c.addrBits < d.w2.toNat % 2 ^ c.addrBits + d.w1.toNat / 2 ^ 16)
    let empty := d.w0.toNat % 16 = 6 ∧ (d.w0.toNat / 2 ^ 24 = 0 ∨ d.w1.toNat % 256 = 0)
    (checkRequest c d = .error .badOp ↔ badOp) ∧
    (checkRequest c d = .error .reservedBits ↔ ¬badOp ∧ reserved) ∧
    (checkRequest c d = .error .badRange ↔ ¬badOp ∧ ¬reserved ∧ badRange) ∧
    (checkRequest c d = .error .emptyRegion ↔ ¬badOp ∧ ¬reserved ∧ ¬badRange ∧ empty) ∧
    ((∃ i, checkRequest c d = .ok i) ↔ ¬badOp ∧ ¬reserved ∧ ¬badRange ∧ ¬empty)

/-- 95_test_vectors.md 2.1 and 3: descriptors written out by R62 decode to the requests they stand for, and three that
are not legal do not. -/
def Obligations.WrittenOutDescriptorsDecode : Prop :=
  decode ⟨0x03040206, 0x00050003, 0x00000040⟩ = .ok (.render 2 4 3 3 5 0x40) ∧
  decode ⟨0x0000AF01, 0x00000000, 0x00000000⟩ = .ok (.sendCmd 0xAF 0 0) ∧
  decode ⟨0x00000002, 0x003D0000, 0x00000100⟩ = .ok (.sendData 61 0x100) ∧
  decode ⟨0x00807F03, 0x00000000, 0x00000000⟩ = .ok (.setColRange 0x7F 0x80) ∧
  decode ⟨0x0080FF04, 0x00000000, 0x00000000⟩ = .ok (.setRowRange 0xFF 0x80) ∧
  decode ⟨0x00000007, 0xFFFF00FF, 0x12345678⟩ = .ok .clear ∧
  decode ⟨0x0000001A, 0x00000000, 0x00000000⟩ = .error .badOp ∧
  decode ⟨0x00000013, 0x00000000, 0x00000000⟩ = .error .reservedBits ∧
  decode ⟨0x00000003, 0x00000100, 0x00000000⟩ = .error .reservedBits

/-! ### Steps and acceptance (60_exceptions.md) -/

/-- R125: when HOST waits for a whole request, a step of an idle block runs the request that the presented descriptor
decodes to, from the state its acceptance leaves. (The move `letRequest`, the request in one step, is the model's, log
entry 1; that it is the same as the request's steps of R7 is `WholeRequestIsItsSteps`.) -/
def Obligations.StepRunsTheDecodedRequest : Prop :=
  ∀ (s : State) (d : Descriptor) (i : Instr) (rest : List HostAct), s.cfg.wf = true → s.script = .letRequest :: rest →
    s.busy = false → s.port = some d → decode d = .ok i → step s = exec i (accept d { s with script := rest })

/-- R7, R125: when HOST plans nothing, a step of an idle block is the acceptance of the presented descriptor, and a step of
a busy one is the next step of its request. -/
def Obligations.StepIsOneStepOfPP : Prop :=
  ∀ s : State, s.cfg.wf = true → s.script = [] →
    (∀ d, s.busy = false → s.port = some d → step s = .next (accept d s)) ∧
    (∀ reason, s.busy = true → s.seq = .rejecting reason → step s = .next (reject reason s)) ∧
    (∀ op pos r, s.busy = true → s.seq = .run op pos → s.req = some r → step s = stepAt op pos r s)

/-- R7, R40: when HOST plans nothing, a step makes at most one transport call: it appends at most one event. -/
def Obligations.StepMakesAtMostOneCall : Prop :=
  ∀ s t : State, s.script = [] → step s = .next t → t.trace = s.trace ∨ ∃ e, t.trace = s.trace ++ [e]

/-- The model's choice (log entry 4): the state `withFetchWord` builds is one whose next step runs the decoded request. -/
def Obligations.FetchWordIsTheNextRequest : Prop :=
  ∀ (s : State) (nbits w : Nat) (i : Instr), s.cfg.wf = true → decodeTableWord nbits w = some i →
    step (s.withFetchWord nbits w) =
      exec i (accept (descriptorOfBits nbits w) { s.withFetchWord nbits w with script := [] })

/-- R118, R27, R116: a descriptor that fails a check changes RESULT to 0x00010000 and nothing else but the latch: no
transport call, no shadow, no hidden register. (The move `letRequest`, acceptance and rejection in one step, is the
model's, log entry 1, as are `port` and `raced`, log entries 3 and 13.) -/
def Obligations.IllegalDescriptorIsRejected : Prop :=
  ∀ (s : State) (d : Descriptor) (reason : Reject) (rest : List HostAct), s.cfg.wf = true →
    s.script = .letRequest :: rest → s.busy = false → s.port = some d → checkRequest s.cfg d = .error reason →
    step s = .next { s with
      req := some (latch s.cfg d), result := 0x00010000, busy := false, seq := .idle, port := none, raced := []
      script := rest }

/-- R118: an illegal descriptor is accepted, latching REQ, and the next step is `Finish(0, 1, 0)`: it writes RESULT, BUSY and
SEQ and nothing else, so the rejection makes no transport call, reads no source memory and keeps the shadow, the bus and
every hidden register. (What becomes of the port and of the model's own `raced` is left open here.) -/
def Obligations.RejectIsTheStepAfterAcceptance : Prop :=
  ∀ (s : State) (d : Descriptor) (reason : Reject), s.busy = false → s.port = some d →
    checkRequest s.cfg d = .error reason →
    ∃ u, ppStep s = .next u ∧
      u = { s with req := some (latch s.cfg d), busy := true, seq := u.seq, port := u.port, raced := u.raced } ∧
      tick u = .next { u with result := 0x00010000, busy := false, seq := .idle }

/-- R125, R20, R62: acceptance copies every field into REQ, sets BUSY, and starts the named operation or its rejection;
it makes no transport call and writes nothing else of PP. (Three clauses are the model's choice: that the descriptor leaves
the port, log entry 3, unsafe; that `raced` is emptied, log entry 13; and the value `rejecting` of SEQ before the
rejection, log entry 14. Which position the operation starts at is `WholeRequestIsItsSteps`.) -/
def Obligations.AcceptanceLatchesEveryField : Prop :=
  ∀ (s : State) (d : Descriptor), s.busy = false → s.port = some d →
    ∃ t, ppStep s = .next t ∧
      t = { s with
        req := some ⟨fieldAt d.w0 0 4, fieldAt d.w0 8 8, fieldAt d.w0 16 8, fieldAt d.w0 24 8, fieldAt d.w1 0 8,
          fieldAt d.w1 16 16, BitVec.ofNat 32 (d.w2.toNat % 2 ^ s.cfg.addrBits)⟩
        busy := true, seq := t.seq, port := none, raced := [] } ∧
      (∀ reason, checkRequest s.cfg d = .error reason → t.seq = .rejecting reason) ∧
      (∀ i, checkRequest s.cfg d = .ok i → ∃ pos, t.seq = .run i.op pos)

/-- R125, R59: while BUSY = 1 the descriptor port has no effect on the block and PP leaves it as it is. -/
def Obligations.BusyBlockIgnoresThePort : Prop :=
  ∀ (s : State) (p : Option Descriptor), s.busy = true →
    ppStep { s with port := p } = mapNext (fun t => { t with port := p }) (ppStep s)

/-- R125, R22: with no descriptor presented an idle block stays as it is. -/
def Obligations.IdleBlockWaits : Prop :=
  ∀ s : State, s.cfg.wf = true → s.script = [] → s.busy = false → s.port = none → step s = .next s

/-- R10, R9: a configuration that is not well formed is refused. -/
def Obligations.MalformedConfigurationIsRefused : Prop :=
  ∀ s : State,
    s.cfg.width = 0 ∨ s.cfg.height = 0 ∨ s.cfg.ctrlCmd = s.cfg.ctrlData ∨
      s.cfg.maxChunk < (if s.cfg.variant = .addressed then 2 else 1) + 1 →
    step s = .refused .configNotWellFormed

/-! ### The framer (40_framer.md) -/

/-- R87: SEND_CMD sends one session of the marker, the opcode and the argument Bytes unmasked, reports its status, and
forgets the shadow of a window opcode; nothing else changes. A range outside SM is rejected. (`closeStatus s n` is the
n-th status TRANSPORT returns from `s` on, and `closeNo` numbers them: log entry 6.) -/
def Obligations.SendCmdSendsOneSession : Prop :=
  ∀ (s : State) (op : Byte) (len : BitVec 16) (src : Word),
    (encode (.sendCmd op len src)).w0.toNat % 16 = 1 ∧
    (rangeInsideSM s.cfg src len = false →
      exec (.sendCmd op len src) s = .next { s with result := 0x00010000, busy := false, seq := .idle }) ∧
    (rangeInsideSM s.cfg src len = true →
      exec (.sendCmd op len src) s = .next { s with
        trace := s.trace ++
          cmdSession s.cfg op ((List.range len.toNat).map fun j => memRead (src.toNat + j) s) (closeStatus s 0)
        session := .closed, cnt := 0, closeNo := s.closeNo + 1
        colStart := if op = s.cfg.opSetColumn then none else s.colStart
        colEnd := if op = s.cfg.opSetColumn then none else s.colEnd
        rowStart := if op = s.cfg.opSetRow then none else s.rowStart
        rowEnd := if op = s.cfg.opSetRow then none else s.rowEnd
        result := BitVec.ofNat 32 (closeStatus s 0).toNat, busy := false, seq := .idle })

/-- R88, R83, R85: SEND_DATA sends its source Bytes in sessions of P Bytes, the last with the rest, up to the first that
fails; it reports the last close, and nothing else changes. A range outside SM is rejected. -/
def Obligations.SendDataSendsItsSessions : Prop :=
  ∀ (s : State) (len : BitVec 16) (src : Word), s.cfg.wf = true →
    (encode (.sendData len src)).w0.toNat % 16 = 2 ∧
    (rangeInsideSM s.cfg src len = false →
      exec (.sendData len src) s = .next { s with result := 0x00010000, busy := false, seq := .idle }) ∧
    (rangeInsideSM s.cfg src len = true →
      ∃ k cnt, SessionsSent s.cfg.p len.toNat (closeStatus s) k ∧ cnt ≤ s.cfg.p ∧
        exec (.sendData len src) s = .next { s with
          trace := s.trace ++
            dataFrame s.cfg ((List.range len.toNat).map fun i => memRead (src.toNat + i) s) k (closeStatus s)
          session := .closed, cnt := cnt, closeNo := s.closeNo + k
          result := BitVec.ofNat 32 (closeStatus s (k - 1)).toNat, busy := false, seq := .idle })

/-- R84, R86: when every close of a data frame returns 0, it has `max(1, ceil(n/P))` sessions, session `i` with the Bytes
from `i * P` on, each of P Bytes but the last with the rest, each beginning with its one CTRL_DATA, and the payload
without the markers is exactly the frame's Bytes. -/
def Obligations.ChunkingIsTransparent : Prop :=
  ∀ (s : State) (bytes : List Byte), s.cfg.wf = true →
    let count := max 1 ((bytes.length + s.cfg.p - 1) / s.cfg.p)
    (∀ j < count, closeStatus s j = 0) →
    ∃ (t : State) (sessions : List (List Byte)), framedData bytes s = (0, t) ∧
      t.trace = s.trace ++ (sessions.flatMap fun chunk =>
        [.opened .data, .wrote s.cfg.ctrlData] ++ chunk.map .wrote ++ [.closed 0]) ∧
      sessions.length = count ∧ sessions.flatten = bytes ∧
      payloadOf (sessions.flatMap fun chunk =>
        [.opened .data, .wrote s.cfg.ctrlData] ++ chunk.map .wrote ++ [.closed 0]) = bytes ∧
      ∀ i < count, sessions[i]? = some ((bytes.drop (i * s.cfg.p)).take s.cfg.p) ∧
        ((bytes.drop (i * s.cfg.p)).take s.cfg.p).length =
          if i + 1 < count then s.cfg.p else bytes.length - (count - 1) * s.cfg.p

/-- R152: the transport calls of a command frame, of a data frame, and of RENDER before its data. -/
def Obligations.TransportCallsAreCounted : Prop :=
  ∀ (s : State) (len : BitVec 16) (src : Word), s.cfg.wf = true → rangeInsideSM s.cfg src len = true →
    (∀ op : Byte, ∃ t, exec (.sendCmd op len src) s = .next t ∧ t.trace.length = s.trace.length + (len.toNat + 4)) ∧
    ((∀ j < sessionCount s.cfg.p len.toNat, closeStatus s j = 0) →
      ∃ t, exec (.sendData len src) s = .next t ∧
        t.trace.length = s.trace.length + (3 * sessionCount s.cfg.p len.toNat + len.toNat)) ∧
    (∀ x y w h : Byte, w ≠ 0 → h ≠ 0 → w.toNat % 2 = 0 →
      (∀ j < 3 + sessionCount s.cfg.p len.toNat, closeStatus s j = 0) →
      ∃ t, exec (.render x y w h len src) s = .next t ∧
        t.trace.length = s.trace.length + (17 + (3 * sessionCount s.cfg.p len.toNat + len.toNat)))

/-! ### The window (41_window.md) -/

/-- R90, R89, R32: SET_COL_RANGE. -/
def Obligations.SetColRangeMasksAndRecords : Prop :=
  ∀ (s : State) (start stop : Byte),
    (encode (.setColRange start stop)).w0.toNat % 16 = 3 ∧
    exec (.setColRange start stop) s = .next { s with
      trace := s.trace ++ cmdSession s.cfg s.cfg.opSetColumn
        [BitVec.ofNat 8 (start.toNat % 64), BitVec.ofNat 8 (stop.toNat % 64)] (closeStatus s 0)
      session := .closed, cnt := 0, closeNo := s.closeNo + 1
      colStart := if closeStatus s 0 = 0 then some (BitVec.ofNat 6 (start.toNat % 64)) else none
      colEnd := if closeStatus s 0 = 0 then some (BitVec.ofNat 6 (stop.toNat % 64)) else none
      result := BitVec.ofNat 32 (closeStatus s 0).toNat, busy := false, seq := .idle }

/-- R91, R89, R32: SET_ROW_RANGE. -/
def Obligations.SetRowRangeMasksAndRecords : Prop :=
  ∀ (s : State) (start stop : Byte),
    (encode (.setRowRange start stop)).w0.toNat % 16 = 4 ∧
    exec (.setRowRange start stop) s = .next { s with
      trace := s.trace ++ cmdSession s.cfg s.cfg.opSetRow
        [BitVec.ofNat 8 (start.toNat % 128), BitVec.ofNat 8 (stop.toNat % 128)] (closeStatus s 0)
      session := .closed, cnt := 0, closeNo := s.closeNo + 1
      rowStart := if closeStatus s 0 = 0 then some (BitVec.ofNat 7 (start.toNat % 128)) else none
      rowEnd := if closeStatus s 0 = 0 then some (BitVec.ofNat 7 (stop.toNat % 128)) else none
      result := BitVec.ofNat 32 (closeStatus s 0).toNat, busy := false, seq := .idle }

/-- R92, R32: RESET_RANGE sends both frames, whatever the first close returns, and ORs their statuses. -/
def Obligations.ResetRangeSendsBothFrames : Prop :=
  ∀ s : State,
    (encode .resetRange).w0.toNat % 16 = 5 ∧
    exec .resetRange s = .next { s with
      trace := s.trace ++
        cmdSession s.cfg s.cfg.opSetColumn [0x00, BitVec.ofNat 8 ((s.cfg.width / 2 + 63) % 64)] (closeStatus s 0) ++
        cmdSession s.cfg s.cfg.opSetRow [0x00, BitVec.ofNat 8 ((s.cfg.height + 127) % 128)] (closeStatus s 1)
      session := .closed, cnt := 0, closeNo := s.closeNo + 2
      colStart := if closeStatus s 0 = 0 then some 0 else none
      colEnd := if closeStatus s 0 = 0 then some (BitVec.ofNat 6 ((s.cfg.width / 2 + 63) % 64)) else none
      rowStart := if closeStatus s 1 = 0 then some 0 else none
      rowEnd := if closeStatus s 1 = 0 then some (BitVec.ofNat 7 ((s.cfg.height + 127) % 128)) else none
      result := BitVec.ofNat 32 (closeStatus s 0 ||| closeStatus s 1).toNat, busy := false, seq := .idle }

/-! ### RENDER (42_packer.md) -/

/-- R95, R96, R97, R98: a nonzero status of the row, column or start-line frame ends RENDER with that status before any
data is sent; the frames go out in that order and update the shadow one by one. With all three statuses 0 the data follows
(see `RenderEvenWidthSendsTheBuffer` and `RenderOddWidthStopsAtTheFailedRow`) and the shadow is the commanded window. -/
def Obligations.RenderAbortsBeforeData : Prop :=
  ∀ (s : State) (x y w h : Byte) (len : BitVec 16) (src : Word), (Instr.render x y w h len src).wf s.cfg = true →
    (closeStatus s 0 ≠ 0 →
      exec (.render x y w h len src) s = .next { s with
        trace := s.trace ++ renderRowSession s.cfg y h (closeStatus s 0)
        session := .closed, cnt := 0, closeNo := s.closeNo + 1
        rowStart := none, rowEnd := none
        result := BitVec.ofNat 32 (closeStatus s 0).toNat, busy := false, seq := .idle }) ∧
    (closeStatus s 0 = 0 → closeStatus s 1 ≠ 0 →
      exec (.render x y w h len src) s = .next { withRenderWindow x y w h s with
        trace := s.trace ++ renderRowSession s.cfg y h 0 ++ renderColSession s.cfg x w (closeStatus s 1)
        session := .closed, cnt := 0, closeNo := s.closeNo + 2
        colStart := none, colEnd := none
        result := BitVec.ofNat 32 (closeStatus s 1).toNat, busy := false, seq := .idle }) ∧
    (closeStatus s 0 = 0 → closeStatus s 1 = 0 → closeStatus s 2 ≠ 0 →
      exec (.render x y w h len src) s = .next { withRenderWindow x y w h s with
        trace := s.trace ++ renderRowSession s.cfg y h 0 ++ renderColSession s.cfg x w 0 ++
          startLineSession s.cfg (closeStatus s 2)
        session := .closed, cnt := 0, closeNo := s.closeNo + 3
        result := BitVec.ofNat 32 (closeStatus s 2).toNat, busy := false, seq := .idle }) ∧
    (s.cfg.wf = true → (∀ j < 3, closeStatus s j = 0) →
      ∃ t data, exec (.render x y w h len src) s = .next t ∧
        t.trace = s.trace ++ renderRowSession s.cfg y h 0 ++ renderColSession s.cfg x w 0 ++
          startLineSession s.cfg 0 ++ data ∧
        t.rowStart = (withRenderWindow x y w h s).rowStart ∧ t.rowEnd = (withRenderWindow x y w h s).rowEnd ∧
        t.colStart = (withRenderWindow x y w h s).colStart ∧ t.colEnd = (withRenderWindow x y w h s).colEnd)

/-- R96, R97, R144: for a region inside 128 x 128 pixels, RENDER commands `h` rows and R97's segment counts: `w / 2` for an
even width at any `x` (at odd `x` that is one short of the region, R108), `B = w / 2 + 1` for an odd width at even `x`, and
one more at odd `x`, where the end of a region that reaches pixel column 127 is masked to 0. -/
def Obligations.RenderCommandsTheRegionsSegments : Prop :=
  ∀ (s : State) (x y w h : Byte) (len : BitVec 16) (src : Word), s.cfg.wf = true →
    (Instr.render x y w h len src).wf s.cfg = true → (∀ j < 3, closeStatus s j = 0) →
    x.toNat + w.toNat ≤ 128 → y.toNat + h.toNat ≤ 128 →
    ∃ t cs ce rs re, exec (.render x y w h len src) s = .next t ∧
      t.rowStart = some rs ∧ t.rowEnd = some re ∧ t.colStart = some cs ∧ t.colEnd = some ce ∧
      rs.toNat = y.toNat ∧ re.toNat + 1 = rs.toNat + h.toNat ∧ cs.toNat = x.toNat / 2 ∧
      if w.toNat % 2 = 1 ∧ x.toNat + w.toNat = 128 then ce.toNat = 0
      else ce.toNat + 1 = cs.toNat +
        (if w.toNat % 2 = 0 then w.toNat / 2 else if x.toNat % 2 = 0 then w.toNat / 2 + 1 else w.toNat / 2 + 2)

/-- R100, R95: for an even width the buffer goes out as one data frame, as it is, chunked as any other; when every status
is 0 the payload is exactly the source Bytes. -/
def Obligations.RenderEvenWidthSendsTheBuffer : Prop :=
  ∀ (s : State) (x y w h : Byte) (len : BitVec 16) (src : Word), s.cfg.wf = true →
    (Instr.render x y w h len src).wf s.cfg = true → w.toNat % 2 = 0 → (∀ j < 3, closeStatus s j = 0) →
    ∃ k cnt, SessionsSent s.cfg.p len.toNat (fun n => closeStatus s (3 + n)) k ∧ cnt ≤ s.cfg.p ∧
      ((∀ n < sessionCount s.cfg.p len.toNat, closeStatus s (3 + n) = 0) →
        payloadOf (dataFrame s.cfg ((List.range len.toNat).map fun i => memRead (src.toNat + i) s) k
          (fun n => closeStatus s (3 + n))) = (List.range len.toNat).map fun i => memRead (src.toNat + i) s) ∧
      exec (.render x y w h len src) s = .next { withRenderWindow x y w h s with
        trace := s.trace ++ renderRowSession s.cfg y h 0 ++ renderColSession s.cfg x w 0 ++ startLineSession s.cfg 0 ++
          dataFrame s.cfg ((List.range len.toNat).map fun i => memRead (src.toNat + i) s) k
            (fun n => closeStatus s (3 + n))
        session := .closed, cnt := cnt, closeNo := s.closeNo + (3 + k)
        result := BitVec.ofNat 32 (closeStatus s (3 + (k - 1))).toNat, busy := false, seq := .idle }

/-- R107, R95, R99: for an odd width, with every status 0, each row the source holds whole goes out as a data frame of `B`
Bytes whose nibbles are the row's pixels and a last 0, and every frame, terminal ones too, ends in a low nibble of 0. -/
def Obligations.RenderOddWidthSendsThePixels : Prop :=
  ∀ (s : State) (x y w h : Byte) (len : BitVec 16) (src : Word), s.cfg.wf = true →
    (Instr.render x y w h len src).wf s.cfg = true → w.toNat % 2 = 1 →
    (∀ j < 3 + (2 * len.toNat + 2) * sessionCount s.cfg.p (w.toNat / 2 + 1), closeStatus s j = 0) →
    ∃ (t : State) (rows : List (List Byte)), exec (.render x y w h len src) s = .next t ∧ t.result = 0 ∧
      t.trace = s.trace ++ renderRowSession s.cfg y h 0 ++ renderColSession s.cfg x w 0 ++ startLineSession s.cfg 0 ++
        rowFrames s.cfg rows ∧
      (∀ r, (r + 1) * w.toNat ≤ 2 * len.toNat →
        ∃ row, rows[r]? = some row ∧
          RowIsPixels ((List.range len.toNat).map fun i => memRead (src.toNat + i) s) w.toNat r row) ∧
      (∀ row ∈ rows, ∃ last, row.getLast? = some last ∧ last.toNat % 16 = 0)

/-- R105: how many rows an odd width sends and how long each is, when every status is 0: `2q` full rows, one more if the
rest holds it, and a terminal row of what is left; `h` rows of `B` Bytes for the exact length; and one row a nibble for
width 1. -/
def Obligations.RenderOddWidthRowCount : Prop :=
  ∀ (s : State) (x y w h : Byte) (len : BitVec 16) (src : Word), s.cfg.wf = true →
    (Instr.render x y w h len src).wf s.cfg = true → w.toNat % 2 = 1 →
    (∀ j < 3 + (2 * len.toNat + 2) * sessionCount s.cfg.p (w.toNat / 2 + 1), closeStatus s j = 0) →
    let b := w.toNat / 2 + 1
    let rest := len.toNat % w.toNat
    let tail := if b ≤ rest then rest - b else rest
    ∃ (t : State) (rows : List (List Byte)), exec (.render x y w h len src) s = .next t ∧
      t.trace = s.trace ++ renderRowSession s.cfg y h 0 ++ renderColSession s.cfg x w 0 ++ startLineSession s.cfg 0 ++
        rowFrames s.cfg rows ∧
      (1 < w.toNat →
        rows.map List.length = List.replicate (2 * (len.toNat / w.toNat) + (if b ≤ rest then 1 else 0)) b ++
          (if 0 < tail then [tail] else [])) ∧
      (1 < w.toNat → len.toNat = (w.toNat * h.toNat + 1) / 2 → rows.map List.length = List.replicate h.toNat b) ∧
      (w.toNat = 1 → rows.map List.length = List.replicate (2 * len.toNat) 1 ∧
        (len.toNat = (h.toNat + 1) / 2 → rows.length = if h.toNat % 2 = 0 then h.toNat else h.toNat + 1))

/-- R106, R99, R119: the packer's registers and loop send exactly the rows that are a function of the source Bytes alone,
one data frame each, up to the first row that fails, whose status RENDER returns. Beside RESULT, BUSY, SEQ, the bus and
the commanded window, only the packer's own registers change: PHASE, CARRY and CUR are those after the full rows that were
begun (`fullRows` says how many the source has, R34, R37, R38, R102, R103), CUR never passes LEN, and SCRATCH is
unspecified (R35). -/
def Obligations.RenderOddWidthStopsAtTheFailedRow : Prop :=
  ∀ (s : State) (x y w h : Byte) (len : BitVec 16) (src : Word), s.cfg.wf = true →
    (Instr.render x y w h len src).wf s.cfg = true → w.toNat % 2 = 1 → (∀ j < 3, closeStatus s j = 0) →
    let bytes := (List.range len.toNat).map fun i => memRead (src.toNat + i) s
    let rows := rowsOf w.toNat bytes
    ∃ t sent begun data, exec (.render x y w h len src) s = .next t ∧
      t = { withPackerAfter w.toNat (min begun (fullRows w.toNat len.toNat)) bytes (withRenderWindow x y w h s) with
        trace := t.trace, session := .closed, cnt := t.cnt, closeNo := t.closeNo, scratch := t.scratch
        result := t.result, busy := false, seq := .idle } ∧
      t.cur ≤ len.toNat ∧
      t.trace = s.trace ++ renderRowSession s.cfg y h 0 ++ renderColSession s.cfg x w 0 ++ startLineSession s.cfg 0 ++
        data ∧
      ((sent = rows.length ∧ begun = sent ∧ data = rowFrames s.cfg rows ∧ t.result = 0) ∨
        ∃ row k j, rows[sent]? = some row ∧ begun = sent + 1 ∧
          SessionsSent s.cfg.p row.length (fun n => closeStatus s (j + n)) k ∧ closeStatus s (j + (k - 1)) ≠ 0 ∧
          data = rowFrames s.cfg (rows.take sent) ++ dataFrame s.cfg row k (fun n => closeStatus s (j + n)) ∧
          j = 3 + ((rows.take sent).map fun row => sessionCount s.cfg.p row.length).sum ∧
          t.result = BitVec.ofNat 32 (closeStatus s (j + (k - 1))).toNat)

/-! ### The driver session (43_session.md) -/

/-- R110, R84, R85: CLEAR sends `(WIDTH * HEIGHT) div 2` zero Bytes as one data frame and touches nothing else. -/
def Obligations.ClearSendsZeros : Prop :=
  ∀ s : State, s.cfg.wf = true →
    (encode .clear).w0.toNat % 16 = 7 ∧
    ∃ k cnt, SessionsSent s.cfg.p (s.cfg.width * s.cfg.height / 2) (closeStatus s) k ∧ cnt ≤ s.cfg.p ∧
      exec .clear s = .next { s with
        trace := s.trace ++ dataFrame s.cfg (List.replicate (s.cfg.width * s.cfg.height / 2) 0x00) k (closeStatus s)
        session := .closed, cnt := cnt, closeNo := s.closeNo + k
        result := BitVec.ofNat 32 (closeStatus s (k - 1)).toNat, busy := false, seq := .idle }

/-- R111: CLEAR of a 128 x 128 display sends 8192 zero Bytes in `max(1, ceil(8192 / P))` sessions: 274 and a rest of 2 for
the addressed variant with 32-Byte sessions, 265 and a rest of 8 for the strobe variant. -/
def Obligations.ClearOfTheFullDisplay : Prop :=
  ∀ s : State, s.cfg.wf = true → s.cfg.width = 128 → s.cfg.height = 128 →
    (∀ j < sessionCount s.cfg.p 8192, closeStatus s j = 0) →
    ∃ (t : State) (sessions : List (List Byte)), exec .clear s = .next t ∧
      t.trace = s.trace ++ (sessions.flatMap fun chunk =>
        [.opened .data, .wrote s.cfg.ctrlData] ++ chunk.map .wrote ++ [.closed 0]) ∧
      sessions.flatten = List.replicate 8192 (0x00 : Byte) ∧ sessions.length = sessionCount s.cfg.p 8192 ∧
      (s.cfg.variant = .addressed → s.cfg.maxChunk = 32 →
        sessions.length = 274 ∧ ∀ j < 274, (sessions.getD j []).length = if j < 273 then 30 else 2) ∧
      (s.cfg.variant = .strobe → s.cfg.maxChunk = 32 →
        sessions.length = 265 ∧ ∀ j < 265, (sessions.getD j []).length = if j < 264 then 31 else 8)

/-- R112, R33: INIT sends every frame of INIT_FRAMES in order, whatever they return, then settles; its status is the OR of
all, and the shadow of a window opcode in the list is forgotten. -/
def Obligations.InitSendsEveryFrame : Prop :=
  ∀ s : State,
    (encode .init).w0.toNat % 16 = 8 ∧
    exec .init s = .next { s with
      trace := s.trace ++
        (s.cfg.initFrames.zipIdx.flatMap fun e => cmdSession s.cfg e.1.opcode e.1.args (closeStatus s e.2)) ++ [.settled]
      session := if s.cfg.initFrames = [] then s.session else .closed
      cnt := if s.cfg.initFrames = [] then s.cnt else 0
      closeNo := s.closeNo + s.cfg.initFrames.length
      colStart := if ∃ f ∈ s.cfg.initFrames, f.opcode = s.cfg.opSetColumn then none else s.colStart
      colEnd := if ∃ f ∈ s.cfg.initFrames, f.opcode = s.cfg.opSetColumn then none else s.colEnd
      rowStart := if ∃ f ∈ s.cfg.initFrames, f.opcode = s.cfg.opSetRow then none else s.rowStart
      rowEnd := if ∃ f ∈ s.cfg.initFrames, f.opcode = s.cfg.opSetRow then none else s.rowEnd
      result := BitVec.ofNat 32
        (orOfAll ((List.range s.cfg.initFrames.length).map (closeStatus s))).toNat
      busy := false, seq := .idle }

/-- R113: INIT's result is the OR of its frames' statuses: it does not depend on the order of the failures, and when exactly
one frame fails its status is the result. -/
def Obligations.InitReportsItsOneFailure : Prop :=
  ∀ s : State,
    let statuses := (List.range s.cfg.initFrames.length).map (closeStatus s)
    ∃ t, exec .init s = .next t ∧ statusField t.result = orOfAll statuses ∧
      (∀ other, statuses.Perm other → orOfAll other = statusField t.result) ∧
      ∀ j < s.cfg.initFrames.length, (∀ i < s.cfg.initFrames.length, i ≠ j → closeStatus s i = 0) →
        statusField t.result = closeStatus s j

/-- R114, R33, R28: TRANSPORT_RESET reports whether the reset line was pulsed and, if it was, forgets the shadow. -/
def Obligations.TransportResetReportsThePulse : Prop :=
  ∀ s : State,
    (encode .transportReset).w0.toNat % 16 = 9 ∧
    exec .transportReset s = .next { s with
      trace := s.trace ++ [.pulsed (hwAnswer s)]
      pulseNo := s.pulseNo + 1
      colStart := if hwAnswer s = true then none else s.colStart
      colEnd := if hwAnswer s = true then none else s.colEnd
      rowStart := if hwAnswer s = true then none else s.rowStart
      rowEnd := if hwAnswer s = true then none else s.rowEnd
      result := if hwAnswer s = true then 0x00020000 else 0x00000000
      busy := false, seq := .idle }

/-! ### Rules about every request -/

/-- R118, R68, R69: a request whose operands fail a check writes RESULT, BUSY and SEQ and nothing else. -/
def Obligations.IllegalOperandsAreRejected : Prop :=
  ∀ (s : State) (i : Instr), i.wf s.cfg = false →
    exec i s = .next { s with result := 0x00010000, busy := false, seq := .idle }

/-- R80, R36, R79, R126: what a request puts on the bus is whole sessions, each beginning with its one marker, a data
session with at most P Bytes after it, and no session is left open. -/
def Obligations.RequestsKeepTheTransportContract : Prop :=
  ∀ (s : State) (i : Instr), s.cfg.wf = true →
    ∃ t events, exec i s = .next t ∧ t.trace = s.trace ++ events ∧ busRun s.cfg .between events = some .between ∧
      (s.session = .closed → t.session = .closed)

/-- R26, R117, R119: RESULT.STATUS is made of the statuses TRANSPORT returned to this request, by the request's one policy:
the first nonzero one, after which nothing is closed, or the OR of all; 0 if there is none. SEND_CMD closes once, and
TRANSPORT_RESET and a rejected request close nothing. -/
def Obligations.StatusIsTheTransports : Prop :=
  ∀ (s : State) (i : Instr), s.cfg.wf = true →
    ∃ t events, exec i s = .next t ∧ t.trace = s.trace ++ events ∧
      (aggregates i = true → statusField t.result = orOfAll (closesOf events)) ∧
      (aggregates i = false → statusField t.result = firstFailure (closesOf events) ∧
        ∀ st ∈ (closesOf events).dropLast, st = 0) ∧
      (∀ op len src, i = .sendCmd op len src → i.wf s.cfg = true → closesOf events = [statusField t.result]) ∧
      (i = .transportReset ∨ i.wf s.cfg = false → closesOf events = [] ∧ statusField t.result = 0)

/-- R78: a request takes one answer of TRANSPORT for each close, in order, and puts it on the trace as it is (numbering the
answers is the model's, log entry 6). -/
def Obligations.EveryCloseTakesTheNextAnswer : Prop :=
  ∀ (s : State) (i : Instr), s.cfg.wf = true →
    ∃ t events, exec i s = .next t ∧ t.trace = s.trace ++ events ∧
      closesOf events = (List.range (t.closeNo - s.closeNo)).map (closeStatus s) ∧ s.closeNo ≤ t.closeNo ∧
      ∀ st ∈ closesOf events, st.toNat < 2 ^ s.cfg.statusBits

/-- R27, R28, R25: ILLEGAL is 1 exactly for a rejected request, RESET_PULSED exactly for a TRANSPORT_RESET that was
answered true, and the reserved bits are 0. -/
def Obligations.ResultFlagsSayWhatHappened : Prop :=
  ∀ (s : State) (i : Instr),
    ∃ t, exec i s = .next t ∧ (illegalFlag t.result = true ↔ i.wf s.cfg = false) ∧
      (pulsedFlag t.result = true ↔ i = .transportReset ∧ hwAnswer s = true) ∧ reservedField t.result = 0

/-- R31: no request reads the window shadow: another shadow changes no other field of the state it leaves. -/
def Obligations.NoRequestReadsTheShadow : Prop :=
  ∀ (s t : State) (i : Instr) (a b : Option (BitVec 6)) (c d : Option (BitVec 7)), exec i s = .next t →
    ∃ u, exec i { s with colStart := a, colEnd := b, rowStart := c, rowEnd := d } = .next u ∧
      u = { t with colStart := u.colStart, colEnd := u.colEnd, rowStart := u.rowStart, rowEnd := u.rowEnd }

/-- R101, R35, R123: nothing of the packer's registers or of SCRATCH carries over from an earlier request, and neither do
RESULT, BUSY and SEQ. -/
def Obligations.NothingCarriesOverFromEarlierRequests : Prop :=
  ∀ (s t : State) (i : Instr) (phase : Phase) (carry : Byte) (cur : Nat) (scratch : List Byte) (result : Word)
    (busy : Bool) (seq : Seq), exec i s = .next t →
    ∃ u, exec i { s with
        phase := phase, carry := carry, cur := cur, scratch := scratch, result := result, busy := busy, seq := seq } =
        .next u ∧
      u = { t with phase := u.phase, carry := u.carry, cur := u.cur, scratch := u.scratch }

/-- R44: a request reads source memory in `[SRC, SRC + LEN)` only, and SET_COL_RANGE, SET_ROW_RANGE, RESET_RANGE, CLEAR,
INIT and TRANSPORT_RESET read none: two memories that agree there give the same bus events, RESULT and registers. -/
def Obligations.RequestsReadOnlyTheirRange : Prop :=
  ∀ (s t : State) (i : Instr) (mem : Memory), (∀ a, readsAddress a i → mem.read a = s.mem.read a) →
    exec i s = .next t → exec i { s with mem := mem } = .next { t with mem := mem }

/-- R42, R19, R30, R39: no request changes source memory, REQ, the configuration, FAULT, the descriptor port, or what
the other agents are about to do. -/
def Obligations.RequestsLeaveTheRestUnchanged : Prop :=
  ∀ (s t : State) (i : Instr), exec i s = .next t →
    (∀ a, t.mem.read a = s.mem.read a) ∧ t.mem = s.mem ∧ t.req = s.req ∧ t.cfg = s.cfg ∧ t.fault = s.fault ∧
      t.port = s.port ∧ t.script = s.script ∧ t.closes = s.closes ∧ t.pulses = s.pulses ∧ t.raced = s.raced ∧
      t.raceNo = s.raceNo ∧ t.busy = false ∧ t.seq = .idle

/-- R32, R33: the shadow changes only for the columns or rows a request commands: SEND_DATA and CLEAR leave it, SET_COL_RANGE
leaves the rows, SET_ROW_RANGE the columns, and SEND_CMD and INIT what their opcodes do not command. -/
def Obligations.ShadowChangesOnlyByWindowCommands : Prop :=
  ∀ (s t : State) (i : Instr), exec i s = .next t →
    let cols := t.colStart = s.colStart ∧ t.colEnd = s.colEnd
    let rows := t.rowStart = s.rowStart ∧ t.rowEnd = s.rowEnd
    ((∃ len src, i = .sendData len src) → cols ∧ rows) ∧
    (i = .clear → cols ∧ rows) ∧
    ((∃ a b, i = .setColRange a b) → rows) ∧
    ((∃ a b, i = .setRowRange a b) → cols) ∧
    (∀ op len src, i = .sendCmd op len src →
      (op ≠ s.cfg.opSetColumn → cols) ∧ (op ≠ s.cfg.opSetRow → rows)) ∧
    (i = .init → ((∀ f ∈ s.cfg.initFrames, f.opcode ≠ s.cfg.opSetColumn) → cols) ∧
      ((∀ f ∈ s.cfg.initFrames, f.opcode ≠ s.cfg.opSetRow) → rows)) ∧
    (i = .transportReset → hwAnswer s = false → cols ∧ rows)

/-- R34, R35, R37, R38: PHASE, CARRY, CUR and SCRATCH change only in a RENDER of an odd width. -/
def Obligations.PackerRegistersChangeOnlyInOddRenders : Prop :=
  ∀ (s t : State) (i : Instr), exec i s = .next t →
    (∀ x y w h len src, i = .render x y w h len src → w.toNat % 2 = 0) →
    t.phase = s.phase ∧ t.carry = s.carry ∧ t.cur = s.cur ∧ t.scratch = s.scratch

/-! ### The sequencer: R7's steps, invariants, and the whole request -/

/-- R22, R151, R53, R7: the whole request that the move `letRequest` runs (the model's, log entry 1) is what the machine's
single steps of R7 come to, acceptance first and one transport call or memory read after another, with BUSY = 1 from the
acceptance until the last; so every accepted request finishes after finitely many steps, which rests on R151's assumption
that TRANSPORT answers every call (log entry 23). -/
def Obligations.WholeRequestIsItsSteps : Prop :=
  ∀ (s : State) (d : Descriptor), s.cfg.wf = true → s.script = [] → s.busy = false → s.port = some d →
    ∃ n t, step { s with script := [.letRequest] } = .next t ∧ steps (n + 1) s = .next t ∧ t.busy = false ∧
      ∀ m < n, ∃ u, steps (m + 1) s = .next u ∧ u.busy = true

/-- R21, R25, R36, R38, R80: every step of the machine keeps the invariant of the block. -/
def Obligations.EveryStepKeepsTheInvariant : Prop :=
  ∀ s t : State, Inv s → step s = .next t → Inv t

/-- R41: a block after reset has the invariant, whatever its well-formed configuration. -/
def Obligations.ResetHasTheInvariant : Prop :=
  (∀ c : Config, c.wf = true → Inv (State.constructed c)) ∧ Inv State.reset

/-- R43, R151: from a state with the invariant PP never stops: no read of a running request is outside SM. -/
def Obligations.RunningRequestsNeverStop : Prop :=
  ∀ s : State, s.cfg.wf = true → Inv s → ∃ t, ppStep s = .next t

/-- R39, R30, R41, R134: a step adds fault reasons and removes none, so a state with one is never final and stays so; only
block reset of an idle block empties FAULT (log entry 11). No step writes the configuration. (`isFinal` is the model's
reading of "final", log entry 27; this states of it only that a state with a reason is not final.) -/
def Obligations.FaultReasonsOnlyAddUp : Prop :=
  ∀ s t : State, step s = .next t → t.cfg = s.cfg ∧
    ((s.fault.subset t.fault = true ∧ (s.fault ≠ .empty → isFinal t = false)) ∨
      (s.busy = false ∧ (∃ rest, s.script = .assertReset :: rest) ∧ t.fault = .empty))

/-- R40, R134, R135: a step appends to the bus trace; only a block reset of an idle block empties it. -/
def Obligations.TraceOnlyGrows : Prop :=
  ∀ s t : State, step s = .next t →
    (∃ events, t.trace = s.trace ++ events) ∨
      (s.busy = false ∧ (∃ rest, s.script = .assertReset :: rest) ∧ t.trace = [])

/-- R25, R148: only the step that ends a request writes RESULT; while BUSY = 1 it shows the previous request. -/
def Obligations.ResultIsThePreviousWhileBusy : Prop :=
  ∀ s t : State, ppStep s = .next t → t.busy = true → t.result = s.result

/-- R39: a step of a running request whose REQ is UNKNOWN adds UnknownRead and changes nothing else. (R39 asks for it where
the value is needed; that it is recorded at every position of the request, also where no rule reads REQ, and that PP then
stays where it is, is the model's choice, log entry 10. No state with the invariant is such a state.) -/
def Obligations.UnknownRequestIsRecorded : Prop :=
  ∀ (s : State) (op : Op) (pos : Pos), s.busy = true → s.seq = .run op pos → s.req = none →
    ppStep s = .next { s with fault := { s.fault with unknownRead := true } }

/-! ### HOST: reset and source memory -/

/-- R134, R41, R136: block reset of an idle block sets every element of PP to its reset value in one step, FAULT and the
trace to the empty ones, with no transport call, and leaves the configuration, source memory and the other agents as they
are. SCRATCH is unspecified there. (That R41's empty FAULT outweighs R39's "never removes one" is DEDUCED, log entry 11;
`raced` is the model's, log entry 13; which agents' fields stay is log entry 18.) -/
def Obligations.BlockResetSetsEveryElement : Prop :=
  ∀ (s : State) (rest : List HostAct), s.cfg.wf = true → s.script = .assertReset :: rest → s.busy = false →
    ∃ t, step s = .next t ∧ t = { s with
      busy := false, result := 0x00000000, colStart := none, colEnd := none, rowStart := none, rowEnd := none
      req := none, seq := .idle, session := .closed, cnt := 0, phase := .even, carry := 0x00, cur := 0
      scratch := t.scratch, fault := .empty, trace := [], script := rest, raced := [] }

/-- R135, R134: block reset while BUSY = 1 adds ResetMidOperation, keeps the trace as it is, with no closing event, and
sets the rest as any reset. (That earlier reasons stay in FAULT is DEDUCED, log entry 11; that the port, source memory and
the other agents stay is log entry 18; `raced`, which is emptied, is the model's, log entry 13.) -/
def Obligations.ResetMidOperationIsRecorded : Prop :=
  ∀ (s : State) (rest : List HostAct), s.cfg.wf = true → s.script = .assertReset :: rest → s.busy = true →
    ∃ t, step s = .next t ∧ t = { s with
      busy := false, result := 0x00000000, colStart := none, colEnd := none, rowStart := none, rowEnd := none
      req := none, seq := .idle, session := .closed, cnt := 0, phase := .even, carry := 0x00, cur := 0
      scratch := t.scratch, fault := { s.fault with resetMidOperation := true }, script := rest, raced := [] }

/-- R56, R55: a HOST write into the range of the running request adds SourceRace, and the Byte PP reads there is any Byte
(the free value of log entry 13); it changes source memory, the model's record of the race and what PP has read and not
yet used (`RacedBytesInFlightAreFree`) and nothing else. A write outside the range, or while BUSY = 0, adds nothing. -/
def Obligations.SourceRaceIsRecorded : Prop :=
  ∀ (s : State) (a : Nat) (b : Byte) (r : Req), s.req = some r → a < 2 ^ s.cfg.addrBits →
    (s.busy = true → (r.op = 1 ∨ r.op = 2 ∨ r.op = 6) → r.src.toNat ≤ a → a < r.src.toNat + r.len.toNat →
      ∃ t, hostWrite a b s = .next t ∧ memRead a t = Config.racedByte (s.raceNo + 1) a ∧
        t = { s with
          mem := s.mem.write a b, fault := { s.fault with sourceRace := true }, raced := t.raced, raceNo := t.raceNo
          seq := t.seq, scratch := t.scratch, carry := t.carry }) ∧
    ((s.busy = false ∨ a < r.src.toNat ∨ r.src.toNat + r.len.toNat ≤ a) →
      hostWrite a b s = .next { s with mem := s.mem.write a b })

/-- R54, R56: a Byte of the range that HOST writes after PP has read it and before the `TWrite` of the first Byte computed
from it is any Byte (the free value of log entry 13): an argument of SEND_CMD, from its read on until it is written, also
while the marker or the opcode is the next Byte to write; a payload Byte; a Byte of a row that is being read; and a Byte of
the row in the row buffer, with its carry; the row is then the one that Byte gives. -/
def Obligations.RacedBytesInFlightAreFree : Prop :=
  ∀ (s : State) (b : Byte) (op : Op) (pos : Pos) (r : Req) (j : Nat), s.busy = true → s.seq = .run op pos →
    s.req = some r → usesSource r.op = true → j < r.len.toNat → r.src.toNat + j < 2 ^ s.cfg.addrBits →
    let any := Config.racedByte (s.raceNo + 1) (r.src.toNat + j)
    ∃ t, hostWrite (r.src.toNat + j) b s = .next t ∧
      (∀ got, pos = .argByte got → t.seq = .run op (.argByte (got.set j any))) ∧
      (∀ (c : Config) (o : Byte) (args : List Byte), args.length = r.len.toNat → pos = .cmdOpen .sendCmd (cmdBytes c o args) →
        t.seq = .run op (.cmdOpen .sendCmd (cmdBytes c o (args.set j any)))) ∧
      (∀ (c : Config) (o : Byte) (args : List Byte) (k : Nat), args.length = r.len.toNat →
        pos = .cmdNext .sendCmd ((cmdBytes c o args).drop k) →
        t.seq = .run op (.cmdNext .sendCmd ((cmdBytes c o (args.set j any)).drop k))) ∧
      (∀ site source n old, pos = .dataPut site source j n old → t.seq = .run op (.dataPut site source j n any)) ∧
      (∀ row got, pos = .rowByte row got → s.cur ≤ j → t.seq = .run op (.rowByte row (got.set (j - s.cur) any))) ∧
      (∀ (site : Site) (i n : Nat) (row : RowKind) (bytes : List Byte) (u : State),
        (pos = .dataOpen site .rowBuffer i n ∨ pos = .dataMark site .rowBuffer i n ∨ pos = .dataNext site .rowBuffer i n) →
        rowInBuffer site s = row → s.scratch = (loadRow row bytes u).scratch → s.carry = (loadRow row bytes u).carry →
        s.cur + i ≤ j → j < s.cur + bytes.length →
        t.seq = s.seq ∧ t.scratch = (loadRow row (bytes.set (j - s.cur) any) u).scratch ∧
          t.carry = (loadRow row (bytes.set (j - s.cur) any) u).carry)

/-- R42: a Byte HOST writes is in source memory, and every other Byte is unchanged. (That a write at an address R42 does not
give faults with `noSuchAddress` is the model's choice, DEDUCED, log entry 20. What PP reads is
`MemReadIsTheByteOfSourceMemory`.) -/
def Obligations.HostWritesOneByte : Prop :=
  ∀ (s : State) (rest : List HostAct) (a : Nat) (b : Byte), s.cfg.wf = true → s.script = .writeByte a b :: rest →
    s.mem.wf = true →
    (a < 2 ^ s.cfg.addrBits → ∃ t, step s = .next t ∧ t.mem.wf = true ∧ t.mem.read a = b ∧
      (∀ x, x ≠ a → t.mem.read x = s.mem.read x) ∧ t.trace = s.trace ∧ t.result = s.result ∧ t.busy = s.busy) ∧
    (2 ^ s.cfg.addrBits ≤ a → step s = .fault .noSuchAddress)

/-- R43, R42: `MemRead(a, 1)` is the Byte of source memory at `a`, for every address that HOST did not write in the range of
the running request (`raced`, R56). The acceptance empties `raced`, so a Byte HOST wrote before it is the Byte the accepted
request reads, and so is every other Byte. (`raced` is the model's, log entry 13.) -/
def Obligations.MemReadIsTheByteOfSourceMemory : Prop :=
  (∀ (s : State) (a : Nat), a ∉ s.raced → memRead a s = s.mem.read a) ∧
  ∀ (s : State) (d : Descriptor) (a : Nat) (b : Byte), s.cfg.wf = true → s.mem.wf = true → s.busy = false →
    s.port = some d → s.script = [.writeByte a b] → a < 2 ^ s.cfg.addrBits →
    ∃ t, steps 2 s = .next t ∧ t.req = some (latch s.cfg d) ∧ t.busy = true ∧ memRead a t = b ∧
      ∀ x, x ≠ a → memRead x t = s.mem.read x

/-- The model's choice of representation (log entry 8): two canonical memories that read alike everywhere are equal. -/
def Obligations.CanonicalMemoriesAreUnique : Prop :=
  ∀ m n : Memory, m.wf = true → n.wf = true → (∀ a, m.read a = n.read a) → m = n
end

