-- ==== Sys2Proof/Laws/State.lean ====
section
/-! SUPPORT. What each update of the state leaves in each field (lemmas by rfl), and that the window updates touch the
shadow only. -/

namespace Sys2Proof.Machine

variable (s : State)

/-! ### emit -/

@[simp] theorem emit_cfg (e : Event) : (emit e s).cfg = s.cfg := rfl
@[simp] theorem emit_busy (e : Event) : (emit e s).busy = s.busy := rfl
@[simp] theorem emit_result (e : Event) : (emit e s).result = s.result := rfl
@[simp] theorem emit_colStart (e : Event) : (emit e s).colStart = s.colStart := rfl
@[simp] theorem emit_colEnd (e : Event) : (emit e s).colEnd = s.colEnd := rfl
@[simp] theorem emit_rowStart (e : Event) : (emit e s).rowStart = s.rowStart := rfl
@[simp] theorem emit_rowEnd (e : Event) : (emit e s).rowEnd = s.rowEnd := rfl
@[simp] theorem emit_req (e : Event) : (emit e s).req = s.req := rfl
@[simp] theorem emit_seq (e : Event) : (emit e s).seq = s.seq := rfl
@[simp] theorem emit_session (e : Event) : (emit e s).session = s.session := rfl
@[simp] theorem emit_cnt (e : Event) : (emit e s).cnt = s.cnt := rfl
@[simp] theorem emit_phase (e : Event) : (emit e s).phase = s.phase := rfl
@[simp] theorem emit_carry (e : Event) : (emit e s).carry = s.carry := rfl
@[simp] theorem emit_cur (e : Event) : (emit e s).cur = s.cur := rfl
@[simp] theorem emit_scratch (e : Event) : (emit e s).scratch = s.scratch := rfl
@[simp] theorem emit_fault (e : Event) : (emit e s).fault = s.fault := rfl
@[simp] theorem emit_trace (e : Event) : (emit e s).trace = s.trace ++ [e] := rfl
@[simp] theorem emit_mem (e : Event) : (emit e s).mem = s.mem := rfl
@[simp] theorem emit_port (e : Event) : (emit e s).port = s.port := rfl
@[simp] theorem emit_script (e : Event) : (emit e s).script = s.script := rfl
@[simp] theorem emit_closes (e : Event) : (emit e s).closes = s.closes := rfl
@[simp] theorem emit_closeNo (e : Event) : (emit e s).closeNo = s.closeNo := rfl
@[simp] theorem emit_pulses (e : Event) : (emit e s).pulses = s.pulses := rfl
@[simp] theorem emit_pulseNo (e : Event) : (emit e s).pulseNo = s.pulseNo := rfl
@[simp] theorem emit_raced (e : Event) : (emit e s).raced = s.raced := rfl
@[simp] theorem emit_raceNo (e : Event) : (emit e s).raceNo = s.raceNo := rfl

/-! ### tOpen -/

@[simp] theorem tOpen_cfg (k : Kind) : (tOpen k s).cfg = s.cfg := rfl
@[simp] theorem tOpen_busy (k : Kind) : (tOpen k s).busy = s.busy := rfl
@[simp] theorem tOpen_result (k : Kind) : (tOpen k s).result = s.result := rfl
@[simp] theorem tOpen_colStart (k : Kind) : (tOpen k s).colStart = s.colStart := rfl
@[simp] theorem tOpen_colEnd (k : Kind) : (tOpen k s).colEnd = s.colEnd := rfl
@[simp] theorem tOpen_rowStart (k : Kind) : (tOpen k s).rowStart = s.rowStart := rfl
@[simp] theorem tOpen_rowEnd (k : Kind) : (tOpen k s).rowEnd = s.rowEnd := rfl
@[simp] theorem tOpen_req (k : Kind) : (tOpen k s).req = s.req := rfl
@[simp] theorem tOpen_seq (k : Kind) : (tOpen k s).seq = s.seq := rfl
@[simp] theorem tOpen_session (k : Kind) : (tOpen k s).session = .opened k := rfl
@[simp] theorem tOpen_cnt (k : Kind) : (tOpen k s).cnt = 0 := rfl
@[simp] theorem tOpen_phase (k : Kind) : (tOpen k s).phase = s.phase := rfl
@[simp] theorem tOpen_carry (k : Kind) : (tOpen k s).carry = s.carry := rfl
@[simp] theorem tOpen_cur (k : Kind) : (tOpen k s).cur = s.cur := rfl
@[simp] theorem tOpen_scratch (k : Kind) : (tOpen k s).scratch = s.scratch := rfl
@[simp] theorem tOpen_fault (k : Kind) : (tOpen k s).fault = s.fault := rfl
@[simp] theorem tOpen_trace (k : Kind) : (tOpen k s).trace = s.trace ++ [.opened k] := rfl
@[simp] theorem tOpen_mem (k : Kind) : (tOpen k s).mem = s.mem := rfl
@[simp] theorem tOpen_port (k : Kind) : (tOpen k s).port = s.port := rfl
@[simp] theorem tOpen_script (k : Kind) : (tOpen k s).script = s.script := rfl
@[simp] theorem tOpen_closes (k : Kind) : (tOpen k s).closes = s.closes := rfl
@[simp] theorem tOpen_closeNo (k : Kind) : (tOpen k s).closeNo = s.closeNo := rfl
@[simp] theorem tOpen_pulses (k : Kind) : (tOpen k s).pulses = s.pulses := rfl
@[simp] theorem tOpen_pulseNo (k : Kind) : (tOpen k s).pulseNo = s.pulseNo := rfl
@[simp] theorem tOpen_raced (k : Kind) : (tOpen k s).raced = s.raced := rfl
@[simp] theorem tOpen_raceNo (k : Kind) : (tOpen k s).raceNo = s.raceNo := rfl

/-! ### tWrite -/

@[simp] theorem tWrite_cfg (b : Byte) : (tWrite b s).cfg = s.cfg := rfl
@[simp] theorem tWrite_busy (b : Byte) : (tWrite b s).busy = s.busy := rfl
@[simp] theorem tWrite_result (b : Byte) : (tWrite b s).result = s.result := rfl
@[simp] theorem tWrite_colStart (b : Byte) : (tWrite b s).colStart = s.colStart := rfl
@[simp] theorem tWrite_colEnd (b : Byte) : (tWrite b s).colEnd = s.colEnd := rfl
@[simp] theorem tWrite_rowStart (b : Byte) : (tWrite b s).rowStart = s.rowStart := rfl
@[simp] theorem tWrite_rowEnd (b : Byte) : (tWrite b s).rowEnd = s.rowEnd := rfl
@[simp] theorem tWrite_req (b : Byte) : (tWrite b s).req = s.req := rfl
@[simp] theorem tWrite_seq (b : Byte) : (tWrite b s).seq = s.seq := rfl
@[simp] theorem tWrite_session (b : Byte) : (tWrite b s).session = s.session := rfl
@[simp] theorem tWrite_cnt (b : Byte) : (tWrite b s).cnt = s.cnt := rfl
@[simp] theorem tWrite_phase (b : Byte) : (tWrite b s).phase = s.phase := rfl
@[simp] theorem tWrite_carry (b : Byte) : (tWrite b s).carry = s.carry := rfl
@[simp] theorem tWrite_cur (b : Byte) : (tWrite b s).cur = s.cur := rfl
@[simp] theorem tWrite_scratch (b : Byte) : (tWrite b s).scratch = s.scratch := rfl
@[simp] theorem tWrite_fault (b : Byte) : (tWrite b s).fault = s.fault := rfl
@[simp] theorem tWrite_trace (b : Byte) : (tWrite b s).trace = s.trace ++ [.wrote b] := rfl
@[simp] theorem tWrite_mem (b : Byte) : (tWrite b s).mem = s.mem := rfl
@[simp] theorem tWrite_port (b : Byte) : (tWrite b s).port = s.port := rfl
@[simp] theorem tWrite_script (b : Byte) : (tWrite b s).script = s.script := rfl
@[simp] theorem tWrite_closes (b : Byte) : (tWrite b s).closes = s.closes := rfl
@[simp] theorem tWrite_closeNo (b : Byte) : (tWrite b s).closeNo = s.closeNo := rfl
@[simp] theorem tWrite_pulses (b : Byte) : (tWrite b s).pulses = s.pulses := rfl
@[simp] theorem tWrite_pulseNo (b : Byte) : (tWrite b s).pulseNo = s.pulseNo := rfl
@[simp] theorem tWrite_raced (b : Byte) : (tWrite b s).raced = s.raced := rfl
@[simp] theorem tWrite_raceNo (b : Byte) : (tWrite b s).raceNo = s.raceNo := rfl

/-! ### tWritePayload -/

@[simp] theorem tWritePayload_cfg (b : Byte) : (tWritePayload b s).cfg = s.cfg := rfl
@[simp] theorem tWritePayload_busy (b : Byte) : (tWritePayload b s).busy = s.busy := rfl
@[simp] theorem tWritePayload_result (b : Byte) : (tWritePayload b s).result = s.result := rfl
@[simp] theorem tWritePayload_colStart (b : Byte) : (tWritePayload b s).colStart = s.colStart := rfl
@[simp] theorem tWritePayload_colEnd (b : Byte) : (tWritePayload b s).colEnd = s.colEnd := rfl
@[simp] theorem tWritePayload_rowStart (b : Byte) : (tWritePayload b s).rowStart = s.rowStart := rfl
@[simp] theorem tWritePayload_rowEnd (b : Byte) : (tWritePayload b s).rowEnd = s.rowEnd := rfl
@[simp] theorem tWritePayload_req (b : Byte) : (tWritePayload b s).req = s.req := rfl
@[simp] theorem tWritePayload_seq (b : Byte) : (tWritePayload b s).seq = s.seq := rfl
@[simp] theorem tWritePayload_session (b : Byte) : (tWritePayload b s).session = s.session := rfl
@[simp] theorem tWritePayload_cnt (b : Byte) : (tWritePayload b s).cnt = s.cnt + 1 := rfl
@[simp] theorem tWritePayload_phase (b : Byte) : (tWritePayload b s).phase = s.phase := rfl
@[simp] theorem tWritePayload_carry (b : Byte) : (tWritePayload b s).carry = s.carry := rfl
@[simp] theorem tWritePayload_cur (b : Byte) : (tWritePayload b s).cur = s.cur := rfl
@[simp] theorem tWritePayload_scratch (b : Byte) : (tWritePayload b s).scratch = s.scratch := rfl
@[simp] theorem tWritePayload_fault (b : Byte) : (tWritePayload b s).fault = s.fault := rfl
@[simp] theorem tWritePayload_trace (b : Byte) : (tWritePayload b s).trace = s.trace ++ [.wrote b] := rfl
@[simp] theorem tWritePayload_mem (b : Byte) : (tWritePayload b s).mem = s.mem := rfl
@[simp] theorem tWritePayload_port (b : Byte) : (tWritePayload b s).port = s.port := rfl
@[simp] theorem tWritePayload_script (b : Byte) : (tWritePayload b s).script = s.script := rfl
@[simp] theorem tWritePayload_closes (b : Byte) : (tWritePayload b s).closes = s.closes := rfl
@[simp] theorem tWritePayload_closeNo (b : Byte) : (tWritePayload b s).closeNo = s.closeNo := rfl
@[simp] theorem tWritePayload_pulses (b : Byte) : (tWritePayload b s).pulses = s.pulses := rfl
@[simp] theorem tWritePayload_pulseNo (b : Byte) : (tWritePayload b s).pulseNo = s.pulseNo := rfl
@[simp] theorem tWritePayload_raced (b : Byte) : (tWritePayload b s).raced = s.raced := rfl
@[simp] theorem tWritePayload_raceNo (b : Byte) : (tWritePayload b s).raceNo = s.raceNo := rfl

/-! ### tClose -/

@[simp] theorem tClose_cfg : (tClose s).2.cfg = s.cfg := rfl
@[simp] theorem tClose_busy : (tClose s).2.busy = s.busy := rfl
@[simp] theorem tClose_result : (tClose s).2.result = s.result := rfl
@[simp] theorem tClose_colStart : (tClose s).2.colStart = s.colStart := rfl
@[simp] theorem tClose_colEnd : (tClose s).2.colEnd = s.colEnd := rfl
@[simp] theorem tClose_rowStart : (tClose s).2.rowStart = s.rowStart := rfl
@[simp] theorem tClose_rowEnd : (tClose s).2.rowEnd = s.rowEnd := rfl
@[simp] theorem tClose_req : (tClose s).2.req = s.req := rfl
@[simp] theorem tClose_seq : (tClose s).2.seq = s.seq := rfl
@[simp] theorem tClose_session : (tClose s).2.session = .closed := rfl
@[simp] theorem tClose_cnt : (tClose s).2.cnt = s.cnt := rfl
@[simp] theorem tClose_phase : (tClose s).2.phase = s.phase := rfl
@[simp] theorem tClose_carry : (tClose s).2.carry = s.carry := rfl
@[simp] theorem tClose_cur : (tClose s).2.cur = s.cur := rfl
@[simp] theorem tClose_scratch : (tClose s).2.scratch = s.scratch := rfl
@[simp] theorem tClose_fault : (tClose s).2.fault = s.fault := rfl
@[simp] theorem tClose_trace : (tClose s).2.trace = s.trace ++ [.closed (closeStatus s 0)] := rfl
@[simp] theorem tClose_mem : (tClose s).2.mem = s.mem := rfl
@[simp] theorem tClose_port : (tClose s).2.port = s.port := rfl
@[simp] theorem tClose_script : (tClose s).2.script = s.script := rfl
@[simp] theorem tClose_closes : (tClose s).2.closes = s.closes := rfl
@[simp] theorem tClose_closeNo : (tClose s).2.closeNo = s.closeNo + 1 := rfl
@[simp] theorem tClose_pulses : (tClose s).2.pulses = s.pulses := rfl
@[simp] theorem tClose_pulseNo : (tClose s).2.pulseNo = s.pulseNo := rfl
@[simp] theorem tClose_raced : (tClose s).2.raced = s.raced := rfl
@[simp] theorem tClose_raceNo : (tClose s).2.raceNo = s.raceNo := rfl

/-! ### tHwReset -/

@[simp] theorem tHwReset_cfg : (tHwReset s).2.cfg = s.cfg := rfl
@[simp] theorem tHwReset_busy : (tHwReset s).2.busy = s.busy := rfl
@[simp] theorem tHwReset_result : (tHwReset s).2.result = s.result := rfl
@[simp] theorem tHwReset_colStart : (tHwReset s).2.colStart = s.colStart := rfl
@[simp] theorem tHwReset_colEnd : (tHwReset s).2.colEnd = s.colEnd := rfl
@[simp] theorem tHwReset_rowStart : (tHwReset s).2.rowStart = s.rowStart := rfl
@[simp] theorem tHwReset_rowEnd : (tHwReset s).2.rowEnd = s.rowEnd := rfl
@[simp] theorem tHwReset_req : (tHwReset s).2.req = s.req := rfl
@[simp] theorem tHwReset_seq : (tHwReset s).2.seq = s.seq := rfl
@[simp] theorem tHwReset_session : (tHwReset s).2.session = s.session := rfl
@[simp] theorem tHwReset_cnt : (tHwReset s).2.cnt = s.cnt := rfl
@[simp] theorem tHwReset_phase : (tHwReset s).2.phase = s.phase := rfl
@[simp] theorem tHwReset_carry : (tHwReset s).2.carry = s.carry := rfl
@[simp] theorem tHwReset_cur : (tHwReset s).2.cur = s.cur := rfl
@[simp] theorem tHwReset_scratch : (tHwReset s).2.scratch = s.scratch := rfl
@[simp] theorem tHwReset_fault : (tHwReset s).2.fault = s.fault := rfl
@[simp] theorem tHwReset_trace : (tHwReset s).2.trace = s.trace ++ [.pulsed (hwAnswer s)] := rfl
@[simp] theorem tHwReset_mem : (tHwReset s).2.mem = s.mem := rfl
@[simp] theorem tHwReset_port : (tHwReset s).2.port = s.port := rfl
@[simp] theorem tHwReset_script : (tHwReset s).2.script = s.script := rfl
@[simp] theorem tHwReset_closes : (tHwReset s).2.closes = s.closes := rfl
@[simp] theorem tHwReset_closeNo : (tHwReset s).2.closeNo = s.closeNo := rfl
@[simp] theorem tHwReset_pulses : (tHwReset s).2.pulses = s.pulses := rfl
@[simp] theorem tHwReset_pulseNo : (tHwReset s).2.pulseNo = s.pulseNo + 1 := rfl
@[simp] theorem tHwReset_raced : (tHwReset s).2.raced = s.raced := rfl
@[simp] theorem tHwReset_raceNo : (tHwReset s).2.raceNo = s.raceNo := rfl

/-! ### settle -/

@[simp] theorem settle_cfg : (settle s).cfg = s.cfg := rfl
@[simp] theorem settle_busy : (settle s).busy = s.busy := rfl
@[simp] theorem settle_result : (settle s).result = s.result := rfl
@[simp] theorem settle_colStart : (settle s).colStart = s.colStart := rfl
@[simp] theorem settle_colEnd : (settle s).colEnd = s.colEnd := rfl
@[simp] theorem settle_rowStart : (settle s).rowStart = s.rowStart := rfl
@[simp] theorem settle_rowEnd : (settle s).rowEnd = s.rowEnd := rfl
@[simp] theorem settle_req : (settle s).req = s.req := rfl
@[simp] theorem settle_seq : (settle s).seq = s.seq := rfl
@[simp] theorem settle_session : (settle s).session = s.session := rfl
@[simp] theorem settle_cnt : (settle s).cnt = s.cnt := rfl
@[simp] theorem settle_phase : (settle s).phase = s.phase := rfl
@[simp] theorem settle_carry : (settle s).carry = s.carry := rfl
@[simp] theorem settle_cur : (settle s).cur = s.cur := rfl
@[simp] theorem settle_scratch : (settle s).scratch = s.scratch := rfl
@[simp] theorem settle_fault : (settle s).fault = s.fault := rfl
@[simp] theorem settle_trace : (settle s).trace = s.trace ++ [.settled] := rfl
@[simp] theorem settle_mem : (settle s).mem = s.mem := rfl
@[simp] theorem settle_port : (settle s).port = s.port := rfl
@[simp] theorem settle_script : (settle s).script = s.script := rfl
@[simp] theorem settle_closes : (settle s).closes = s.closes := rfl
@[simp] theorem settle_closeNo : (settle s).closeNo = s.closeNo := rfl
@[simp] theorem settle_pulses : (settle s).pulses = s.pulses := rfl
@[simp] theorem settle_pulseNo : (settle s).pulseNo = s.pulseNo := rfl
@[simp] theorem settle_raced : (settle s).raced = s.raced := rfl
@[simp] theorem settle_raceNo : (settle s).raceNo = s.raceNo := rfl

/-! ### forgetAll -/

@[simp] theorem forgetAll_cfg : (forgetAll s).cfg = s.cfg := rfl
@[simp] theorem forgetAll_busy : (forgetAll s).busy = s.busy := rfl
@[simp] theorem forgetAll_result : (forgetAll s).result = s.result := rfl
@[simp] theorem forgetAll_colStart : (forgetAll s).colStart = none := rfl
@[simp] theorem forgetAll_colEnd : (forgetAll s).colEnd = none := rfl
@[simp] theorem forgetAll_rowStart : (forgetAll s).rowStart = none := rfl
@[simp] theorem forgetAll_rowEnd : (forgetAll s).rowEnd = none := rfl
@[simp] theorem forgetAll_req : (forgetAll s).req = s.req := rfl
@[simp] theorem forgetAll_seq : (forgetAll s).seq = s.seq := rfl
@[simp] theorem forgetAll_session : (forgetAll s).session = s.session := rfl
@[simp] theorem forgetAll_cnt : (forgetAll s).cnt = s.cnt := rfl
@[simp] theorem forgetAll_phase : (forgetAll s).phase = s.phase := rfl
@[simp] theorem forgetAll_carry : (forgetAll s).carry = s.carry := rfl
@[simp] theorem forgetAll_cur : (forgetAll s).cur = s.cur := rfl
@[simp] theorem forgetAll_scratch : (forgetAll s).scratch = s.scratch := rfl
@[simp] theorem forgetAll_fault : (forgetAll s).fault = s.fault := rfl
@[simp] theorem forgetAll_trace : (forgetAll s).trace = s.trace := rfl
@[simp] theorem forgetAll_mem : (forgetAll s).mem = s.mem := rfl
@[simp] theorem forgetAll_port : (forgetAll s).port = s.port := rfl
@[simp] theorem forgetAll_script : (forgetAll s).script = s.script := rfl
@[simp] theorem forgetAll_closes : (forgetAll s).closes = s.closes := rfl
@[simp] theorem forgetAll_closeNo : (forgetAll s).closeNo = s.closeNo := rfl
@[simp] theorem forgetAll_pulses : (forgetAll s).pulses = s.pulses := rfl
@[simp] theorem forgetAll_pulseNo : (forgetAll s).pulseNo = s.pulseNo := rfl
@[simp] theorem forgetAll_raced : (forgetAll s).raced = s.raced := rfl
@[simp] theorem forgetAll_raceNo : (forgetAll s).raceNo = s.raceNo := rfl

/-! ### finish -/

@[simp] theorem finish_cfg (st : Status) (illegal pulsed : Bool) : (finish st illegal pulsed s).cfg = s.cfg := rfl
@[simp] theorem finish_busy (st : Status) (illegal pulsed : Bool) : (finish st illegal pulsed s).busy = false := rfl
@[simp] theorem finish_result (st : Status) (illegal pulsed : Bool) : (finish st illegal pulsed s).result = resultWord st illegal pulsed := rfl
@[simp] theorem finish_colStart (st : Status) (illegal pulsed : Bool) : (finish st illegal pulsed s).colStart = s.colStart := rfl
@[simp] theorem finish_colEnd (st : Status) (illegal pulsed : Bool) : (finish st illegal pulsed s).colEnd = s.colEnd := rfl
@[simp] theorem finish_rowStart (st : Status) (illegal pulsed : Bool) : (finish st illegal pulsed s).rowStart = s.rowStart := rfl
@[simp] theorem finish_rowEnd (st : Status) (illegal pulsed : Bool) : (finish st illegal pulsed s).rowEnd = s.rowEnd := rfl
@[simp] theorem finish_req (st : Status) (illegal pulsed : Bool) : (finish st illegal pulsed s).req = s.req := rfl
@[simp] theorem finish_seq (st : Status) (illegal pulsed : Bool) : (finish st illegal pulsed s).seq = .idle := rfl
@[simp] theorem finish_session (st : Status) (illegal pulsed : Bool) : (finish st illegal pulsed s).session = s.session := rfl
@[simp] theorem finish_cnt (st : Status) (illegal pulsed : Bool) : (finish st illegal pulsed s).cnt = s.cnt := rfl
@[simp] theorem finish_phase (st : Status) (illegal pulsed : Bool) : (finish st illegal pulsed s).phase = s.phase := rfl
@[simp] theorem finish_carry (st : Status) (illegal pulsed : Bool) : (finish st illegal pulsed s).carry = s.carry := rfl
@[simp] theorem finish_cur (st : Status) (illegal pulsed : Bool) : (finish st illegal pulsed s).cur = s.cur := rfl
@[simp] theorem finish_scratch (st : Status) (illegal pulsed : Bool) : (finish st illegal pulsed s).scratch = s.scratch := rfl
@[simp] theorem finish_fault (st : Status) (illegal pulsed : Bool) : (finish st illegal pulsed s).fault = s.fault := rfl
@[simp] theorem finish_trace (st : Status) (illegal pulsed : Bool) : (finish st illegal pulsed s).trace = s.trace := rfl
@[simp] theorem finish_mem (st : Status) (illegal pulsed : Bool) : (finish st illegal pulsed s).mem = s.mem := rfl
@[simp] theorem finish_port (st : Status) (illegal pulsed : Bool) : (finish st illegal pulsed s).port = s.port := rfl
@[simp] theorem finish_script (st : Status) (illegal pulsed : Bool) : (finish st illegal pulsed s).script = s.script := rfl
@[simp] theorem finish_closes (st : Status) (illegal pulsed : Bool) : (finish st illegal pulsed s).closes = s.closes := rfl
@[simp] theorem finish_closeNo (st : Status) (illegal pulsed : Bool) : (finish st illegal pulsed s).closeNo = s.closeNo := rfl
@[simp] theorem finish_pulses (st : Status) (illegal pulsed : Bool) : (finish st illegal pulsed s).pulses = s.pulses := rfl
@[simp] theorem finish_pulseNo (st : Status) (illegal pulsed : Bool) : (finish st illegal pulsed s).pulseNo = s.pulseNo := rfl
@[simp] theorem finish_raced (st : Status) (illegal pulsed : Bool) : (finish st illegal pulsed s).raced = s.raced := rfl
@[simp] theorem finish_raceNo (st : Status) (illegal pulsed : Bool) : (finish st illegal pulsed s).raceNo = s.raceNo := rfl

/-! ### goto -/

@[simp] theorem goto_cfg (op : Op) (pos : Pos) : (goto op pos s).cfg = s.cfg := rfl
@[simp] theorem goto_busy (op : Op) (pos : Pos) : (goto op pos s).busy = s.busy := rfl
@[simp] theorem goto_result (op : Op) (pos : Pos) : (goto op pos s).result = s.result := rfl
@[simp] theorem goto_colStart (op : Op) (pos : Pos) : (goto op pos s).colStart = s.colStart := rfl
@[simp] theorem goto_colEnd (op : Op) (pos : Pos) : (goto op pos s).colEnd = s.colEnd := rfl
@[simp] theorem goto_rowStart (op : Op) (pos : Pos) : (goto op pos s).rowStart = s.rowStart := rfl
@[simp] theorem goto_rowEnd (op : Op) (pos : Pos) : (goto op pos s).rowEnd = s.rowEnd := rfl
@[simp] theorem goto_req (op : Op) (pos : Pos) : (goto op pos s).req = s.req := rfl
@[simp] theorem goto_seq (op : Op) (pos : Pos) : (goto op pos s).seq = .run op pos := rfl
@[simp] theorem goto_session (op : Op) (pos : Pos) : (goto op pos s).session = s.session := rfl
@[simp] theorem goto_cnt (op : Op) (pos : Pos) : (goto op pos s).cnt = s.cnt := rfl
@[simp] theorem goto_phase (op : Op) (pos : Pos) : (goto op pos s).phase = s.phase := rfl
@[simp] theorem goto_carry (op : Op) (pos : Pos) : (goto op pos s).carry = s.carry := rfl
@[simp] theorem goto_cur (op : Op) (pos : Pos) : (goto op pos s).cur = s.cur := rfl
@[simp] theorem goto_scratch (op : Op) (pos : Pos) : (goto op pos s).scratch = s.scratch := rfl
@[simp] theorem goto_fault (op : Op) (pos : Pos) : (goto op pos s).fault = s.fault := rfl
@[simp] theorem goto_trace (op : Op) (pos : Pos) : (goto op pos s).trace = s.trace := rfl
@[simp] theorem goto_mem (op : Op) (pos : Pos) : (goto op pos s).mem = s.mem := rfl
@[simp] theorem goto_port (op : Op) (pos : Pos) : (goto op pos s).port = s.port := rfl
@[simp] theorem goto_script (op : Op) (pos : Pos) : (goto op pos s).script = s.script := rfl
@[simp] theorem goto_closes (op : Op) (pos : Pos) : (goto op pos s).closes = s.closes := rfl
@[simp] theorem goto_closeNo (op : Op) (pos : Pos) : (goto op pos s).closeNo = s.closeNo := rfl
@[simp] theorem goto_pulses (op : Op) (pos : Pos) : (goto op pos s).pulses = s.pulses := rfl
@[simp] theorem goto_pulseNo (op : Op) (pos : Pos) : (goto op pos s).pulseNo = s.pulseNo := rfl
@[simp] theorem goto_raced (op : Op) (pos : Pos) : (goto op pos s).raced = s.raced := rfl
@[simp] theorem goto_raceNo (op : Op) (pos : Pos) : (goto op pos s).raceNo = s.raceNo := rfl

/-! ### loadEvenRow -/

@[simp] theorem loadEvenRow_cfg (row : List Byte) : (loadEvenRow row s).cfg = s.cfg := rfl
@[simp] theorem loadEvenRow_busy (row : List Byte) : (loadEvenRow row s).busy = s.busy := rfl
@[simp] theorem loadEvenRow_result (row : List Byte) : (loadEvenRow row s).result = s.result := rfl
@[simp] theorem loadEvenRow_colStart (row : List Byte) : (loadEvenRow row s).colStart = s.colStart := rfl
@[simp] theorem loadEvenRow_colEnd (row : List Byte) : (loadEvenRow row s).colEnd = s.colEnd := rfl
@[simp] theorem loadEvenRow_rowStart (row : List Byte) : (loadEvenRow row s).rowStart = s.rowStart := rfl
@[simp] theorem loadEvenRow_rowEnd (row : List Byte) : (loadEvenRow row s).rowEnd = s.rowEnd := rfl
@[simp] theorem loadEvenRow_req (row : List Byte) : (loadEvenRow row s).req = s.req := rfl
@[simp] theorem loadEvenRow_seq (row : List Byte) : (loadEvenRow row s).seq = s.seq := rfl
@[simp] theorem loadEvenRow_session (row : List Byte) : (loadEvenRow row s).session = s.session := rfl
@[simp] theorem loadEvenRow_cnt (row : List Byte) : (loadEvenRow row s).cnt = s.cnt := rfl
@[simp] theorem loadEvenRow_phase (row : List Byte) : (loadEvenRow row s).phase = s.phase := rfl
@[simp] theorem loadEvenRow_carry (row : List Byte) : (loadEvenRow row s).carry = carryOf row := rfl
@[simp] theorem loadEvenRow_cur (row : List Byte) : (loadEvenRow row s).cur = s.cur := rfl
@[simp] theorem loadEvenRow_scratch (row : List Byte) : (loadEvenRow row s).scratch = clearLastLow row := rfl
@[simp] theorem loadEvenRow_fault (row : List Byte) : (loadEvenRow row s).fault = s.fault := rfl
@[simp] theorem loadEvenRow_trace (row : List Byte) : (loadEvenRow row s).trace = s.trace := rfl
@[simp] theorem loadEvenRow_mem (row : List Byte) : (loadEvenRow row s).mem = s.mem := rfl
@[simp] theorem loadEvenRow_port (row : List Byte) : (loadEvenRow row s).port = s.port := rfl
@[simp] theorem loadEvenRow_script (row : List Byte) : (loadEvenRow row s).script = s.script := rfl
@[simp] theorem loadEvenRow_closes (row : List Byte) : (loadEvenRow row s).closes = s.closes := rfl
@[simp] theorem loadEvenRow_closeNo (row : List Byte) : (loadEvenRow row s).closeNo = s.closeNo := rfl
@[simp] theorem loadEvenRow_pulses (row : List Byte) : (loadEvenRow row s).pulses = s.pulses := rfl
@[simp] theorem loadEvenRow_pulseNo (row : List Byte) : (loadEvenRow row s).pulseNo = s.pulseNo := rfl
@[simp] theorem loadEvenRow_raced (row : List Byte) : (loadEvenRow row s).raced = s.raced := rfl
@[simp] theorem loadEvenRow_raceNo (row : List Byte) : (loadEvenRow row s).raceNo = s.raceNo := rfl

/-! ### loadOddRow -/

@[simp] theorem loadOddRow_cfg (fresh : List Byte) : (loadOddRow fresh s).cfg = s.cfg := rfl
@[simp] theorem loadOddRow_busy (fresh : List Byte) : (loadOddRow fresh s).busy = s.busy := rfl
@[simp] theorem loadOddRow_result (fresh : List Byte) : (loadOddRow fresh s).result = s.result := rfl
@[simp] theorem loadOddRow_colStart (fresh : List Byte) : (loadOddRow fresh s).colStart = s.colStart := rfl
@[simp] theorem loadOddRow_colEnd (fresh : List Byte) : (loadOddRow fresh s).colEnd = s.colEnd := rfl
@[simp] theorem loadOddRow_rowStart (fresh : List Byte) : (loadOddRow fresh s).rowStart = s.rowStart := rfl
@[simp] theorem loadOddRow_rowEnd (fresh : List Byte) : (loadOddRow fresh s).rowEnd = s.rowEnd := rfl
@[simp] theorem loadOddRow_req (fresh : List Byte) : (loadOddRow fresh s).req = s.req := rfl
@[simp] theorem loadOddRow_seq (fresh : List Byte) : (loadOddRow fresh s).seq = s.seq := rfl
@[simp] theorem loadOddRow_session (fresh : List Byte) : (loadOddRow fresh s).session = s.session := rfl
@[simp] theorem loadOddRow_cnt (fresh : List Byte) : (loadOddRow fresh s).cnt = s.cnt := rfl
@[simp] theorem loadOddRow_phase (fresh : List Byte) : (loadOddRow fresh s).phase = s.phase := rfl
@[simp] theorem loadOddRow_carry (fresh : List Byte) : (loadOddRow fresh s).carry = s.carry := rfl
@[simp] theorem loadOddRow_cur (fresh : List Byte) : (loadOddRow fresh s).cur = s.cur := rfl
@[simp] theorem loadOddRow_scratch (fresh : List Byte) : (loadOddRow fresh s).scratch = fuseNibbles (s.carry :: fresh) := rfl
@[simp] theorem loadOddRow_fault (fresh : List Byte) : (loadOddRow fresh s).fault = s.fault := rfl
@[simp] theorem loadOddRow_trace (fresh : List Byte) : (loadOddRow fresh s).trace = s.trace := rfl
@[simp] theorem loadOddRow_mem (fresh : List Byte) : (loadOddRow fresh s).mem = s.mem := rfl
@[simp] theorem loadOddRow_port (fresh : List Byte) : (loadOddRow fresh s).port = s.port := rfl
@[simp] theorem loadOddRow_script (fresh : List Byte) : (loadOddRow fresh s).script = s.script := rfl
@[simp] theorem loadOddRow_closes (fresh : List Byte) : (loadOddRow fresh s).closes = s.closes := rfl
@[simp] theorem loadOddRow_closeNo (fresh : List Byte) : (loadOddRow fresh s).closeNo = s.closeNo := rfl
@[simp] theorem loadOddRow_pulses (fresh : List Byte) : (loadOddRow fresh s).pulses = s.pulses := rfl
@[simp] theorem loadOddRow_pulseNo (fresh : List Byte) : (loadOddRow fresh s).pulseNo = s.pulseNo := rfl
@[simp] theorem loadOddRow_raced (fresh : List Byte) : (loadOddRow fresh s).raced = s.raced := rfl
@[simp] theorem loadOddRow_raceNo (fresh : List Byte) : (loadOddRow fresh s).raceNo = s.raceNo := rfl

/-! ### loadTerminalRow -/

@[simp] theorem loadTerminalRow_cfg (row : List Byte) : (loadTerminalRow row s).cfg = s.cfg := rfl
@[simp] theorem loadTerminalRow_busy (row : List Byte) : (loadTerminalRow row s).busy = s.busy := rfl
@[simp] theorem loadTerminalRow_result (row : List Byte) : (loadTerminalRow row s).result = s.result := rfl
@[simp] theorem loadTerminalRow_colStart (row : List Byte) : (loadTerminalRow row s).colStart = s.colStart := rfl
@[simp] theorem loadTerminalRow_colEnd (row : List Byte) : (loadTerminalRow row s).colEnd = s.colEnd := rfl
@[simp] theorem loadTerminalRow_rowStart (row : List Byte) : (loadTerminalRow row s).rowStart = s.rowStart := rfl
@[simp] theorem loadTerminalRow_rowEnd (row : List Byte) : (loadTerminalRow row s).rowEnd = s.rowEnd := rfl
@[simp] theorem loadTerminalRow_req (row : List Byte) : (loadTerminalRow row s).req = s.req := rfl
@[simp] theorem loadTerminalRow_seq (row : List Byte) : (loadTerminalRow row s).seq = s.seq := rfl
@[simp] theorem loadTerminalRow_session (row : List Byte) : (loadTerminalRow row s).session = s.session := rfl
@[simp] theorem loadTerminalRow_cnt (row : List Byte) : (loadTerminalRow row s).cnt = s.cnt := rfl
@[simp] theorem loadTerminalRow_phase (row : List Byte) : (loadTerminalRow row s).phase = s.phase := rfl
@[simp] theorem loadTerminalRow_carry (row : List Byte) : (loadTerminalRow row s).carry = s.carry := rfl
@[simp] theorem loadTerminalRow_cur (row : List Byte) : (loadTerminalRow row s).cur = s.cur := rfl
@[simp] theorem loadTerminalRow_scratch (row : List Byte) : (loadTerminalRow row s).scratch = clearLastLow row := rfl
@[simp] theorem loadTerminalRow_fault (row : List Byte) : (loadTerminalRow row s).fault = s.fault := rfl
@[simp] theorem loadTerminalRow_trace (row : List Byte) : (loadTerminalRow row s).trace = s.trace := rfl
@[simp] theorem loadTerminalRow_mem (row : List Byte) : (loadTerminalRow row s).mem = s.mem := rfl
@[simp] theorem loadTerminalRow_port (row : List Byte) : (loadTerminalRow row s).port = s.port := rfl
@[simp] theorem loadTerminalRow_script (row : List Byte) : (loadTerminalRow row s).script = s.script := rfl
@[simp] theorem loadTerminalRow_closes (row : List Byte) : (loadTerminalRow row s).closes = s.closes := rfl
@[simp] theorem loadTerminalRow_closeNo (row : List Byte) : (loadTerminalRow row s).closeNo = s.closeNo := rfl
@[simp] theorem loadTerminalRow_pulses (row : List Byte) : (loadTerminalRow row s).pulses = s.pulses := rfl
@[simp] theorem loadTerminalRow_pulseNo (row : List Byte) : (loadTerminalRow row s).pulseNo = s.pulseNo := rfl
@[simp] theorem loadTerminalRow_raced (row : List Byte) : (loadTerminalRow row s).raced = s.raced := rfl
@[simp] theorem loadTerminalRow_raceNo (row : List Byte) : (loadTerminalRow row s).raceNo = s.raceNo := rfl

/-! ### afterEvenRow -/

@[simp] theorem afterEvenRow_cfg (b : Nat) : (afterEvenRow b s).cfg = s.cfg := rfl
@[simp] theorem afterEvenRow_busy (b : Nat) : (afterEvenRow b s).busy = s.busy := rfl
@[simp] theorem afterEvenRow_result (b : Nat) : (afterEvenRow b s).result = s.result := rfl
@[simp] theorem afterEvenRow_colStart (b : Nat) : (afterEvenRow b s).colStart = s.colStart := rfl
@[simp] theorem afterEvenRow_colEnd (b : Nat) : (afterEvenRow b s).colEnd = s.colEnd := rfl
@[simp] theorem afterEvenRow_rowStart (b : Nat) : (afterEvenRow b s).rowStart = s.rowStart := rfl
@[simp] theorem afterEvenRow_rowEnd (b : Nat) : (afterEvenRow b s).rowEnd = s.rowEnd := rfl
@[simp] theorem afterEvenRow_req (b : Nat) : (afterEvenRow b s).req = s.req := rfl
@[simp] theorem afterEvenRow_seq (b : Nat) : (afterEvenRow b s).seq = s.seq := rfl
@[simp] theorem afterEvenRow_session (b : Nat) : (afterEvenRow b s).session = s.session := rfl
@[simp] theorem afterEvenRow_cnt (b : Nat) : (afterEvenRow b s).cnt = s.cnt := rfl
@[simp] theorem afterEvenRow_phase (b : Nat) : (afterEvenRow b s).phase = .odd := rfl
@[simp] theorem afterEvenRow_carry (b : Nat) : (afterEvenRow b s).carry = s.carry := rfl
@[simp] theorem afterEvenRow_cur (b : Nat) : (afterEvenRow b s).cur = s.cur + b := rfl
@[simp] theorem afterEvenRow_scratch (b : Nat) : (afterEvenRow b s).scratch = s.scratch := rfl
@[simp] theorem afterEvenRow_fault (b : Nat) : (afterEvenRow b s).fault = s.fault := rfl
@[simp] theorem afterEvenRow_trace (b : Nat) : (afterEvenRow b s).trace = s.trace := rfl
@[simp] theorem afterEvenRow_mem (b : Nat) : (afterEvenRow b s).mem = s.mem := rfl
@[simp] theorem afterEvenRow_port (b : Nat) : (afterEvenRow b s).port = s.port := rfl
@[simp] theorem afterEvenRow_script (b : Nat) : (afterEvenRow b s).script = s.script := rfl
@[simp] theorem afterEvenRow_closes (b : Nat) : (afterEvenRow b s).closes = s.closes := rfl
@[simp] theorem afterEvenRow_closeNo (b : Nat) : (afterEvenRow b s).closeNo = s.closeNo := rfl
@[simp] theorem afterEvenRow_pulses (b : Nat) : (afterEvenRow b s).pulses = s.pulses := rfl
@[simp] theorem afterEvenRow_pulseNo (b : Nat) : (afterEvenRow b s).pulseNo = s.pulseNo := rfl
@[simp] theorem afterEvenRow_raced (b : Nat) : (afterEvenRow b s).raced = s.raced := rfl
@[simp] theorem afterEvenRow_raceNo (b : Nat) : (afterEvenRow b s).raceNo = s.raceNo := rfl

/-! ### afterOddRow -/

@[simp] theorem afterOddRow_cfg (b : Nat) : (afterOddRow b s).cfg = s.cfg := rfl
@[simp] theorem afterOddRow_busy (b : Nat) : (afterOddRow b s).busy = s.busy := rfl
@[simp] theorem afterOddRow_result (b : Nat) : (afterOddRow b s).result = s.result := rfl
@[simp] theorem afterOddRow_colStart (b : Nat) : (afterOddRow b s).colStart = s.colStart := rfl
@[simp] theorem afterOddRow_colEnd (b : Nat) : (afterOddRow b s).colEnd = s.colEnd := rfl
@[simp] theorem afterOddRow_rowStart (b : Nat) : (afterOddRow b s).rowStart = s.rowStart := rfl
@[simp] theorem afterOddRow_rowEnd (b : Nat) : (afterOddRow b s).rowEnd = s.rowEnd := rfl
@[simp] theorem afterOddRow_req (b : Nat) : (afterOddRow b s).req = s.req := rfl
@[simp] theorem afterOddRow_seq (b : Nat) : (afterOddRow b s).seq = s.seq := rfl
@[simp] theorem afterOddRow_session (b : Nat) : (afterOddRow b s).session = s.session := rfl
@[simp] theorem afterOddRow_cnt (b : Nat) : (afterOddRow b s).cnt = s.cnt := rfl
@[simp] theorem afterOddRow_phase (b : Nat) : (afterOddRow b s).phase = .even := rfl
@[simp] theorem afterOddRow_carry (b : Nat) : (afterOddRow b s).carry = s.carry := rfl
@[simp] theorem afterOddRow_cur (b : Nat) : (afterOddRow b s).cur = s.cur + (b - 1) := rfl
@[simp] theorem afterOddRow_scratch (b : Nat) : (afterOddRow b s).scratch = s.scratch := rfl
@[simp] theorem afterOddRow_fault (b : Nat) : (afterOddRow b s).fault = s.fault := rfl
@[simp] theorem afterOddRow_trace (b : Nat) : (afterOddRow b s).trace = s.trace := rfl
@[simp] theorem afterOddRow_mem (b : Nat) : (afterOddRow b s).mem = s.mem := rfl
@[simp] theorem afterOddRow_port (b : Nat) : (afterOddRow b s).port = s.port := rfl
@[simp] theorem afterOddRow_script (b : Nat) : (afterOddRow b s).script = s.script := rfl
@[simp] theorem afterOddRow_closes (b : Nat) : (afterOddRow b s).closes = s.closes := rfl
@[simp] theorem afterOddRow_closeNo (b : Nat) : (afterOddRow b s).closeNo = s.closeNo := rfl
@[simp] theorem afterOddRow_pulses (b : Nat) : (afterOddRow b s).pulses = s.pulses := rfl
@[simp] theorem afterOddRow_pulseNo (b : Nat) : (afterOddRow b s).pulseNo = s.pulseNo := rfl
@[simp] theorem afterOddRow_raced (b : Nat) : (afterOddRow b s).raced = s.raced := rfl
@[simp] theorem afterOddRow_raceNo (b : Nat) : (afterOddRow b s).raceNo = s.raceNo := rfl

/-! ### startPack -/

@[simp] theorem startPack_cfg : (startPack s).cfg = s.cfg := rfl
@[simp] theorem startPack_busy : (startPack s).busy = s.busy := rfl
@[simp] theorem startPack_result : (startPack s).result = s.result := rfl
@[simp] theorem startPack_colStart : (startPack s).colStart = s.colStart := rfl
@[simp] theorem startPack_colEnd : (startPack s).colEnd = s.colEnd := rfl
@[simp] theorem startPack_rowStart : (startPack s).rowStart = s.rowStart := rfl
@[simp] theorem startPack_rowEnd : (startPack s).rowEnd = s.rowEnd := rfl
@[simp] theorem startPack_req : (startPack s).req = s.req := rfl
@[simp] theorem startPack_seq : (startPack s).seq = s.seq := rfl
@[simp] theorem startPack_session : (startPack s).session = s.session := rfl
@[simp] theorem startPack_cnt : (startPack s).cnt = s.cnt := rfl
@[simp] theorem startPack_phase : (startPack s).phase = .even := rfl
@[simp] theorem startPack_carry : (startPack s).carry = 0x00 := rfl
@[simp] theorem startPack_cur : (startPack s).cur = 0 := rfl
@[simp] theorem startPack_scratch : (startPack s).scratch = s.scratch := rfl
@[simp] theorem startPack_fault : (startPack s).fault = s.fault := rfl
@[simp] theorem startPack_trace : (startPack s).trace = s.trace := rfl
@[simp] theorem startPack_mem : (startPack s).mem = s.mem := rfl
@[simp] theorem startPack_port : (startPack s).port = s.port := rfl
@[simp] theorem startPack_script : (startPack s).script = s.script := rfl
@[simp] theorem startPack_closes : (startPack s).closes = s.closes := rfl
@[simp] theorem startPack_closeNo : (startPack s).closeNo = s.closeNo := rfl
@[simp] theorem startPack_pulses : (startPack s).pulses = s.pulses := rfl
@[simp] theorem startPack_pulseNo : (startPack s).pulseNo = s.pulseNo := rfl
@[simp] theorem startPack_raced : (startPack s).raced = s.raced := rfl
@[simp] theorem startPack_raceNo : (startPack s).raceNo = s.raceNo := rfl

/-! ### openData -/

@[simp] theorem openData_cfg : (openData s).cfg = s.cfg := rfl
@[simp] theorem openData_busy : (openData s).busy = s.busy := rfl
@[simp] theorem openData_result : (openData s).result = s.result := rfl
@[simp] theorem openData_colStart : (openData s).colStart = s.colStart := rfl
@[simp] theorem openData_colEnd : (openData s).colEnd = s.colEnd := rfl
@[simp] theorem openData_rowStart : (openData s).rowStart = s.rowStart := rfl
@[simp] theorem openData_rowEnd : (openData s).rowEnd = s.rowEnd := rfl
@[simp] theorem openData_req : (openData s).req = s.req := rfl
@[simp] theorem openData_seq : (openData s).seq = s.seq := rfl
@[simp] theorem openData_session : (openData s).session = .opened .data := rfl
@[simp] theorem openData_cnt : (openData s).cnt = 0 := rfl
@[simp] theorem openData_phase : (openData s).phase = s.phase := rfl
@[simp] theorem openData_carry : (openData s).carry = s.carry := rfl
@[simp] theorem openData_cur : (openData s).cur = s.cur := rfl
@[simp] theorem openData_scratch : (openData s).scratch = s.scratch := rfl
@[simp] theorem openData_fault : (openData s).fault = s.fault := rfl
@[simp] theorem openData_trace : (openData s).trace = s.trace ++ [.opened .data, .wrote s.cfg.ctrlData] := by simp [openData]
@[simp] theorem openData_mem : (openData s).mem = s.mem := rfl
@[simp] theorem openData_port : (openData s).port = s.port := rfl
@[simp] theorem openData_script : (openData s).script = s.script := rfl
@[simp] theorem openData_closes : (openData s).closes = s.closes := rfl
@[simp] theorem openData_closeNo : (openData s).closeNo = s.closeNo := rfl
@[simp] theorem openData_pulses : (openData s).pulses = s.pulses := rfl
@[simp] theorem openData_pulseNo : (openData s).pulseNo = s.pulseNo := rfl
@[simp] theorem openData_raced : (openData s).raced = s.raced := rfl
@[simp] theorem openData_raceNo : (openData s).raceNo = s.raceNo := rfl

/-! ### updateCols -/

@[simp] theorem updateCols_cfg (start stop : BitVec 6) (st : Status) : (updateCols start stop st s).cfg = s.cfg := by
  unfold updateCols; split <;> rfl
@[simp] theorem updateCols_busy (start stop : BitVec 6) (st : Status) : (updateCols start stop st s).busy = s.busy := by
  unfold updateCols; split <;> rfl
@[simp] theorem updateCols_result (start stop : BitVec 6) (st : Status) : (updateCols start stop st s).result = s.result := by
  unfold updateCols; split <;> rfl
@[simp] theorem updateCols_colStart (start stop : BitVec 6) (st : Status) : (updateCols start stop st s).colStart = if st = 0 then some start else none := by
  unfold updateCols; split <;> rfl
@[simp] theorem updateCols_colEnd (start stop : BitVec 6) (st : Status) : (updateCols start stop st s).colEnd = if st = 0 then some stop else none := by
  unfold updateCols; split <;> rfl
@[simp] theorem updateCols_rowStart (start stop : BitVec 6) (st : Status) : (updateCols start stop st s).rowStart = s.rowStart := by
  unfold updateCols; split <;> rfl
@[simp] theorem updateCols_rowEnd (start stop : BitVec 6) (st : Status) : (updateCols start stop st s).rowEnd = s.rowEnd := by
  unfold updateCols; split <;> rfl
@[simp] theorem updateCols_req (start stop : BitVec 6) (st : Status) : (updateCols start stop st s).req = s.req := by
  unfold updateCols; split <;> rfl
@[simp] theorem updateCols_seq (start stop : BitVec 6) (st : Status) : (updateCols start stop st s).seq = s.seq := by
  unfold updateCols; split <;> rfl
@[simp] theorem updateCols_session (start stop : BitVec 6) (st : Status) : (updateCols start stop st s).session = s.session := by
  unfold updateCols; split <;> rfl
@[simp] theorem updateCols_cnt (start stop : BitVec 6) (st : Status) : (updateCols start stop st s).cnt = s.cnt := by
  unfold updateCols; split <;> rfl
@[simp] theorem updateCols_phase (start stop : BitVec 6) (st : Status) : (updateCols start stop st s).phase = s.phase := by
  unfold updateCols; split <;> rfl
@[simp] theorem updateCols_carry (start stop : BitVec 6) (st : Status) : (updateCols start stop st s).carry = s.carry := by
  unfold updateCols; split <;> rfl
@[simp] theorem updateCols_cur (start stop : BitVec 6) (st : Status) : (updateCols start stop st s).cur = s.cur := by
  unfold updateCols; split <;> rfl
@[simp] theorem updateCols_scratch (start stop : BitVec 6) (st : Status) : (updateCols start stop st s).scratch = s.scratch := by
  unfold updateCols; split <;> rfl
@[simp] theorem updateCols_fault (start stop : BitVec 6) (st : Status) : (updateCols start stop st s).fault = s.fault := by
  unfold updateCols; split <;> rfl
@[simp] theorem updateCols_trace (start stop : BitVec 6) (st : Status) : (updateCols start stop st s).trace = s.trace := by
  unfold updateCols; split <;> rfl
@[simp] theorem updateCols_mem (start stop : BitVec 6) (st : Status) : (updateCols start stop st s).mem = s.mem := by
  unfold updateCols; split <;> rfl
@[simp] theorem updateCols_port (start stop : BitVec 6) (st : Status) : (updateCols start stop st s).port = s.port := by
  unfold updateCols; split <;> rfl
@[simp] theorem updateCols_script (start stop : BitVec 6) (st : Status) : (updateCols start stop st s).script = s.script := by
  unfold updateCols; split <;> rfl
@[simp] theorem updateCols_closes (start stop : BitVec 6) (st : Status) : (updateCols start stop st s).closes = s.closes := by
  unfold updateCols; split <;> rfl
@[simp] theorem updateCols_closeNo (start stop : BitVec 6) (st : Status) : (updateCols start stop st s).closeNo = s.closeNo := by
  unfold updateCols; split <;> rfl
@[simp] theorem updateCols_pulses (start stop : BitVec 6) (st : Status) : (updateCols start stop st s).pulses = s.pulses := by
  unfold updateCols; split <;> rfl
@[simp] theorem updateCols_pulseNo (start stop : BitVec 6) (st : Status) : (updateCols start stop st s).pulseNo = s.pulseNo := by
  unfold updateCols; split <;> rfl
@[simp] theorem updateCols_raced (start stop : BitVec 6) (st : Status) : (updateCols start stop st s).raced = s.raced := by
  unfold updateCols; split <;> rfl
@[simp] theorem updateCols_raceNo (start stop : BitVec 6) (st : Status) : (updateCols start stop st s).raceNo = s.raceNo := by
  unfold updateCols; split <;> rfl

/-! ### updateRows -/

@[simp] theorem updateRows_cfg (start stop : BitVec 7) (st : Status) : (updateRows start stop st s).cfg = s.cfg := by
  unfold updateRows; split <;> rfl
@[simp] theorem updateRows_busy (start stop : BitVec 7) (st : Status) : (updateRows start stop st s).busy = s.busy := by
  unfold updateRows; split <;> rfl
@[simp] theorem updateRows_result (start stop : BitVec 7) (st : Status) : (updateRows start stop st s).result = s.result := by
  unfold updateRows; split <;> rfl
@[simp] theorem updateRows_colStart (start stop : BitVec 7) (st : Status) : (updateRows start stop st s).colStart = s.colStart := by
  unfold updateRows; split <;> rfl
@[simp] theorem updateRows_colEnd (start stop : BitVec 7) (st : Status) : (updateRows start stop st s).colEnd = s.colEnd := by
  unfold updateRows; split <;> rfl
@[simp] theorem updateRows_rowStart (start stop : BitVec 7) (st : Status) : (updateRows start stop st s).rowStart = if st = 0 then some start else none := by
  unfold updateRows; split <;> rfl
@[simp] theorem updateRows_rowEnd (start stop : BitVec 7) (st : Status) : (updateRows start stop st s).rowEnd = if st = 0 then some stop else none := by
  unfold updateRows; split <;> rfl
@[simp] theorem updateRows_req (start stop : BitVec 7) (st : Status) : (updateRows start stop st s).req = s.req := by
  unfold updateRows; split <;> rfl
@[simp] theorem updateRows_seq (start stop : BitVec 7) (st : Status) : (updateRows start stop st s).seq = s.seq := by
  unfold updateRows; split <;> rfl
@[simp] theorem updateRows_session (start stop : BitVec 7) (st : Status) : (updateRows start stop st s).session = s.session := by
  unfold updateRows; split <;> rfl
@[simp] theorem updateRows_cnt (start stop : BitVec 7) (st : Status) : (updateRows start stop st s).cnt = s.cnt := by
  unfold updateRows; split <;> rfl
@[simp] theorem updateRows_phase (start stop : BitVec 7) (st : Status) : (updateRows start stop st s).phase = s.phase := by
  unfold updateRows; split <;> rfl
@[simp] theorem updateRows_carry (start stop : BitVec 7) (st : Status) : (updateRows start stop st s).carry = s.carry := by
  unfold updateRows; split <;> rfl
@[simp] theorem updateRows_cur (start stop : BitVec 7) (st : Status) : (updateRows start stop st s).cur = s.cur := by
  unfold updateRows; split <;> rfl
@[simp] theorem updateRows_scratch (start stop : BitVec 7) (st : Status) : (updateRows start stop st s).scratch = s.scratch := by
  unfold updateRows; split <;> rfl
@[simp] theorem updateRows_fault (start stop : BitVec 7) (st : Status) : (updateRows start stop st s).fault = s.fault := by
  unfold updateRows; split <;> rfl
@[simp] theorem updateRows_trace (start stop : BitVec 7) (st : Status) : (updateRows start stop st s).trace = s.trace := by
  unfold updateRows; split <;> rfl
@[simp] theorem updateRows_mem (start stop : BitVec 7) (st : Status) : (updateRows start stop st s).mem = s.mem := by
  unfold updateRows; split <;> rfl
@[simp] theorem updateRows_port (start stop : BitVec 7) (st : Status) : (updateRows start stop st s).port = s.port := by
  unfold updateRows; split <;> rfl
@[simp] theorem updateRows_script (start stop : BitVec 7) (st : Status) : (updateRows start stop st s).script = s.script := by
  unfold updateRows; split <;> rfl
@[simp] theorem updateRows_closes (start stop : BitVec 7) (st : Status) : (updateRows start stop st s).closes = s.closes := by
  unfold updateRows; split <;> rfl
@[simp] theorem updateRows_closeNo (start stop : BitVec 7) (st : Status) : (updateRows start stop st s).closeNo = s.closeNo := by
  unfold updateRows; split <;> rfl
@[simp] theorem updateRows_pulses (start stop : BitVec 7) (st : Status) : (updateRows start stop st s).pulses = s.pulses := by
  unfold updateRows; split <;> rfl
@[simp] theorem updateRows_pulseNo (start stop : BitVec 7) (st : Status) : (updateRows start stop st s).pulseNo = s.pulseNo := by
  unfold updateRows; split <;> rfl
@[simp] theorem updateRows_raced (start stop : BitVec 7) (st : Status) : (updateRows start stop st s).raced = s.raced := by
  unfold updateRows; split <;> rfl
@[simp] theorem updateRows_raceNo (start stop : BitVec 7) (st : Status) : (updateRows start stop st s).raceNo = s.raceNo := by
  unfold updateRows; split <;> rfl

/-! ### forgetWindow -/

@[simp] theorem forgetWindow_cfg (op : Byte) : (forgetWindow op s).cfg = s.cfg := rfl
@[simp] theorem forgetWindow_busy (op : Byte) : (forgetWindow op s).busy = s.busy := rfl
@[simp] theorem forgetWindow_result (op : Byte) : (forgetWindow op s).result = s.result := rfl
@[simp] theorem forgetWindow_colStart (op : Byte) : (forgetWindow op s).colStart = if op = s.cfg.opSetColumn then none else s.colStart := rfl
@[simp] theorem forgetWindow_colEnd (op : Byte) : (forgetWindow op s).colEnd = if op = s.cfg.opSetColumn then none else s.colEnd := rfl
@[simp] theorem forgetWindow_rowStart (op : Byte) : (forgetWindow op s).rowStart = if op = s.cfg.opSetRow then none else s.rowStart := rfl
@[simp] theorem forgetWindow_rowEnd (op : Byte) : (forgetWindow op s).rowEnd = if op = s.cfg.opSetRow then none else s.rowEnd := rfl
@[simp] theorem forgetWindow_req (op : Byte) : (forgetWindow op s).req = s.req := rfl
@[simp] theorem forgetWindow_seq (op : Byte) : (forgetWindow op s).seq = s.seq := rfl
@[simp] theorem forgetWindow_session (op : Byte) : (forgetWindow op s).session = s.session := rfl
@[simp] theorem forgetWindow_cnt (op : Byte) : (forgetWindow op s).cnt = s.cnt := rfl
@[simp] theorem forgetWindow_phase (op : Byte) : (forgetWindow op s).phase = s.phase := rfl
@[simp] theorem forgetWindow_carry (op : Byte) : (forgetWindow op s).carry = s.carry := rfl
@[simp] theorem forgetWindow_cur (op : Byte) : (forgetWindow op s).cur = s.cur := rfl
@[simp] theorem forgetWindow_scratch (op : Byte) : (forgetWindow op s).scratch = s.scratch := rfl
@[simp] theorem forgetWindow_fault (op : Byte) : (forgetWindow op s).fault = s.fault := rfl
@[simp] theorem forgetWindow_trace (op : Byte) : (forgetWindow op s).trace = s.trace := rfl
@[simp] theorem forgetWindow_mem (op : Byte) : (forgetWindow op s).mem = s.mem := rfl
@[simp] theorem forgetWindow_port (op : Byte) : (forgetWindow op s).port = s.port := rfl
@[simp] theorem forgetWindow_script (op : Byte) : (forgetWindow op s).script = s.script := rfl
@[simp] theorem forgetWindow_closes (op : Byte) : (forgetWindow op s).closes = s.closes := rfl
@[simp] theorem forgetWindow_closeNo (op : Byte) : (forgetWindow op s).closeNo = s.closeNo := rfl
@[simp] theorem forgetWindow_pulses (op : Byte) : (forgetWindow op s).pulses = s.pulses := rfl
@[simp] theorem forgetWindow_pulseNo (op : Byte) : (forgetWindow op s).pulseNo = s.pulseNo := rfl
@[simp] theorem forgetWindow_raced (op : Byte) : (forgetWindow op s).raced = s.raced := rfl
@[simp] theorem forgetWindow_raceNo (op : Byte) : (forgetWindow op s).raceNo = s.raceNo := rfl

/-! ### Reset -/

/-- The memory of a block after reset is canonical. -/
theorem reset_mem_wf : State.reset.mem.wf = true := rfl

end Sys2Proof.Machine
end

