-- ==== Sys2Proof/Laws/Framer.lean ====
section
/-! SUPPORT. What the framer does, said once: a command frame is one session, a data frame is `SessionsSent` sessions of at
most P Bytes (40_framer.md R81 to R86), and neither touches anything else. -/

namespace Sys2Proof.Machine

/-- A state after some closed sessions: their events are appended, and `closes` answers were taken. -/
def afterBus (s : State) (events : List Event) (closes cnt : Nat) : State :=
  { s with trace := s.trace ++ events, session := .closed, closeNo := s.closeNo + closes, cnt := cnt }

section fields
variable (s : State) (events : List Event) (closes cnt : Nat)

@[simp] theorem afterBus_cfg : (afterBus s events closes cnt).cfg = s.cfg := rfl
@[simp] theorem afterBus_busy : (afterBus s events closes cnt).busy = s.busy := rfl
@[simp] theorem afterBus_result : (afterBus s events closes cnt).result = s.result := rfl
@[simp] theorem afterBus_colStart : (afterBus s events closes cnt).colStart = s.colStart := rfl
@[simp] theorem afterBus_colEnd : (afterBus s events closes cnt).colEnd = s.colEnd := rfl
@[simp] theorem afterBus_rowStart : (afterBus s events closes cnt).rowStart = s.rowStart := rfl
@[simp] theorem afterBus_rowEnd : (afterBus s events closes cnt).rowEnd = s.rowEnd := rfl
@[simp] theorem afterBus_req : (afterBus s events closes cnt).req = s.req := rfl
@[simp] theorem afterBus_seq : (afterBus s events closes cnt).seq = s.seq := rfl
@[simp] theorem afterBus_session : (afterBus s events closes cnt).session = .closed := rfl
@[simp] theorem afterBus_cnt : (afterBus s events closes cnt).cnt = cnt := rfl
@[simp] theorem afterBus_phase : (afterBus s events closes cnt).phase = s.phase := rfl
@[simp] theorem afterBus_carry : (afterBus s events closes cnt).carry = s.carry := rfl
@[simp] theorem afterBus_cur : (afterBus s events closes cnt).cur = s.cur := rfl
@[simp] theorem afterBus_scratch : (afterBus s events closes cnt).scratch = s.scratch := rfl
@[simp] theorem afterBus_fault : (afterBus s events closes cnt).fault = s.fault := rfl
@[simp] theorem afterBus_trace : (afterBus s events closes cnt).trace = s.trace ++ events := rfl
@[simp] theorem afterBus_mem : (afterBus s events closes cnt).mem = s.mem := rfl
@[simp] theorem afterBus_port : (afterBus s events closes cnt).port = s.port := rfl
@[simp] theorem afterBus_script : (afterBus s events closes cnt).script = s.script := rfl
@[simp] theorem afterBus_closes : (afterBus s events closes cnt).closes = s.closes := rfl
@[simp] theorem afterBus_closeNo : (afterBus s events closes cnt).closeNo = s.closeNo + closes := rfl
@[simp] theorem afterBus_pulses : (afterBus s events closes cnt).pulses = s.pulses := rfl
@[simp] theorem afterBus_pulseNo : (afterBus s events closes cnt).pulseNo = s.pulseNo := rfl
@[simp] theorem afterBus_raced : (afterBus s events closes cnt).raced = s.raced := rfl
@[simp] theorem afterBus_raceNo : (afterBus s events closes cnt).raceNo = s.raceNo := rfl

end fields

/-- Two states that TRANSPORT answers alike from some call on. -/
theorem closeStatus_congr {s t : State} (n m : Nat) (hc : t.cfg = s.cfg) (hl : t.closes = s.closes)
    (hn : t.closeNo + n = s.closeNo + m) : closeStatus t n = closeStatus s m := by
  simp [closeStatus, hc, hl, hn]

@[simp] theorem closeStatus_afterBus (s : State) (events : List Event) (closes cnt n : Nat) :
    closeStatus (afterBus s events closes cnt) n = closeStatus s (closes + n) :=
  closeStatus_congr _ _ rfl rfl (by simp; omega)

theorem closeStatus_afterBus_fun (s : State) (events : List Event) (closes cnt : Nat) :
    closeStatus (afterBus s events closes cnt) = fun n => closeStatus s (closes + n) :=
  funext fun n => closeStatus_afterBus s events closes cnt n

@[simp] theorem afterBus_afterBus (s : State) (e1 e2 : List Event) (c1 c2 n1 n2 : Nat) :
    afterBus (afterBus s e1 c1 n1) e2 c2 n2 = afterBus s (e1 ++ e2) (c1 + c2) n2 := by
  simp [afterBus, Nat.add_assoc]

theorem writeAll_eq (bytes : List Byte) (s : State) :
    writeAll bytes s = { s with trace := s.trace ++ bytes.map .wrote } := by
  induction bytes generalizing s with
  | nil => simp [writeAll]
  | cons b bytes ih => simp [writeAll, ih, tWrite, emit]

/-- R81, R82: a command frame is exactly one session. -/
theorem framedCmd_eq (op : Byte) (args : List Byte) (s : State) :
    framedCmd op args s =
      (closeStatus s 0, afterBus s (cmdSession s.cfg op args (closeStatus s 0)) 1 0) := by
  have h : closeStatus (writeAll (cmdBytes s.cfg op args) (tOpen .cmd s)) 0 = closeStatus s 0 := by
    simp [writeAll_eq, closeStatus, tOpen, emit]
  simp only [framedCmd, tClose, h]
  simp [writeAll_eq, afterBus, tOpen, emit, cmdSession, cmdBytes]

/-- The payload Bytes that fit into the running session are written to it. -/
theorem dataLoop_append (chunk rest : List Byte) (s : State) (h : s.cnt + chunk.length ≤ s.cfg.p) :
    dataLoop (chunk ++ rest) s =
      dataLoop rest { s with trace := s.trace ++ chunk.map .wrote, cnt := s.cnt + chunk.length } := by
  induction chunk generalizing s with
  | nil => simp
  | cons b chunk ih =>
    simp only [List.length_cons] at h
    have hne : s.cnt ≠ s.cfg.p := by omega
    simp only [List.cons_append, dataLoop, hne, if_false]
    rw [ih _ (by simp; omega)]
    simp [tWritePayload, tWrite, emit, Nat.add_assoc, Nat.add_comm 1]

/-- R83: a frame that fits one session. -/
theorem framedData_short (bytes : List Byte) (s : State) (h : bytes.length ≤ s.cfg.p) :
    framedData bytes s =
      (closeStatus s 0, afterBus s (dataSession s.cfg bytes (closeStatus s 0)) 1 bytes.length) := by
  have := dataLoop_append bytes [] (openData s) (by simpa using h)
  rw [List.append_nil] at this
  simp only [framedData, this, dataLoop, tClose]
  simp [closeStatus, afterBus, openData, tOpen, tWrite, emit, dataSession]

/-- R83, R85: a longer frame sends a full session, and goes on only if that closed with 0. -/
theorem framedData_long (bytes : List Byte) (s : State) (h : s.cfg.p < bytes.length) (hp : 1 ≤ s.cfg.p) :
    framedData bytes s =
      if closeStatus s 0 = 0 then
        framedData (bytes.drop s.cfg.p)
          (afterBus s (dataSession s.cfg (bytes.take s.cfg.p) (closeStatus s 0)) 1 s.cfg.p)
      else
        (closeStatus s 0,
          afterBus s (dataSession s.cfg (bytes.take s.cfg.p) (closeStatus s 0)) 1 s.cfg.p) := by
  have hlen : (bytes.take s.cfg.p).length = s.cfg.p := by simp; omega
  have h1 := dataLoop_append (bytes.take s.cfg.p) (bytes.drop s.cfg.p) (openData s) (by simp)
  rw [List.take_append_drop] at h1
  obtain ⟨b, rest, hb⟩ : ∃ b rest, bytes.drop s.cfg.p = b :: rest := by
    cases hd : bytes.drop s.cfg.p with
    | nil => have := congrArg List.length hd; simp at this; omega
    | cons b rest => exact ⟨b, rest, rfl⟩
  have h0 : ¬ (0 = s.cfg.p) := by omega
  simp only [framedData, h1, hb, dataLoop, openData_cnt, openData_cfg, hlen, Nat.zero_add, if_true, tClose]
  simp only [afterBus, openData, tOpen, tWrite, emit, closeStatus, h0, if_false]
  simp [dataSession]

/-- R84: how many sessions a frame has. -/
theorem sessionCount_short {p n : Nat} (hp : 1 ≤ p) (h : n ≤ p) : sessionCount p n = 1 := by
  unfold sessionCount
  have : (n + p - 1) / p ≤ 1 := by
    apply Nat.le_of_lt_succ
    rw [Nat.div_lt_iff_lt_mul (by omega)]
    omega
  omega

theorem sessionCount_long {p n : Nat} (hp : 1 ≤ p) (h : p < n) :
    sessionCount p n = sessionCount p (n - p) + 1 := by
  unfold sessionCount
  have e : n + p - 1 = (n - p + p - 1) + p := by omega
  rw [e, Nat.add_div_right _ (by omega)]
  have : 1 ≤ (n - p + p - 1) / p := (Nat.one_le_div_iff (by omega)).2 (by omega)
  omega

theorem one_le_sessionCount (p n : Nat) : 1 ≤ sessionCount p n := by unfold sessionCount; omega

@[simp] theorem dataFrame_one (c : Config) (bytes : List Byte) (status : Nat → Status)
    (h : bytes.length ≤ c.p) : dataFrame c bytes 1 status = dataSession c bytes (status 0) := by
  simp [dataFrame, chunkAt, List.take_of_length_le h]

/-- A data frame is its first session and the frame of the Bytes after it. -/
theorem dataFrame_succ (c : Config) (bytes : List Byte) (k : Nat) (status : Nat → Status) :
    dataFrame c bytes (k + 1) status =
      dataSession c (bytes.take c.p) (status 0) ++
        dataFrame c (bytes.drop c.p) k fun j => status (j + 1) := by
  simp [dataFrame, List.range_succ_eq_map, List.flatMap_map, chunkAt, List.drop_drop, Nat.succ_mul, Nat.add_comm]

/-- R83 to R85: what `FramedData` does, for every answer TRANSPORT gives. -/
theorem framedData_spec (bytes : List Byte) (s : State) (hp : 1 ≤ s.cfg.p) :
    ∃ k cnt, SessionsSent s.cfg.p bytes.length (closeStatus s) k ∧ cnt ≤ s.cfg.p ∧
      framedData bytes s =
        (closeStatus s (k - 1), afterBus s (dataFrame s.cfg bytes k (closeStatus s)) k cnt) := by
  generalize hn : bytes.length = n
  induction n using Nat.strong_induction_on generalizing bytes s with
  | _ n ih =>
    by_cases hs : n ≤ s.cfg.p
    · refine ⟨1, n, ⟨by omega, one_le_sessionCount _ _, by omega, ?_⟩, hs, ?_⟩
      · rw [sessionCount_short hp hs]; omega
      · rw [framedData_short bytes s (by omega), dataFrame_one _ _ _ (by omega), hn]
    · by_cases h0 : closeStatus s 0 = 0
      · obtain ⟨k, cnt, ⟨h1, h2, h3, h4⟩, hc, he⟩ :=
          ih (n - s.cfg.p) (by omega) (bytes.drop s.cfg.p)
            (afterBus s (dataSession s.cfg (bytes.take s.cfg.p) (closeStatus s 0)) 1 s.cfg.p) (by simpa using hp)
            (by simp [hn])
        simp only [closeStatus_afterBus, afterBus_cfg] at h2 h3 h4 he hc
        refine ⟨k + 1, cnt, ⟨by omega, ?_, ?_, ?_⟩, hc, ?_⟩
        · rw [sessionCount_long hp (by omega)]; omega
        · intro j hj
          cases j with
          | zero => exact h0
          | succ j => simpa [Nat.add_comm] using h3 j (by omega)
        · rw [sessionCount_long hp (by omega)]
          intro hlt
          have e : 1 + (k - 1) = k := by omega
          simpa [e] using h4 (by omega)
        · rw [framedData_long bytes s (by omega) hp, if_pos h0, he, dataFrame_succ]
          have e : 1 + (k - 1) = k := by omega
          have f : (fun j => closeStatus s (j + 1)) = fun n => closeStatus s (1 + n) := by
            funext j; rw [Nat.add_comm]
          rw [closeStatus_afterBus_fun, afterBus_afterBus, e, f, Nat.add_comm 1 k]
          simp
      · refine ⟨1, s.cfg.p, ⟨by omega, one_le_sessionCount _ _, by omega, fun _ => h0⟩, Nat.le_refl _, ?_⟩
        rw [framedData_long bytes s (by omega) hp, if_neg h0]
        simp [dataFrame, chunkAt]

/-- R84: `k` is determined by the answers. -/
theorem SessionsSent.unique {p n : Nat} {status : Nat → Status} {k l : Nat}
    (hk : SessionsSent p n status k) (hl : SessionsSent p n status l) : k = l := by
  obtain ⟨k1, k2, k3, k4⟩ := hk
  obtain ⟨l1, l2, l3, l4⟩ := hl
  rcases Nat.lt_trichotomy k l with h | h | h
  · exact absurd (l3 (k - 1) (by omega)) (k4 (by omega))
  · exact h
  · exact absurd (k3 (l - 1) (by omega)) (l4 (by omega))

/-- R84: with every close 0, all sessions are sent. -/
theorem SessionsSent.all {p n : Nat} {status : Nat → Status} {k : Nat} (hk : SessionsSent p n status k)
    (h0 : ∀ j < sessionCount p n, status j = 0) : k = sessionCount p n := by
  obtain ⟨k1, k2, _, k4⟩ := hk
  by_contra hne
  exact k4 (by omega) (h0 _ (by omega))

end Sys2Proof.Machine
end

