-- ==== Sys2Proof/Laws/Decode.lean ====
section
/-! SUPPORT. The fields of a descriptor as numbers, of packed words, and of an accepted request (30_encoding.md R61 to R70). -/

namespace Sys2Proof.Machine

/-! ### Fields as numbers -/

/-- A field of a descriptor word, as bits and as a number. -/
theorem extract_eq_fieldAt (w : Word) (lo n : Nat) : w.extractLsb' lo n = fieldAt w lo n := by
  apply BitVec.eq_of_toNat_eq
  simp [fieldAt, Nat.shiftRight_eq_div_pow]

theorem opField_toNat (d : Descriptor) : d.opField.toNat = d.w0.toNat % 16 := by
  simp [Descriptor.opField]

theorem rsv0_eq_zero (d : Descriptor) : d.rsv0 = 0 ↔ d.w0.toNat / 2^4 % 16 = 0 := by
  rw [← BitVec.toNat_inj]; simp [Descriptor.rsv0, Nat.shiftRight_eq_div_pow]

theorem rsv1_eq_zero (d : Descriptor) : d.rsv1 = 0 ↔ d.w1.toNat / 2^8 % 256 = 0 := by
  rw [← BitVec.toNat_inj]; simp [Descriptor.rsv1, Nat.shiftRight_eq_div_pow]

theorem len_toNat (d : Descriptor) : d.len.toNat = d.w1.toNat / 2^16 := by
  simp only [Descriptor.len, extract_eq_fieldAt, fieldAt, BitVec.toNat_ofNat]
  have := d.w1.isLt; omega

theorem p2_eq_zero (d : Descriptor) : d.p2 = 0 ↔ d.w0.toNat / 2^24 = 0 := by
  rw [← BitVec.toNat_inj]; simp only [Descriptor.p2, extract_eq_fieldAt, fieldAt, BitVec.toNat_ofNat]
  have := d.w0.isLt
  simp; omega

theorem p3_eq_zero (d : Descriptor) : d.p3 = 0 ↔ d.w1.toNat % 256 = 0 := by
  rw [← BitVec.toNat_inj]; simp only [Descriptor.p3, extract_eq_fieldAt, fieldAt, BitVec.toNat_ofNat]
  simp

/-- R65, R66: the opcode map by number. -/
theorem opOfField_toNat (v : BitVec 4) : opOfField v =
   (if v.toNat = 1 then some .sendCmd else if v.toNat = 2 then some .sendData else if v.toNat = 3 then some .setColRange
    else if v.toNat = 4 then some .setRowRange else if v.toNat = 5 then some .resetRange
    else if v.toNat = 6 then some .render else if v.toNat = 7 then some .clear else if v.toNat = 8 then some .init
    else if v.toNat = 9 then some .transportReset else none) := by
  revert v; decide

/-! ### Packed words (R62) -/

theorem toNat_append_add {m n : Nat} (x : BitVec m) (y : BitVec n) : (x ++ y).toNat = x.toNat * 2^n + y.toNat := by
  rw [BitVec.toNat_append, ← Nat.shiftLeft_add_eq_or_of_lt y.isLt, Nat.shiftLeft_eq]

theorem packW0_toNat (op : Op) (a b c : Byte) : (packW0 op a b c).toNat =
   c.toNat * 2^24 + b.toNat * 2^16 + a.toNat * 2^8 + (fieldOfOp op).toNat := by
  simp only [packW0, toNat_append_add]; simp; ring

theorem packW1_toNat (l : BitVec 16) (p : Byte) : (packW1 l p).toNat = l.toNat * 2^16 + p.toNat := by
  simp only [packW1, toNat_append_add]; simp; ring

/-- The fields of a packed W0 are the ones it was packed from. -/
theorem packW0_fields (op : Op) (a b c : Byte) (w1 w2 : Word) :
   let d : Descriptor := ⟨packW0 op a b c, w1, w2⟩
   opOfField d.opField = some op ∧ d.rsv0 = 0 ∧ d.p0 = a ∧ d.p1 = b ∧ d.p2 = c := by
  intro d
  have e : d.w0.toNat = c.toNat * 2^24 + b.toNat * 2^16 + a.toNat * 2^8 + (fieldOfOp op).toNat := packW0_toNat op a b c
  have ha := a.isLt; have hb := b.isLt; have hc := c.isLt; have hf := (fieldOfOp op).isLt
  refine ⟨?_, ?_, ?_, ?_, ?_⟩
  · rw [show d.opField = fieldOfOp op from BitVec.eq_of_toNat_eq (by rw [opField_toNat, e]; omega)]; cases op <;> rfl
  · rw [rsv0_eq_zero, e]; omega
  all_goals
    apply BitVec.eq_of_toNat_eq
    simp only [Descriptor.p0, Descriptor.p1, Descriptor.p2, extract_eq_fieldAt, fieldAt, BitVec.toNat_ofNat, e]; omega

/-- The fields of a packed W1 are the ones it was packed from. -/
theorem packW1_fields (w0 : Word) (l : BitVec 16) (p3 : Byte) (w2 : Word) :
   let d : Descriptor := ⟨w0, packW1 l p3, w2⟩
   d.rsv1 = 0 ∧ d.p3 = p3 ∧ d.len = l := by
  intro d
  have e : d.w1.toNat = l.toNat * 2^16 + p3.toNat := packW1_toNat l p3
  have ha := l.isLt; have hb := p3.isLt
  refine ⟨?_, ?_, ?_⟩
  · rw [rsv1_eq_zero, e]; omega
  all_goals
    apply BitVec.eq_of_toNat_eq
    simp only [Descriptor.p3, Descriptor.len, extract_eq_fieldAt, fieldAt, BitVec.toNat_ofNat, e]; omega

/-- R65: the OP value in a packed W0. -/
theorem packW0_opcode (op : Op) (a b c : Byte) : (packW0 op a b c).toNat % 16 = (fieldOfOp op).toNat := by
  rw [packW0_toNat]
  have := (fieldOfOp op).isLt
  omega

/-! ### Checks on operands (R68, R69) -/

/-- The checks of the decoder and the well-formedness of the request agree. -/
theorem operandCheck_eq_none (c : Config) (i : Instr) : operandCheck c i = none ↔ i.wf c = true := by
  cases i <;> simp [operandCheck, Instr.wf, rangeCheck, regionCheck, rangeInsideSM, regionNotEmpty]

/-- R68: the two ways to say that a range is not inside SM. -/
theorem range_outside_iff (c : Config) (src : Word) (len : BitVec 16) :
   (2 ^ c.addrBits ≤ src.toNat ∨ 2 ^ c.addrBits < src.toNat + len.toNat) ↔
   (src.toNat / 2 ^ c.addrBits ≠ 0 ∨ 2 ^ c.addrBits < src.toNat % 2 ^ c.addrBits + len.toNat) := by
  have hp : 0 < 2 ^ c.addrBits := Nat.two_pow_pos _
  rcases Nat.lt_or_ge src.toNat (2 ^ c.addrBits) with h | h
  · rw [Nat.div_eq_of_lt h, Nat.mod_eq_of_lt h]; simp; omega
  · have : src.toNat / 2 ^ c.addrBits ≠ 0 := by
      have := Nat.div_pos h hp; omega
    simp [this, h]

/-- A descriptor that passes all checks decodes to a well-formed request. -/
theorem checkRequest_ok {c d i} (h : checkRequest c d = .ok i) : decode d = .ok i ∧ i.wf c = true := by
  unfold checkRequest at h
  cases hd : decode d with
  | error r => simp [hd] at h
  | ok j =>
    simp only [hd] at h
    cases ho : operandCheck c j with
    | some r => simp [ho] at h
    | none => simp [ho] at h; subst h; exact ⟨rfl, (operandCheck_eq_none _ _).1 ho⟩

/-! ### The latch (R125) -/

/-- R68: a source address that fits ADDR_BITS is latched whole. -/
theorem latch_src_eq (c : Config) (d : Descriptor) (h : d.w2.toNat < 2 ^ c.addrBits) : (latch c d).src = d.w2 := by
  apply BitVec.eq_of_toNat_eq
  have := d.w2.isLt
  simp only [latch, BitVec.toNat_ofNat, Nat.mod_eq_of_lt h]; omega

/-- R125: the latched fields name the decoded request. -/
theorem requestOf_latch {c d i} (h : checkRequest c d = .ok i) : requestOf (latch c d) = some i := by
  obtain ⟨hd, hw⟩ := checkRequest_ok h
  unfold decode at hd
  cases ho : opOfField d.opField with
  | none => simp [ho] at hd
  | some op =>
    simp only [ho] at hd
    split at hd
    · simp only [Except.ok.injEq] at hd
      subst hd
      have e : (latch c d).op = d.opField := rfl
      have hsrc : rangeInsideSM c d.w2 d.len = true → (latch c d).src = d.w2 := by
        intro h; simp [rangeInsideSM] at h; exact latch_src_eq c d h.1
      cases op <;> simp only [requestOf, e, ho, operandsOf]
      · rw [hsrc hw]; rfl
      · rw [hsrc hw]; rfl
      · rfl
      · rfl
      · simp only [operandsOf, Instr.wf, Bool.and_eq_true] at hw; rw [hsrc hw.1]; rfl
    · simp at hd

end Sys2Proof.Machine
end

