-- ==== Sys2Proof/Laws/Ops.lean ====
section
/-! SUPPORT. The RESULT word, the gate of the operand checks, acceptance, and the sequencing of statuses, each said once. -/

namespace Sys2Proof.Machine

/-! ### RESULT (R25, R29) -/

/-- R29: with both flags 0 the word is the status. -/
theorem resultWord_plain (st : Status) : resultWord st false false = BitVec.ofNat 32 st.toNat := by
  apply BitVec.eq_of_toNat_eq
  have := st.isLt
  simp only [resultWord, toNat_append_add]
  simp; omega

theorem statusField_resultWord (st : Status) (a b) : statusField (resultWord st a b) = st := by
  apply BitVec.eq_of_toNat_eq
  have := st.isLt
  simp only [resultWord, statusField, BitVec.extractLsb'_toNat, toNat_append_add]
  simp; omega

theorem flags_resultWord (st a b) : illegalFlag (resultWord st a b) = a ∧ pulsedFlag (resultWord st a b) = b ∧
    reservedField (resultWord st a b) = 0 := by
  refine ⟨?_, ?_, ?_⟩
  · simp only [illegalFlag, resultWord, BitVec.getLsbD_append]; simp
  · simp only [pulsedFlag, resultWord, BitVec.getLsbD_append]; simp
  · ext i hi
    have h1 : ¬ 18 + i < 16 := by omega
    have h2 : ¬ 18 + i - 16 < 1 := by omega
    have h3 : ¬ 18 + i - 16 - 1 < 1 := by omega
    simp only [reservedField, resultWord, BitVec.getElem_extractLsb', BitVec.getLsbD_append, h1, h2, h3, if_false]; simp

theorem resultWord_rejected : resultWord 0#16 true false = 65536#32 := by decide

/-! ### The configuration -/

/-- R9, R10: a data session holds at least one payload Byte. -/
theorem one_le_p (c : Config) (h : c.wf = true) : 1 ≤ c.p := by
  simp only [Config.wf, Config.wellFormed, Config.inLegalRange] at h
  simp at h
  unfold Config.p; omega

/-! ### The operand checks -/

/-- A well-formed request runs its body. -/
theorem ifLegal_wf (i : Instr) (body : State → State) (s : State) (h : i.wf s.cfg = true) : ifLegal i body s = body s := by
  simp [ifLegal, (operandCheck_eq_none _ _).2 h]

/-- R118: a request that is not well formed is rejected. -/
theorem ifLegal_not_wf (i : Instr) (body : State → State) (s : State) (h : i.wf s.cfg = false) :
    ∃ reason, ifLegal i body s = reject reason s := by
  cases ho : operandCheck s.cfg i with
  | none => rw [operandCheck_eq_none] at ho; rw [ho] at h; cases h
  | some r => exact ⟨r, by simp [ifLegal, ho]⟩

/-- R118: what a rejection writes. -/
theorem reject_eq (r s) : reject r s = { s with result := 0x00010000, busy := false, seq := .idle } := by simp only [reject, finish]; rfl

/-- Every well-formed request ends with `Finish(st, 0, pulsed)`. -/
theorem exec_ends_with_finish (i : Instr) (s : State) (h : i.wf s.cfg = true) :
   ∃ st t, exec i s = .next (finish st false (decide (i = .transportReset) && hwAnswer s) t) := by
  cases i <;> simp only [exec, execSendCmd, execSendData, execSetColRange, execSetRowRange, execResetRange, execClear, execInit, execTransportReset, execRender]
  all_goals (try rw [ifLegal_wf _ _ _ h])
  all_goals (try exact ⟨_, _, rfl⟩)

/-! ### Acceptance (R125) -/

theorem accept_error (d : Descriptor) (s : State) (r : Reject) (h : checkRequest s.cfg d = .error r) :
   accept d s = { latchRequest d s with seq := .rejecting r } := by simp [accept, h]

/-- R125: acceptance latches, and sets SEQ to the rejection or to the start of the named operation. -/
theorem accept_frame (d : Descriptor) (s : State) : ∃ q, accept d s = { latchRequest d s with seq := q } ∧
   (∀ reason, checkRequest s.cfg d = .error reason → q = .rejecting reason) ∧
      (∀ i, checkRequest s.cfg d = .ok i → ∃ pos, q = .run i.op pos) := by
  unfold accept
  cases h : checkRequest s.cfg d with
  | error r => exact ⟨_, rfl, by simp, by simp⟩
  | ok i =>
    have : ∀ op r u, ∃ pos, beginRequest op r u = goto op pos u := by
      intro op r u
      cases op <;> simp only [beginRequest]
      case sendCmd => unfold gatherArgs; split <;> exact ⟨_, rfl⟩
      case init => unfold initNext; split <;> exact ⟨_, rfl⟩
      all_goals exact ⟨_, rfl⟩
    obtain ⟨pos, e⟩ := this i.op (latch s.cfg d) (latchRequest d s)
    refine ⟨.run i.op pos, ?_, by simp, ?_⟩
    · simp only [e]; rfl
    · intro j hj; simp at hj; subst hj; exact ⟨pos, rfl⟩

/-! ### Statuses in sequence (R119) -/

theorem andThen_pos {r : Status × State} {f} (h : r.1 = 0) : andThen r f = f r.2 := by simp only [andThen, if_pos h]

theorem andThen_neg {r : Status × State} {f} (h : ¬ r.1 = 0) : andThen r f = r := by simp only [andThen, if_neg h]

end Sys2Proof.Machine
end

