-- ==== Sys2Proof/Laws/Sessions.lean ====
section
/-! SUPPORT. More about frames: their length, their payload, the two ways a data frame ends, and the reads of a source range. -/

namespace Sys2Proof.Machine

/-! ### Lengths (R152) -/

theorem dataSession_length (c : Config) (chunk : List Byte) (st : Status) : (dataSession c chunk st).length =
    chunk.length + 3 := by
  simp [dataSession]

theorem cmdSession_length (c : Config) (op : Byte) (args : List Byte) (st : Status) :
    (cmdSession c op args st).length = args.length + 4 := by
  simp [cmdSession]

/-- R152: `3 s + n` calls for a data frame of `n` Bytes in `s` sessions. -/
theorem dataFrame_length (c : Config) (hp : 1 ≤ c.p) (status) (bytes : List Byte) :
   (dataFrame c bytes (sessionCount c.p bytes.length) status).length =
    3 * sessionCount c.p bytes.length + bytes.length := by
  generalize hn : bytes.length = n
  induction n using Nat.strong_induction_on generalizing bytes status with
  | _ n ih =>
    by_cases hs : n ≤ c.p
    · rw [sessionCount_short hp hs, dataFrame_one _ _ _ (by omega), dataSession_length]; omega
    · rw [sessionCount_long hp (by omega), dataFrame_succ]
      have := ih (n - c.p) (by omega) (fun j => status (j+1)) (bytes.drop c.p) (by simp [hn])
      rw [List.length_append, dataSession_length, this]; simp; omega

theorem chunkAt_length (p j n : Nat) (bytes : List Byte) (hn : bytes.length = n) : (chunkAt p j bytes).length =
    min p (n - j * p) := by
  simp [chunkAt, hn]

/-! ### Payload (R84, R86) -/

theorem payloadOf_dataSession (c : Config) (chunk : List Byte) (st : Status) (es : List Event) :
   payloadOf (dataSession c chunk st ++ es) = chunk ++ payloadOf es := by
  have : ∀ chunk : List Byte, payloadOf (chunk.map .wrote ++ (.closed st :: es)) = chunk ++ payloadOf es := by
    intro chunk
    induction chunk with
    | nil => simp [payloadOf]
    | cons b l ih => simp only [List.map_cons, List.cons_append, payloadOf, ih]
  simp only [dataSession, List.append_assoc]
  simp only [List.cons_append, List.nil_append, payloadOf]
  exact this chunk

theorem payloadOf_sessions (c : Config) (l : List (List Byte)) :
  payloadOf (l.flatMap fun chunk => dataSession c chunk 0#16) = l.flatten := by
  induction l with
  | nil => rfl
  | cons a l ih => simp [payloadOf_dataSession, ih]

/-- R86: the chunks of a payload are the payload. -/
theorem chunkAt_flatten (p : Nat) (hp : 1 ≤ p) (bytes : List Byte) :
   ((List.range (sessionCount p bytes.length)).map (fun j => chunkAt p j bytes)).flatten = bytes := by
  generalize hn : bytes.length = n
  induction n using Nat.strong_induction_on generalizing bytes with
  | _ n ih =>
    by_cases hs : n ≤ p
    · rw [sessionCount_short hp hs]; simp [chunkAt, List.take_of_length_le (hn.trans_le hs)]
    · rw [sessionCount_long hp (by omega), List.range_succ_eq_map]
      have := ih (n - p) (by omega) (bytes.drop p) (by simp [hn])
      simp only [List.map_cons, List.map_map, List.flatten_cons]
      have e : (fun j => chunkAt p j bytes) ∘ Nat.succ = fun j => chunkAt p j (bytes.drop p) := by
        funext j; simp [chunkAt, List.drop_drop, Nat.succ_mul, Nat.add_comm]
      rw [e, this]
      simp [chunkAt]

/-- R86: a data frame whose closes all return 0 carries exactly its Bytes. -/
theorem payload_frame (c : Config) (hp : 1 ≤ c.p) (bytes : List Byte) (status : Nat → Status)
    (hz : ∀ n < sessionCount c.p bytes.length, status n = 0) :
    payloadOf (dataFrame c bytes (sessionCount c.p bytes.length) status) = bytes := by
  have hd : dataFrame c bytes (sessionCount c.p bytes.length) status =
      ((List.range (sessionCount c.p bytes.length)).map (fun j => chunkAt c.p j bytes)).flatMap fun chunk =>
        dataSession c chunk 0 := by
    simp only [dataFrame, List.flatMap_map]
    apply List.flatMap_congr
    intro j hj; simp at hj; rw [hz j hj]
  rw [hd]
  exact (payloadOf_sessions _ _).trans (chunkAt_flatten c.p hp bytes)

/-- R84: a data frame whose closes all return 0. -/
theorem dataFrame_of_zero (n : Nat) (s : State) (hp : 1 ≤ s.cfg.p) (bytes : List Byte) (hn : bytes.length = n)
    (h0 : ∀ j < sessionCount s.cfg.p n, closeStatus s j = 0) :
   dataFrame s.cfg bytes (sessionCount s.cfg.p n) (closeStatus s) =
        ((List.range (sessionCount s.cfg.p n)).map (fun j => chunkAt s.cfg.p j bytes)).flatMap fun chunk => dataSession s.cfg chunk 0 := by
  simp only [dataFrame, List.flatMap_map]
  apply List.flatMap_congr
  intro j hj; simp at hj; rw [h0 j hj]

/-! ### The two ends of a data frame (R85) -/

/-- R83, R85: a data frame sends all of its sessions with status 0, or stops at the first that fails. -/
theorem framedData_cases (bytes : List Byte) (s : State) (hp : 1 ≤ s.cfg.p) :
   (∃ cnt, cnt ≤ s.cfg.p ∧ framedData bytes s = (0, afterBus s (dataFrame s.cfg bytes (sessionCount s.cfg.p bytes.length) fun _ => 0) (sessionCount s.cfg.p bytes.length) cnt) ∧ ∀ j<sessionCount s.cfg.p bytes.length, closeStatus s j = 0) ∨
   (∃ k cnt, cnt ≤ s.cfg.p ∧ SessionsSent s.cfg.p bytes.length (closeStatus s) k ∧ closeStatus s (k-1) ≠ 0 ∧ framedData bytes s = (closeStatus s (k-1), afterBus s (dataFrame s.cfg bytes k (closeStatus s)) k cnt)) := by
  obtain ⟨k, cnt, hk, hc, e⟩ := framedData_spec bytes s hp
  by_cases h : closeStatus s (k-1) = 0
  · left
    have hk' : k = sessionCount s.cfg.p bytes.length := by
      obtain ⟨h1,h2,h3,h4⟩ := hk
      by_contra hne
      exact h4 (by omega) h
    have hall : ∀ j<k, closeStatus s j = 0 := by
      intro j hj
      by_cases hj' : j = k - 1
      · rw [hj']; exact h
      · exact hk.2.2.1 j (by omega)
    rw [← hk']
    refine ⟨cnt, hc, ?_, hall⟩
    rw [e, h]
    congr 2
    simp only [dataFrame]
    apply List.flatMap_congr
    intro j hj; simp at hj; rw [hall j hj]
  · right; exact ⟨k, cnt, hc, hk, h, e⟩

/-! ### Reads of a source range (R44) -/

theorem readBytes_congr {s t : State} (b n : Nat) (h1 : s.mem = t.mem) (h2 : s.raced = t.raced)
    (h3 : s.raceNo = t.raceNo) : readBytes b n s = readBytes b n t := by
  simp [readBytes, memRead, h1, h2, h3]

theorem readBytes_afterBus (s : State) (b n e c k) : readBytes b n (afterBus s e c k) = readBytes b n s := readBytes_congr _ _ rfl rfl rfl

theorem readBytes_length (b n : Nat) (s : State) : (readBytes b n s).length = n := by simp [readBytes]

theorem readBytes_take (b n k : Nat) (s : State) (h : k ≤ n) : (readBytes b n s).take k = readBytes b k s := by
  simp [readBytes, ← List.map_take, List.take_range, h]

theorem readBytes_drop (b n k : Nat) (s : State) : (readBytes b n s).drop k = readBytes (b + k) (n - k) s := by
  simp only [readBytes]
  apply List.ext_getElem
  · simp
  · intro i h1 h2; simp [Nat.add_assoc]

theorem readBytes_succ (b n s) : readBytes b (n+1) s = readBytes b n s ++ [memRead (b+n) s] := by
  simp [readBytes, List.range_succ]

end Sys2Proof.Machine
end

