-- ==== Sys2Proof/Laws/Window.lean ====
section
/-! SUPPORT. The addressing window: masked values as numbers, the two range frames, and what RENDER does before its data (41_window.md, R95 to R98). -/

namespace Sys2Proof.Machine

/-! ### Masked values (R89) -/

theorem colValueByte_maskCol (v : Byte) : colValueByte (maskCol v) = BitVec.ofNat 8 (v.toNat % 64) := by
  apply BitVec.eq_of_toNat_eq; simp [colValueByte, maskCol]

theorem rowValueByte_maskRow (v : Byte) : rowValueByte (maskRow v) = BitVec.ofNat 8 (v.toNat % 128) := by
  apply BitVec.eq_of_toNat_eq; simp [rowValueByte, maskRow]

theorem maskCol_eq (v : Byte) : (maskCol v) = BitVec.ofNat 6 (v.toNat % 64) := by
  apply BitVec.eq_of_toNat_eq; simp [maskCol]

theorem maskRow_eq (v : Byte) : (maskRow v) = BitVec.ofNat 7 (v.toNat % 128) := by
  apply BitVec.eq_of_toNat_eq; simp [maskRow]

theorem colValueByte_ofNat (n : Nat) : colValueByte (BitVec.ofNat 6 (n % 64)) = BitVec.ofNat 8 (n % 64) := by
  simp [colValueByte]

theorem rowValueByte_ofNat (n : Nat) : rowValueByte (BitVec.ofNat 7 (n % 128)) = BitVec.ofNat 8 (n % 128) := by
  simp [rowValueByte]

/-! ### Range formulas (R92, R96, R97) -/

theorem ofInt_six (z : Int) (n : Nat) (h : z % 64 = (n % 64 : Nat)) : BitVec.ofInt 6 z = BitVec.ofNat 6 (n % 64) := by
  apply BitVec.eq_of_toNat_eq
  rw [BitVec.toNat_ofInt, BitVec.toNat_ofNat]
  omega

theorem ofInt_seven (z : Int) (n : Nat) (h : z % 128 = (n % 128 : Nat)) : BitVec.ofInt 7 z = BitVec.ofNat 7 (n % 128) := by
  apply BitVec.eq_of_toNat_eq
  rw [BitVec.toNat_ofInt, BitVec.toNat_ofNat]
  omega

theorem fullColEnd_eq (c : Config) : fullColEnd c = BitVec.ofNat 6 ((c.width / 2 + 63) % 64) := ofInt_six _ _ (by omega)

theorem fullRowEnd_eq (c : Config) : fullRowEnd c = BitVec.ofNat 7 ((c.height + 127) % 128) := ofInt_seven _ _ (by omega)

theorem renderRowStart_eq (y : Byte) : renderRowStart y = BitVec.ofNat 7 (y.toNat % 128) := maskRow_eq y

theorem renderRowEnd_eq (y h : Byte) (hh : h ≠ 0) : renderRowEnd y h = BitVec.ofNat 7 ((y.toNat + h.toNat - 1) % 128) := by
  have : h.toNat ≠ 0 := fun e => hh (BitVec.eq_of_toNat_eq e)
  exact ofInt_seven _ _ (by omega)

theorem renderColStart_eq (x : Byte) : renderColStart x = BitVec.ofNat 6 (x.toNat / 2 % 64) := by
  apply BitVec.eq_of_toNat_eq; simp [renderColStart]

theorem renderColEnd_eq (x w : Byte) (hh : w ≠ 0) : renderColEnd x w = BitVec.ofNat 6
    (((x.toNat + w.toNat) / 2 + w.toNat % 2 - 1) % 64) := by
  have : w.toNat ≠ 0 := fun e => hh (BitVec.eq_of_toNat_eq e)
  exact ofInt_six _ _ (by omega)

/-! ### The shadow (R32) -/

theorem updateCols_eq (a b st s) : updateCols a b st s =
    { s with colStart := if st = 0 then some a else none, colEnd := if st = 0 then some b else none } := by
  unfold updateCols; split <;> rfl

theorem updateRows_eq (a b st s) : updateRows a b st s =
    { s with rowStart := if st = 0 then some a else none, rowEnd := if st = 0 then some b else none } := by
  unfold updateRows; split <;> rfl

/-- R91, R32: a row frame is one session and its window-command update. -/
theorem rowFrame_eq (a b : BitVec 7) (s : State) : rowFrame a b s = (closeStatus s 0,
   afterBus { s with rowStart := if closeStatus s 0 = 0 then some a else none, rowEnd := if closeStatus s 0 = 0 then some b else none }
    (cmdSession s.cfg s.cfg.opSetRow (rowArgs a b) (closeStatus s 0)) 1 0) := by
  simp only [rowFrame, framedCmd_eq, updateRows_eq]; rfl

/-- R90, R32: a column frame is one session and its window-command update. -/
theorem colFrame_eq (a b : BitVec 6) (s : State) : colFrame a b s = (closeStatus s 0,
   afterBus { s with colStart := if closeStatus s 0 = 0 then some a else none, colEnd := if closeStatus s 0 = 0 then some b else none }
    (cmdSession s.cfg s.cfg.opSetColumn (colArgs a b) (closeStatus s 0)) 1 0) := by
  simp only [colFrame, framedCmd_eq, updateCols_eq]; rfl

theorem colFrame_cfg (a b s) : (colFrame a b s).2.cfg = s.cfg := by rw [colFrame_eq]; rfl
theorem colFrame_busy (a b s) : (colFrame a b s).2.busy = s.busy := by rw [colFrame_eq]; rfl
theorem colFrame_req (a b s) : (colFrame a b s).2.req = s.req := by rw [colFrame_eq]; rfl
theorem colFrame_mem (a b s) : (colFrame a b s).2.mem = s.mem := by rw [colFrame_eq]; rfl
theorem colFrame_raced (a b s) : (colFrame a b s).2.raced = s.raced := by rw [colFrame_eq]; rfl
theorem colFrame_raceNo (a b s) : (colFrame a b s).2.raceNo = s.raceNo := by rw [colFrame_eq]; rfl
theorem rowFrame_cfg (a b s) : (rowFrame a b s).2.cfg = s.cfg := by rw [rowFrame_eq]; rfl
theorem rowFrame_busy (a b s) : (rowFrame a b s).2.busy = s.busy := by rw [rowFrame_eq]; rfl
theorem rowFrame_req (a b s) : (rowFrame a b s).2.req = s.req := by rw [rowFrame_eq]; rfl
theorem rowFrame_mem (a b s) : (rowFrame a b s).2.mem = s.mem := by rw [rowFrame_eq]; rfl
theorem rowFrame_raced (a b s) : (rowFrame a b s).2.raced = s.raced := by rw [rowFrame_eq]; rfl
theorem rowFrame_raceNo (a b s) : (rowFrame a b s).2.raceNo = s.raceNo := by rw [rowFrame_eq]; rfl

theorem framedCmd_cfg (op args s) : (framedCmd op args s).2.cfg = s.cfg := by rw [framedCmd_eq]; rfl
theorem framedCmd_busy (op args s) : (framedCmd op args s).2.busy = s.busy := by rw [framedCmd_eq]; rfl
theorem framedCmd_req (op args s) : (framedCmd op args s).2.req = s.req := by rw [framedCmd_eq]; rfl
theorem framedCmd_mem (op args s) : (framedCmd op args s).2.mem = s.mem := by rw [framedCmd_eq]; rfl
theorem framedCmd_raced (op args s) : (framedCmd op args s).2.raced = s.raced := by rw [framedCmd_eq]; rfl
theorem framedCmd_raceNo (op args s) : (framedCmd op args s).2.raceNo = s.raceNo := by rw [framedCmd_eq]; rfl

/-! ### RENDER before its data (R95) -/

theorem wf_render {x y w h : Byte} {len src c} (hw : (Instr.render x y w h len src).wf c = true) : w ≠ 0 ∧
    h ≠ 0 ∧ rangeInsideSM c src len = true := by
  simp [Instr.wf, regionNotEmpty] at hw; simp [hw]

theorem exec_render {x y w h : Byte} {len src} (s : State) (hw : (Instr.render x y w h len src).wf s.cfg = true) :
  exec (.render x y w h len src) s = .next (endRequest (render x y w h src.toNat len.toNat s)) := by
  simp only [exec, execRender]; rw [ifLegal_wf _ _ _ hw]

/-- R95: the three window frames of RENDER, each of which may end it, and then `Pack`. -/
theorem render_eq (x y w h : Byte) (base len : Nat) (s : State) (hw : w ≠ 0) (hh : h ≠ 0) :
  render x y w h base len s =
   if closeStatus s 0 = 0 then
     if closeStatus s 1 = 0 then
       if closeStatus s 2 = 0 then
         pack w base len
    (afterBus (withRenderWindow x y w h s) (renderRowSession s.cfg y h 0 ++ renderColSession s.cfg x w 0 ++ startLineSession s.cfg 0) 3 0)
       else (closeStatus s 2, afterBus (withRenderWindow x y w h s) (renderRowSession s.cfg y h 0 ++ renderColSession s.cfg x w 0 ++ startLineSession s.cfg (closeStatus s 2)) 3 0)
     else (closeStatus s 1, { afterBus (withRenderWindow x y w h s) (renderRowSession s.cfg y h 0 ++ renderColSession s.cfg x w (closeStatus s 1)) 2 0 with colStart := none, colEnd := none})
   else (closeStatus s 0, { afterBus s (renderRowSession s.cfg y h (closeStatus s 0)) 1 0 with rowStart := none, rowEnd := none}) := by
  have er : ∀ st, cmdSession s.cfg s.cfg.opSetRow (rowArgs (renderRowStart y) (renderRowEnd y h)) st = renderRowSession s.cfg y h st := by
    intro st; simp only [renderRowSession, rowArgs, renderRowEnd_eq _ _ hh, renderRowStart_eq, rowValueByte_ofNat]
  have ec : ∀ st, cmdSession s.cfg s.cfg.opSetColumn (colArgs (renderColStart x) (renderColEnd x w)) st = renderColSession s.cfg x w st := by
    intro st; simp only [renderColSession, colArgs, renderColEnd_eq _ _ hw, renderColStart_eq, colValueByte_ofNat]
  have ew : { { s with rowStart := some (renderRowStart y), rowEnd := some (renderRowEnd y h) } with colStart := some (renderColStart x), colEnd := some (renderColEnd x w) } = withRenderWindow x y w h s := by
    simp only [withRenderWindow, renderColEnd_eq _ _ hw, renderColStart_eq, renderRowEnd_eq _ _ hh, renderRowStart_eq]
  have cs : ∀ (t : State) n, t.cfg = s.cfg → t.closes = s.closes → t.closeNo = s.closeNo + n → closeStatus t 0 = closeStatus s n := by
    intro t n a b c; exact closeStatus_congr _ _ a b (by omega)
  unfold render
  simp only [andThen, rowFrame_eq, colFrame_eq, startLineFrame, framedCmd_eq]
  by_cases h0 : closeStatus s 0 = 0
  · simp only [h0, if_true]
    rw [cs _ 1 (by rfl) (by rfl) (by rfl)]
    by_cases h1 : closeStatus s 1 = 0
    · simp only [h1, if_true]
      rw [cs _ 2 (by rfl) (by rfl) (by rfl)]
      by_cases h2 : closeStatus s 2 = 0
      · simp only [h2, if_true, afterBus_cfg]
        rw [er, ec]; simp only [← ew]; simp [afterBus, startLineSession]
      · simp only [h2, if_false, afterBus_cfg]
        rw [er, ec]; simp only [← ew]; simp [afterBus, startLineSession]
    · simp only [h1, if_false, afterBus_cfg]
      rw [er, ec]; simp only [← ew]; simp [afterBus]
  · simp only [h0, if_false, er]; rfl

end Sys2Proof.Machine
end

