-- ==== Sys2Proof/Laws/Packer.lean ====
section
/-! SUPPORT. The odd-width packer: its loop sends the rows `packRows` names, and those rows are the pixels of the source (42_packer.md R99 to R107). -/

namespace Sys2Proof.Machine

/-! ### The outcome of the loop -/

/-- A state with other packer registers. -/
def withPacker (s : State) (ph : Phase) (ca : Byte) (cu : Nat) (sc : List Byte) : State :=
  { s with phase := ph, carry := ca, cur := cu, scratch := sc }

theorem closeStatus_withPacker (s : State) (a b c d n) : closeStatus (withPacker s a b c d) n = closeStatus s n := closeStatus_congr _ _ rfl rfl rfl

theorem readBytes_withPacker (s : State) (b n p c k e) : readBytes b n (withPacker s p c k e) = readBytes b n s := readBytes_congr _ _ rfl rfl rfl

/-- The sessions of some rows. -/
def totalSessions (p : Nat) (rows : List (List Byte)) : Nat := (rows.map fun row => sessionCount p row.length).sum

theorem totalSessions_cons (p row rows) : totalSessions p (row :: rows) =
    sessionCount p row.length + totalSessions p rows := by simp [totalSessions]

theorem rowFrames_cons (c row rows) : rowFrames c (row :: rows) = dataFrame c row (sessionCount c.p row.length)
    (fun _ => 0) ++ rowFrames c rows := rfl

/-- R99: PHASE, CARRY and CUR after at most so many full rows of some Bytes, from any of their values. -/
def packRegs (b : Nat) : Nat → Phase → Byte → Nat → List Byte → Phase × Byte × Nat
  | 0, ph, ca, cu, _ => (ph, ca, cu)
  | n + 1, .even, ca, cu, bytes =>
    if bytes.length < b then (.even, ca, cu)
    else packRegs b n .odd (carryOf (bytes.take b)) (cu + b) (bytes.drop b)
  | n + 1, .odd, ca, cu, bytes =>
    if bytes.length + 1 < b then (.odd, ca, cu) else packRegs b n .even ca (cu + (b - 1)) (bytes.drop (b - 1))

theorem packRegs_zero (b ph ca cu bytes) : packRegs b 0 ph ca cu bytes = (ph, ca, cu) := by unfold packRegs; rfl

theorem packRegs_even_short {b : Nat} {bytes : List Byte} (h : bytes.length < b) (n ca cu) :
    packRegs b n .even ca cu bytes = (.even, ca, cu) := by cases n <;> simp [packRegs, h]

theorem packRegs_odd_short {b : Nat} {bytes : List Byte} (h : bytes.length + 1 < b) (n ca cu) :
    packRegs b n .odd ca cu bytes = (.odd, ca, cu) := by cases n <;> simp [packRegs, h]

theorem packRegs_even {b : Nat} {bytes : List Byte} (h : ¬bytes.length < b) (n ca cu) :
    packRegs b (n + 1) .even ca cu bytes = packRegs b n .odd (carryOf (bytes.take b)) (cu + b) (bytes.drop b) := by
  simp [packRegs, h]

theorem packRegs_odd {b : Nat} {bytes : List Byte} (h : ¬bytes.length + 1 < b) (n ca cu) :
    packRegs b (n + 1) .odd ca cu bytes = packRegs b n .even ca (cu + (b - 1)) (bytes.drop (b - 1)) := by
  simp [packRegs, h]

/-- What sending some rows from `s` comes to: all of them with status 0, or those up to the first that fails; and the packer registers are `regs` of the rows begun, with CUR inside the source (R38, R99, R119). -/
def RowsSent (s : State) (len : Nat) (regs : Nat → Phase × Byte × Nat) (rows : List (List Byte))
    (r : Status × State) : Prop :=
  ∃ ph ca cu sc data n cnt, r.2 = withPacker (afterBus s data n cnt) ph ca cu sc ∧ cnt ≤ s.cfg.p ∧ cu ≤ len ∧
   ((r.1 = 0 ∧ (ph, ca, cu) = regs rows.length ∧ data = rowFrames s.cfg rows ∧ n = totalSessions s.cfg.p rows ∧ (∀ j<n, closeStatus s j = 0)) ∨
     ∃ sent row k j, rows[sent]? = some row ∧ (ph, ca, cu) = regs (sent + 1) ∧ SessionsSent s.cfg.p row.length (fun n => closeStatus s (j+n)) k ∧
       closeStatus s (j+(k-1)) ≠ 0 ∧
       data = rowFrames s.cfg (rows.take sent) ++ dataFrame s.cfg row k (fun n => closeStatus s (j + n)) ∧
       j = totalSessions s.cfg.p (rows.take sent) ∧ r.1 = closeStatus s (j+(k-1)) ∧ n = j + k ∧ (∀ i<j, closeStatus s i = 0))

theorem RowsSent.nil (s : State) (len : Nat) (hs : s.session = .closed) (hcnt : s.cnt ≤ s.cfg.p)
    (hcur : s.cur ≤ len) (regs) (hr : regs 0 = (s.phase, s.carry, s.cur)) : RowsSent s len regs [] (0, s) := by
  refine ⟨s.phase, s.carry, s.cur, s.scratch, [], 0, s.cnt, ?_, hcnt, hcur, .inl ⟨rfl, hr.symm, rfl, rfl, by simp⟩⟩
  simp [withPacker, afterBus, ← hs]

/-- A last row. -/
theorem RowsSent.last (s : State) (len : Nat) (hp : 1 ≤ s.cfg.p) (hcur : s.cur ≤ len) (row : List Byte) (ca) (regs)
    (hr : regs 1 = (s.phase, ca, s.cur)) :
   RowsSent s len regs [row] (framedData row { s with scratch := row, carry := ca }) := by
  rcases framedData_cases row { s with scratch := row, carry := ca } hp with ⟨cnt, hc, e, h⟩ | ⟨k, cnt, hc, hk, hne, e⟩
  · refine ⟨s.phase, ca, s.cur, row, _, _, cnt, by rw [e]; rfl, hc, hcur, .inl ⟨by rw [e], hr.symm, ?_, ?_, ?_⟩⟩
    · simp [rowFrames]
    · simp [totalSessions]
    · exact h
  · refine ⟨s.phase, ca, s.cur, row, _, _, cnt, by rw [e]; rfl, hc, hcur, .inr ⟨0, row, k, 0, rfl, hr.symm, ?_, ?_, ?_, ?_, ?_, by omega, by omega⟩⟩
    · simp only [Nat.zero_add]; exact hk
    · simp only [Nat.zero_add]; exact hne
    · simp only [Nat.zero_add]; rfl
    · rfl
    · rw [e]; simp only [Nat.zero_add]; rfl

/-- A row that fails. -/
theorem RowsSent.fail (s : State) (len : Nat) (hp : 1 ≤ s.cfg.p) (row : List Byte) (rows) (ca ph cu sc)
    (hcu : cu ≤ len) (k cnt) (hc : cnt ≤ s.cfg.p) (hk : SessionsSent s.cfg.p row.length (closeStatus s) k)
  (hne : closeStatus s (k-1) ≠ 0) (regs) (hr : regs 1 = (ph, ca, cu)) :
  RowsSent s len regs (row :: rows) (closeStatus s (k-1), withPacker (afterBus s (dataFrame s.cfg row k (closeStatus s)) k cnt) ph ca cu sc) := by
  refine ⟨ph, ca, cu, sc, _, _, cnt, rfl, hc, hcu, .inr ⟨0, row, k, 0, rfl, hr.symm, ?_, ?_, ?_, ?_, ?_, by omega, by omega⟩⟩
  · simp only [Nat.zero_add]; exact hk
  · simp only [Nat.zero_add]; exact hne
  · simp only [Nat.zero_add]; rfl
  · rfl
  · simp only [Nat.zero_add]

/-- A row that succeeds, and the rows after it. -/
theorem RowsSent.cons (s : State) (len : Nat) (row : List Byte) (rows) (ca ph cu sc cnt) 
  (h0 : ∀ j<sessionCount s.cfg.p row.length, closeStatus s j = 0) (r) (regs)
  (h : RowsSent (withPacker (afterBus s (dataFrame s.cfg row (sessionCount s.cfg.p row.length) fun _ => 0) (sessionCount s.cfg.p row.length) cnt) ph ca cu sc) len (fun n => regs (n + 1)) rows r) :
  RowsSent s len regs (row :: rows) r := by
  obtain ⟨ph', ca', cu', sc', data, n, cnt', e, hc, hcu, h⟩ := h
  simp only [closeStatus_withPacker, closeStatus_afterBus] at h
  refine ⟨ph', ca', cu', sc', dataFrame s.cfg row (sessionCount s.cfg.p row.length) (fun _ => 0) ++ data, sessionCount s.cfg.p row.length + n, cnt', ?_, hc, hcu, ?_⟩
  · rw [e]; simp [withPacker, afterBus, Nat.add_assoc]
  · rcases h with ⟨a, a', b, c, d⟩ | ⟨sent, row', k, j, h1, h1', h2, h3, h4, h5, h6, h7, h8⟩
    · left
      refine ⟨a, a', by rw [b]; rfl, by rw [c, totalSessions_cons]; rfl, ?_⟩
      intro j hj
      by_cases hj' : j < sessionCount s.cfg.p row.length
      · exact h0 j hj'
      · have := d (j - sessionCount s.cfg.p row.length) (by omega)
        rwa [Nat.add_sub_cancel' (by omega)] at this
    · right
      refine ⟨sent + 1, row', k, sessionCount s.cfg.p row.length + j, by simpa using h1, h1', ?_, ?_, ?_, ?_, ?_, by omega, ?_⟩
      · simp only [Nat.add_assoc]; exact h2
      · simp only [Nat.add_assoc]; exact h3
      · rw [h4, List.take_succ_cons, rowFrames_cons]; simp only [Nat.add_assoc, List.append_assoc]; rfl
      · rw [h5, List.take_succ_cons, totalSessions_cons]; rfl
      · simp only [Nat.add_assoc]; exact h6
      · intro j hj
        by_cases hj' : j < sessionCount s.cfg.p row.length
        · exact h0 j hj'
        · have := h8 (j - sessionCount s.cfg.p row.length) (by omega)
          rwa [Nat.add_sub_cancel' (by omega)] at this

theorem clearLastLow_length (l) : (clearLastLow l).length = l.length := by
  fun_induction clearLastLow l <;> simp_all

theorem fuseNibbles_length (l) : (fuseNibbles l).length = l.length := by
  fun_induction fuseNibbles l <;> simp_all

/-- R99: the loop sends the rows of the Bytes that are left, from any phase and carry. -/
theorem packLoop_spec (base b len fuel : Nat) (s : State) (hp : 1 ≤ s.cfg.p) (hb : 1 ≤ b) (hcur : s.cur ≤ len)
    (hs : s.session = .closed) (hcnt : s.cnt ≤ s.cfg.p) :
  RowsSent s len (fun n => packRegs b n s.phase s.carry s.cur (readBytes (base + s.cur) (len - s.cur) s)) (packRows b fuel s.phase s.carry (readBytes (base + s.cur) (len - s.cur) s)) (packLoop base b len fuel s) := by
  induction fuel generalizing s with
  | zero => simpa [packRows, packLoop] using RowsSent.nil s len hs hcnt hcur _ (packRegs_zero ..)
  | succ fuel ih =>
    simp only [packLoop, nextRow]
    have hterm : ∀ regs : Nat → Phase × Byte × Nat, (∀ n, regs n = (s.phase, s.carry, s.cur)) → RowsSent s len regs (if readBytes (base + s.cur) (len - s.cur) s = [] then [] else [clearLastLow (readBytes (base + s.cur) (len - s.cur) s)]) (terminalRow base (len - s.cur) s) := by
      intro regs hr
      unfold terminalRow
      by_cases h : len - s.cur = 0
      · rw [if_pos h, if_pos (by simp [readBytes, h])]; exact RowsSent.nil s len hs hcnt hcur _ (hr 0)
      · rw [if_neg h, if_neg (by rw [← List.length_eq_zero_iff, readBytes_length]; exact h)]
        exact RowsSent.last s len hp hcur _ s.carry _ (hr 1)
    cases hph : s.phase with
    | even =>
      simp only [packRows, readBytes_length]
      by_cases h : len - s.cur < b
      · rw [if_pos h, if_pos h]
        exact hterm _ fun n => by rw [hph]; exact packRegs_even_short (by rw [readBytes_length]; exact h) ..
      · rw [if_neg h, if_neg h]
        have hregs : ∀ n, packRegs b (n+1) .even s.carry s.cur (readBytes (base + s.cur) (len - s.cur) s) =
            packRegs b n .odd (carryOf (readBytes (base + s.cur) b s)) (s.cur + b) (readBytes (base + (s.cur + b)) (len - (s.cur + b)) s) := by
          intro n
          rw [packRegs_even (by rw [readBytes_length]; exact h), readBytes_take _ _ _ _ (by omega), readBytes_drop, Nat.add_assoc, Nat.sub_sub]
        simp only
        rw [readBytes_take _ _ _ _ (by omega), readBytes_drop]
        have e0 : evenRow base b s = framedData (clearLastLow (readBytes (base + s.cur) b s)) (withPacker s s.phase (carryOf (readBytes (base + s.cur) b s)) s.cur (clearLastLow (readBytes (base + s.cur) b s))) := rfl
        rw [e0]
        generalize hrow : clearLastLow (readBytes (base + s.cur) b s) = row
        generalize carryOf (readBytes (base + s.cur) b s) = ca at hregs ⊢
        rcases framedData_cases row (withPacker s s.phase ca s.cur row) hp with ⟨cnt, hc, e, h⟩ | ⟨k, cnt, hc, hk, hne, e⟩
        · skip
          simp only [e, if_true]
          simp only [closeStatus_withPacker] at h
          refine RowsSent.cons s len row _ ca .odd (s.cur + b) row cnt h _ _ ?_
          simp only [hregs]
          have := ih (withPacker (afterBus s (dataFrame s.cfg row (sessionCount s.cfg.p row.length) fun _ => 0) (sessionCount s.cfg.p row.length) cnt) .odd ca (s.cur + b) row) hp (by change s.cur + b ≤ len; omega) rfl hc
          rw [readBytes_withPacker, readBytes_afterBus] at this
          have e3 : base + s.cur + b = base + (s.cur + b) := by omega
          have e4 : len - s.cur - b = len - (s.cur + b) := by omega
          rw [e3, e4]
          exact this
        · skip
          have cs : closeStatus (withPacker s s.phase ca s.cur row) = closeStatus s := funext fun n => closeStatus_withPacker ..
          rw [cs] at hk hne e
          simp only [e, if_neg hne]
          exact RowsSent.fail s len hp row _ ca .odd (s.cur + b) row (by omega) k cnt hc hk hne _ ((hregs 0).trans (packRegs_zero ..))
    | odd =>
      simp only [packRows, readBytes_length]
      by_cases h : len - s.cur + 1 < b
      · rw [if_pos h, if_pos h]
        exact hterm _ fun n => by rw [hph]; exact packRegs_odd_short (by rw [readBytes_length]; exact h) ..
      · rw [if_neg h, if_neg h]
        have hregs : ∀ n, packRegs b (n+1) .odd s.carry s.cur (readBytes (base + s.cur) (len - s.cur) s) =
            packRegs b n .even s.carry (s.cur + (b-1)) (readBytes (base + (s.cur + (b-1))) (len - (s.cur + (b-1))) s) := by
          intro n
          rw [packRegs_odd (by rw [readBytes_length]; exact h), readBytes_drop, Nat.add_assoc, Nat.sub_sub]
        simp only
        rw [readBytes_take _ _ _ _ (by omega), readBytes_drop]
        have e0 : oddRow base b s = framedData (fuseNibbles (s.carry :: readBytes (base + s.cur) (b-1) s)) (withPacker s s.phase s.carry s.cur (fuseNibbles (s.carry :: readBytes (base + s.cur) (b-1) s))) := rfl
        rw [e0]
        generalize hrow : fuseNibbles (s.carry :: readBytes (base + s.cur) (b-1) s) = row
        rcases framedData_cases row (withPacker s s.phase s.carry s.cur row) hp with ⟨cnt, hc, e, h⟩ | ⟨k, cnt, hc, hk, hne, e⟩
        · skip
          simp only [e, if_true]
          simp only [closeStatus_withPacker] at h
          refine RowsSent.cons s len row _ s.carry .even (s.cur + (b-1)) row cnt h _ _ ?_
          simp only [hregs]
          have := ih (withPacker (afterBus s (dataFrame s.cfg row (sessionCount s.cfg.p row.length) fun _ => 0) (sessionCount s.cfg.p row.length) cnt) .even s.carry (s.cur + (b-1)) row) hp (by change s.cur + (b-1) ≤ len; omega) rfl hc
          rw [readBytes_withPacker, readBytes_afterBus] at this
          have e3 : base + s.cur + (b-1) = base + (s.cur + (b-1)) := by omega
          have e4 : len - s.cur - (b-1) = len - (s.cur + (b-1)) := by omega
          rw [e3, e4]
          exact this
        · skip
          have cs : closeStatus (withPacker s s.phase s.carry s.cur row) = closeStatus s := funext fun n => closeStatus_withPacker ..
          rw [cs] at hk hne e
          simp only [e, if_neg hne]
          exact RowsSent.fail s len hp row _ s.carry .even (s.cur + (b-1)) row (by omega) k cnt hc hk hne _ ((hregs 0).trans (packRegs_zero ..))

/-! ### Pixels (R45) -/

theorem pixelAt_nil (p : Nat) : pixelAt [] p = 0 := by
  unfold pixelAt; split <;> simp [hi, lo]

theorem pixelAt_cons_zero (a : Byte) (l) : pixelAt (a :: l) 0 = hi a := rfl

theorem pixelAt_cons_one (a : Byte) (l) : pixelAt (a :: l) 1 = lo a := rfl

theorem pixelAt_cons_two (a : Byte) (l) (p) : pixelAt (a :: l) (p+2) = pixelAt l p := by
  unfold pixelAt
  have : (p+2)/2 = p/2+1 := by omega
  have h2 : (p+2)%2 = p%2 := by omega
  rw [this, h2]; rfl

theorem pixelAt_drop (l : List Byte) (k p : Nat) : pixelAt (l.drop k) p = pixelAt l (2*k + p) := by
  unfold pixelAt
  have : (2*k+p)/2 = k + p/2 := by omega
  have h2 : (2*k+p)%2 = p%2 := by omega
  rw [this, h2]; simp [List.getD_eq_getElem?_getD]

theorem pixelAt_take (l : List Byte) (k p : Nat) (h : p < 2*k) : pixelAt (l.take k) p = pixelAt l p := by
  unfold pixelAt
  have : p/2 < k := by omega
  simp [List.getD_eq_getElem?_getD, this]

/-! ### Nibbles of a row (R102 to R104) -/

theorem hi_clear (b : Byte) : hi (b &&& 0xF0) = hi b := by revert b; decide

theorem lo_clear (b : Byte) : lo (b &&& 0xF0) = 0 := by revert b; decide

theorem hi_shift (b : Byte) : hi ((b <<< 4) &&& 0xF0) = lo b := by revert b; decide

theorem lo_or (a b : Byte) : lo ((a <<< 4) ||| (b >>> 4)) = hi b := by
  unfold lo hi; ext i hi; interval_cases i <;> simp

theorem hi_or (a b : Byte) : hi ((a <<< 4) ||| (b >>> 4)) = lo a := by
  unfold lo hi; ext i hi; interval_cases i <;> simp

theorem lo_carry (b : Byte) : lo ((lo b).setWidth 8) = lo b := by revert b; decide

/-- R102, R104: clearing the last low nibble changes the last pixel only. -/
theorem pixelAt_clearLastLow (l : List Byte) (p : Nat) : pixelAt (clearLastLow l) p = if p + 1 =
    2 * l.length then 0 else pixelAt l p := by
  induction l generalizing p with
  | nil => simp [clearLastLow, pixelAt_nil]
  | cons a l ih =>
    cases l with
    | nil =>
      rcases p with _ | _ | p
      · exact hi_clear a
      · exact lo_clear a
      · simp only [clearLastLow, pixelAt_cons_two, pixelAt_nil]; simp
    | cons b l =>
      rcases p with _ | _ | p
      · simp [clearLastLow, pixelAt_cons_zero]; omega
      · simp [clearLastLow, pixelAt_cons_one]
      · simp only [clearLastLow, pixelAt_cons_two, ih]
        congr 1; simp only [List.length_cons, eq_iff_iff]; omega

/-- R103: fusing moves every pixel one to the left. -/
theorem pixelAt_fuseNibbles (l : List Byte) (p : Nat) : pixelAt (fuseNibbles l) p = if p + 1 =
    2 * l.length then 0 else pixelAt l (p+1) := by
  induction l generalizing p with
  | nil => simp [fuseNibbles, pixelAt_nil]
  | cons a l ih =>
    cases l with
    | nil =>
      rcases p with _ | _ | p
      · exact hi_shift a
      · simp only [fuseNibbles, pixelAt_cons_one, Nat.zero_add]; exact lo_clear _
      · simp only [fuseNibbles, pixelAt_cons_two, pixelAt_nil]; split <;> rfl
    | cons b l =>
      rcases p with _ | _ | p
      · simp [fuseNibbles, pixelAt_cons_zero, pixelAt_cons_one, hi_or]; omega
      · simp [fuseNibbles, pixelAt_cons_one, pixelAt_cons_two, pixelAt_cons_zero, lo_or]
      · simp only [fuseNibbles, pixelAt_cons_two, ih]
        congr 1; simp only [List.length_cons, eq_iff_iff]; omega

/-- R102: the carry is the pixel after the row. -/
theorem pixelAt_carryOf (l : List Byte) (b : Nat) (hb : 1 ≤ b) (hl : b ≤ l.length) (tl : List Byte) : pixelAt
    (carryOf (l.take b) :: tl) 1 = pixelAt l (2*b-1) := by
  rw [pixelAt_cons_one, carryOf, lo_carry]
  unfold pixelAt
  have h1 : (2*b-1)%2 ≠ 0 := by omega
  have h2 : (2*b-1)/2 = b-1 := by omega
  rw [if_neg h1, h2]
  congr 1
  rw [List.getLastD_eq_getLast?, List.getLast?_eq_getElem?]
  simp [List.getD_eq_getElem?_getD, Nat.min_eq_left hl]
  rw [List.getElem?_take_of_lt (by omega)]

/-! ### The rows of a region -/

/-- Two rows take `w` Bytes. -/
theorem packRows_two (b f : Nat) (c : Byte) (bytes : List Byte) (hb : 1 ≤ b) (h : 2 * b - 1 ≤ bytes.length) :
  packRows b (f+2) .even c bytes = clearLastLow (bytes.take b) :: fuseNibbles (carryOf (bytes.take b) :: (bytes.drop b).take (b-1)) ::
    packRows b f .even (carryOf (bytes.take b)) (bytes.drop (2*b-1)) := by
  have h1 : ¬ bytes.length < b := by omega
  have h2 : ¬ (bytes.drop b).length + 1 < b := by simp; omega
  simp only [packRows, h1, if_false, h2]
  rw [List.drop_drop, show b + (b-1) = 2*b-1 by omega]

/-- R107: row `r` is the pixels of row `r`. -/
theorem packRows_pixels (b f : Nat) (hb : 1 ≤ b) : ∀ (c : Byte) (bytes : List Byte) (r : Nat), r < f →
    ((r+1) * (2*b-1) ≤ 2 * bytes.length → ∃ row, (packRows b f .even c bytes)[r]? = some row ∧ RowIsPixels bytes (2*b-1) r row) := by
  induction f using Nat.strong_induction_on with
  | _ f ih =>
  intro c bytes r hr hlen
  have hbl : b ≤ bytes.length := by
    have : (2*b-1) ≤ (r+1) * (2*b-1) := Nat.le_mul_of_pos_left _ (by omega)
    omega
  have hw2 : (2*b-1)/2 + 1 = b := by omega
  have row0 : RowIsPixels bytes (2*b-1) 0 (clearLastLow (bytes.take b)) := by
    refine ⟨by rw [clearLastLow_length, List.length_take, Nat.min_eq_left hbl, hw2], fun col hcol => ?_, ?_⟩
    · rw [pixelAt_clearLastLow, List.length_take, Nat.min_eq_left hbl, if_neg (by omega), pixelAt_take _ _ _ (by omega)]; congr 1; omega
    · rw [pixelAt_clearLastLow, List.length_take, Nat.min_eq_left hbl, if_pos (by omega)]
  obtain ⟨f, rfl⟩ : ∃ g, f = g + 1 := ⟨f - 1, by omega⟩
  rcases r with _ | _ | r
  · have h1 : ¬ bytes.length < b := by omega
    simp only [packRows, h1, if_false]
    exact ⟨_, rfl, row0⟩
  · obtain ⟨f, rfl⟩ : ∃ g, f = g + 1 := ⟨f - 1, by omega⟩
    have hw : 2*b-1 ≤ bytes.length := by omega
    rw [packRows_two _ _ _ _ hb hw]
    refine ⟨_, rfl, ?_⟩
    have hl : (carryOf (bytes.take b) :: (bytes.drop b).take (b-1)).length = b := by
      simp; omega
    refine ⟨by rw [fuseNibbles_length, hl, hw2], fun col hcol => ?_, ?_⟩
    · rw [pixelAt_fuseNibbles, hl, if_neg (by omega)]
      rcases col with _ | col
      · rw [Nat.zero_add, pixelAt_carryOf _ _ hb hbl]; congr 1; omega
      · rw [pixelAt_cons_two, pixelAt_take _ _ _ (by omega), pixelAt_drop]; congr 1; omega
    · rw [pixelAt_fuseNibbles, hl, if_pos (by omega)]
  · obtain ⟨f, rfl⟩ : ∃ g, f = g + 1 := ⟨f - 1, by omega⟩
    have hm : (r + 1 + 1 + 1) * (2*b-1) = (r + 1) * (2*b-1) + 2 * (2*b-1) := by ring
    have hw : 2*b-1 ≤ bytes.length := by omega
    rw [packRows_two _ _ _ _ hb hw]
    obtain ⟨row, e, h1, h2, h3⟩ := ih f (by omega) (carryOf (bytes.take b)) (bytes.drop (2*b-1)) r (by omega) (by simp; omega)
    refine ⟨row, by simpa using e, h1, fun col hcol => ?_, h3⟩
    rw [h2 col hcol, pixelAt_drop]; congr 1; ring

theorem packRows_row_length (b f : Nat) (hb : 1 ≤ b) (ph c bytes) :
    ∀ row ∈ packRows b f ph c bytes, row.length ≤ b ∧ ∃ last, row.getLast? = some last ∧ last.toNat % 16 = 0 := by
  have lz : ∀ row : List Byte, 1 ≤ row.length → pixelAt row (2 * row.length - 1) = 0 → ∃ last, row.getLast? = some last ∧ last.toNat % 16 = 0 := by
    intro row h1 h2
    have hne : row ≠ [] := by intro h; rw [h] at h1; simp at h1
    refine ⟨row.getLast hne, List.getLast?_eq_some_getLast hne, ?_⟩
    unfold pixelAt at h2
    rw [if_neg (by omega), show (2*row.length-1)/2 = row.length - 1 by omega] at h2
    rw [List.getD_eq_getElem?_getD, ← List.getLast?_eq_getElem?, List.getLast?_eq_some_getLast hne] at h2
    have := congrArg BitVec.toNat h2
    simpa [lo] using this
  have cl : ∀ l : List Byte, 1 ≤ l.length → l.length ≤ b → (clearLastLow l).length ≤ b ∧ ∃ last, (clearLastLow l).getLast? = some last ∧ last.toNat % 16 = 0 := by
    intro l h1 h2
    refine ⟨by rw [clearLastLow_length]; exact h2, lz _ (by rw [clearLastLow_length]; exact h1) ?_⟩
    rw [pixelAt_clearLastLow, clearLastLow_length, if_pos (by omega)]
  have fu : ∀ l : List Byte, 1 ≤ l.length → l.length ≤ b → (fuseNibbles l).length ≤ b ∧ ∃ last, (fuseNibbles l).getLast? = some last ∧ last.toNat % 16 = 0 := by
    intro l h1 h2
    refine ⟨by rw [fuseNibbles_length]; exact h2, lz _ (by rw [fuseNibbles_length]; exact h1) ?_⟩
    rw [pixelAt_fuseNibbles, fuseNibbles_length, if_pos (by omega)]
  have term : ∀ bytes : List Byte, bytes.length ≤ b → ∀ row ∈ (if bytes = [] then [] else [clearLastLow bytes]), row.length ≤ b ∧ ∃ last, row.getLast? = some last ∧ last.toNat % 16 = 0 := by
    intro bytes hl row hr
    split at hr
    · simp at hr
    · next hne => simp at hr; subst hr; exact cl _ (List.length_pos_iff.2 hne) hl
  induction f generalizing ph c bytes with
  | zero => intro row hr; simp [packRows] at hr
  | succ f ih =>
    cases ph with
    | even =>
      unfold packRows
      split
      · exact term bytes (by omega)
      · intro row hr
        rcases List.mem_cons.1 hr with rfl | hr
        · exact cl _ (by simp; omega) (by simp)
        · exact ih _ _ _ _ hr
    | odd =>
      unfold packRows
      split
      · exact term bytes (by omega)
      · intro row hr
        rcases List.mem_cons.1 hr with rfl | hr
        · exact fu _ (by simp) (by simp; omega)
        · exact ih _ _ _ _ hr

theorem packRows_length_le (b f : Nat) (ph c bytes) : (packRows b f ph c bytes).length ≤ f := by
  induction f generalizing ph c bytes with
  | zero => simp [packRows]
  | succ f ih =>
    cases ph with
    | even =>
      unfold packRows; split
      · split <;> simp
      · simp; exact ih ..
    | odd =>
      unfold packRows; split
      · split <;> simp
      · simp; exact ih ..

theorem packRows_short (b f : Nat) (c : Byte) (bytes : List Byte) (hb : 1 ≤ b) (h : bytes.length < 2 * b - 1) :
   (packRows b (f+2) .even c bytes).map List.length = List.replicate (if b ≤ bytes.length then 1 else 0) b ++
     (if 0 < (if b ≤ bytes.length then bytes.length - b else bytes.length) then [if b ≤ bytes.length then bytes.length - b else bytes.length] else []) := by
  by_cases hl : bytes.length < b
  · have : ¬ b ≤ bytes.length := by omega
    simp only [packRows, hl, if_true, this, if_false]
    by_cases h0 : bytes = []
    · simp [h0]
    · have := List.length_pos_iff.2 h0
      simp [h0, this, clearLastLow_length]
  · have h1 : b ≤ bytes.length := by omega
    have h2 : (bytes.drop b).length + 1 < b := by simp; omega
    simp only [packRows, hl, if_false, h1, if_true, h2]
    by_cases h0 : bytes.drop b = []
    · have := congrArg List.length h0
      simp at this
      have e : bytes.length - b = 0 := by omega
      simp [h0, e, clearLastLow_length]; omega
    · have := List.length_pos_iff.2 h0
      simp at this
      have h3 : 0 < bytes.length - b := by omega
      simp [h0, h3, clearLastLow_length]; omega

/-- R105: how many rows there are. -/
theorem packRows_count (b : Nat) (hb : 1 ≤ b) : ∀ (n f : Nat) (c : Byte) (bytes : List Byte), bytes.length =
    n → 2 * n + 2 ≤ f →
   (packRows b f .even c bytes).map List.length = List.replicate
    (2 * (n / (2*b-1)) + (if b ≤ n % (2*b-1) then 1 else 0)) b ++
     (if 0 < (if b ≤ n % (2*b-1) then n % (2*b-1) - b else n % (2*b-1)) then [if b ≤ n % (2*b-1) then n % (2*b-1) - b else n % (2*b-1)] else []) := by
  intro n
  induction n using Nat.strong_induction_on with
  | _ n ih =>
  intro f c bytes hn hf
  obtain ⟨f, rfl⟩ : ∃ g, f = g + 2 := ⟨f - 2, by omega⟩
  by_cases h : n < 2*b-1
  · have := packRows_short b f c bytes hb (by omega)
    rw [hn] at this
    rw [Nat.mod_eq_of_lt h, Nat.div_eq_of_lt h]
    simpa using this
  · rw [packRows_two _ _ _ _ hb (by omega)]
    have h1 := ih (n - (2*b-1)) (by omega) f (carryOf (bytes.take b)) (bytes.drop (2*b-1)) (by simp [hn]) (by omega)
    have e1 : n % (2*b-1) = (n - (2*b-1)) % (2*b-1) := Nat.mod_eq_sub_mod (by omega)
    have e2 : n / (2*b-1) = (n - (2*b-1)) / (2*b-1) + 1 := by rw [Nat.div_eq_sub_div (by omega) (by omega)]
    rw [e1, e2, List.map_cons, List.map_cons, h1, clearLastLow_length, fuseNibbles_length]
    have l1 : (bytes.take b).length = b := by rw [List.length_take]; omega
    have l2 : (carryOf (bytes.take b) :: (bytes.drop b).take (b-1)).length = b := by simp; omega
    rw [l1, l2]
    generalize (n - (2*b-1)) / (2*b-1) = q
    rw [show 2 * (q + 1) + (if b ≤ (n - (2*b-1)) % (2*b-1) then 1 else 0) = (2 * q + (if b ≤ (n - (2*b-1)) % (2*b-1) then 1 else 0)) + 1 + 1 by omega]
    rfl

theorem totalSessions_le (p b : Nat) (hp : 1 ≤ p) (rows : List (List Byte))
    (h : ∀ row ∈ rows, row.length ≤ b) : totalSessions p rows ≤ rows.length * sessionCount p b := by
  induction rows with
  | nil => simp [totalSessions]
  | cons row rows ih =>
    rw [totalSessions_cons]
    have h1 := ih (fun r hr => h r (List.mem_cons_of_mem _ hr))
    have h2 := h row (List.mem_cons_self)
    have h3 : sessionCount p row.length ≤ sessionCount p b := by
      unfold sessionCount
      have : (row.length + p - 1)/p ≤ (b + p - 1)/p := Nat.div_le_div_right (by omega)
      omega
    simp only [List.length_cons, Nat.add_mul]; omega

/-! ### The registers after a region -/

theorem fullRows_short {b L : Nat} (h : L < 2 * b - 1) (hb : 1 ≤ b) : fullRows (2 * b - 1) L = if b ≤ L then 1 else 0 := by
  unfold fullRows
  rw [Nat.div_eq_of_lt h, Nat.mod_eq_of_lt h, show (2 * b - 1) / 2 + 1 = b by omega, Nat.mul_zero, Nat.zero_add]

theorem fullRows_two {b L : Nat} (h : 2 * b - 1 ≤ L) (hb : 1 ≤ b) : fullRows (2 * b - 1) L = fullRows
    (2 * b - 1) (L - (2 * b - 1)) + 2 := by
  unfold fullRows
  rw [Nat.mod_eq_sub_mod h, Nat.div_eq_sub_div (by omega) h]
  omega

theorem carryOf_take (b : Nat) (hb : 1 ≤ b) (bytes : List Byte) (h : b ≤ bytes.length) : carryOf
    (bytes.take b) = carryOf [bytes.getD (b - 1) 0] := by
  unfold carryOf
  rw [List.getLastD_eq_getLast?, List.getLast?_eq_getElem?, List.length_take, Nat.min_eq_left h, List.getElem?_take_of_lt (by omega), List.getD_eq_getElem?_getD]
  rfl

/-- R34, R37, R38: the registers in closed form. -/
theorem packRegs_eq (b : Nat) (hb : 1 ≤ b) : ∀ (n : Nat) (ca : Byte) (cu : Nat) (bytes : List Byte),
    packRegs b n .even ca cu bytes =
      let m := min n (fullRows (2 * b - 1) bytes.length)
      (if m % 2 = 0 then .even else .odd, if m = 0 then ca else carryOf [bytes.getD ((m - 1) / 2 * (2 * b - 1) + (b - 1)) 0],
        cu + (m / 2 * (2 * b - 1) + if m % 2 = 0 then 0 else b)) := by
  intro n
  induction n using Nat.strong_induction_on with
  | _ n ih =>
  intro ca cu bytes
  by_cases h1 : bytes.length < b
  · rw [packRegs_even_short h1, fullRows_short (by omega) hb, if_neg (by omega)]
    simp
  · rcases n with _ | _ | n
    · rw [packRegs_zero]; simp
    · have hm : min 1 (fullRows (2 * b - 1) bytes.length) = 1 := by
        by_cases h2 : bytes.length < 2 * b - 1
        · rw [fullRows_short h2 hb, if_pos (by omega)]; rfl
        · rw [fullRows_two (by omega) hb]; omega
      rw [packRegs_even h1, packRegs_zero, Nat.zero_add, hm, carryOf_take b hb _ (by omega)]
      simp
    · rw [packRegs_even h1]
      by_cases h2 : bytes.length < 2 * b - 1
      · rw [packRegs_odd_short (by rw [List.length_drop]; omega), fullRows_short h2 hb, if_pos (by omega), carryOf_take b hb _ (by omega),
          Nat.min_eq_right (by omega)]
        simp
      · rw [packRegs_odd (by rw [List.length_drop]; omega), List.drop_drop, show b + (b - 1) = 2 * b - 1 by omega, ih n (by omega),
          fullRows_two (L := bytes.length) (by omega) hb, List.length_drop, carryOf_take b hb _ (by omega)]
        have hmin : min (n + 1 + 1) (fullRows (2 * b - 1) (bytes.length - (2 * b - 1)) + 2) = min n (fullRows (2 * b - 1) (bytes.length - (2 * b - 1))) + 2 := by omega
        rw [hmin]
        generalize min n (fullRows (2 * b - 1) (bytes.length - (2 * b - 1))) = m
        simp only [Prod.mk.injEq]
        have e2 : (m + 2) / 2 = m / 2 + 1 := by omega
        have e3 : (m + 2) % 2 = m % 2 := by omega
        refine ⟨by rw [e3], ?_, ?_⟩
        · rw [if_neg (show ¬m + 2 = 0 by omega)]
          by_cases h0 : m = 0
          · subst h0; simp
          · rw [if_neg h0, show m + 2 - 1 = (m - 1) + 2 by omega, Nat.add_div_right _ (by omega), List.getD_eq_getElem?_getD, List.getElem?_drop,
              List.getD_eq_getElem?_getD]
            congr 4
            rw [Nat.add_mul ((m - 1) / 2) 1]; omega
        · rw [e2, e3, Nat.add_mul]; omega

/-- The packer leaves the registers `withPackerAfter` names. -/
theorem withPackerAfter_regs {w : Nat} (hw : w % 2 = 1) (n : Nat) (bytes : List Byte) (s : State) {ph ca cu}
    (h : (ph, ca, cu) = packRegs (w / 2 + 1) n .even 0x00 0 bytes) :
    withPackerAfter w (min n (fullRows w bytes.length)) bytes s = { s with phase := ph, carry := ca, cur := cu } := by
  rw [packRegs_eq _ (by omega), show 2 * (w / 2 + 1) - 1 = w by omega, Nat.add_sub_cancel] at h
  simp only [Prod.mk.injEq, Nat.zero_add] at h
  obtain ⟨rfl, rfl, rfl⟩ := h
  rfl

end Sys2Proof.Machine
end

