-- ==== Sys2Proof/Laws/Bus.lean ====
section
/-! SUPPORT. The transport contract and the close statuses of frames (R36, R79, R80, R119). -/

namespace Sys2Proof.Machine

/-! ### The contract -/

theorem busRun_append (c : Config) (v : BusView) (a b : List Event) : busRun c v (a ++ b) =
    (busRun c v a).bind fun v => busRun c v b := by
  induction a generalizing v with
  | nil => simp [busRun]
  | cons e a ih => simp only [List.cons_append, busRun]; cases busNext c v e <;> simp [ih]

theorem busRun_writes_cmd (c : Config) (n : Nat) (l : List Byte) : busRun c (.inside .cmd n) (l.map .wrote) =
    some (.inside .cmd (n + l.length)) := by
  induction l generalizing n with
  | nil => rfl
  | cons b l ih => simp only [List.map_cons, busRun, busNext, ih, List.length_cons]; congr 2; omega

theorem busRun_writes_data (c : Config) (n : Nat) (l : List Byte) (h : n + l.length ≤ c.p) : busRun c
    (.inside .data n) (l.map .wrote) = some (.inside .data (n + l.length)) := by
  induction l generalizing n with
  | nil => rfl
  | cons b l ih =>
    simp only [List.length_cons] at h
    simp only [List.map_cons, busRun, busNext, if_pos (show n < c.p by omega)]
    rw [ih (n+1) (by omega)]; simp only [List.length_cons]; congr 2; omega

theorem busRun_cmdSession (c : Config) (op args st) : busRun c .between (cmdSession c op args st) = some .between := by
  simp only [cmdSession, busRun_append, List.append_assoc]
  simp only [busRun, busNext, if_true, Option.bind_some]
  rw [busRun_writes_cmd]; rfl

theorem busRun_dataSession (c : Config) (chunk st) (h : chunk.length ≤ c.p) : busRun c .between
    (dataSession c chunk st) = some .between := by
  simp only [dataSession, busRun_append, List.append_assoc]
  simp only [busRun, busNext, if_true, Option.bind_some]
  rw [busRun_writes_data _ _ _ (by omega)]; rfl

theorem busRun_flatMap {α} (c : Config) (l : List α) (f : α → List Event)
    (h : ∀ a ∈ l, busRun c .between (f a) = some .between) :
   busRun c .between (l.flatMap f) = some .between := by
  induction l with
  | nil => rfl
  | cons a l ih =>
    rw [List.flatMap_cons, busRun_append, h a List.mem_cons_self]
    exact ih fun b hb => h b (List.mem_cons_of_mem _ hb)

theorem busRun_dataFrame (c : Config) (bytes k st) : busRun c .between (dataFrame c bytes k st) = some .between :=
  busRun_flatMap _ _ _ fun j _ => busRun_dataSession _ _ _ (by simp [chunkAt])

theorem busRun_rowFrames (c : Config) (rows) : busRun c .between (rowFrames c rows) = some .between :=
  busRun_flatMap _ _ _ fun j _ => busRun_dataFrame _ _ _ _

/-! ### Close statuses -/

theorem closesOf_append (a b) : closesOf (a ++ b) = closesOf a ++ closesOf b := by simp [closesOf]

theorem closesOf_cmdSession (c op args st) : closesOf (cmdSession c op args st) = [st] := by
  have : ∀ l : List Byte, closesOf (l.map .wrote) = [] := by intro l; induction l <;> simp_all [closesOf]
  simp only [cmdSession, closesOf_append, this]; rfl

theorem closesOf_dataSession (c chunk st) : closesOf (dataSession c chunk st) = [st] := by
  have : ∀ l : List Byte, closesOf (l.map .wrote) = [] := by intro l; induction l <;> simp_all [closesOf]
  simp only [dataSession, closesOf_append, this]; rfl

theorem closesOf_dataFrame (c bytes k st) : closesOf (dataFrame c bytes k st) = (List.range k).map st := by
  have : ∀ l : List Nat, closesOf (l.flatMap fun j => dataSession c (chunkAt c.p j bytes) (st j)) = l.map st := by
    intro l; induction l with
    | nil => rfl
    | cons a l ih => simp only [List.flatMap_cons, closesOf_append, closesOf_dataSession, ih]; rfl
  exact this _

theorem closesOf_rowFrames (c rows) : closesOf (rowFrames c rows) = List.replicate (totalSessions c.p rows) 0 := by
  induction rows with
  | nil => rfl
  | cons row rows ih => 
    rw [rowFrames_cons, closesOf_append, ih, closesOf_dataFrame, totalSessions_cons]
    simp [List.map_const', List.replicate_append_replicate]

/-! ### Fail-fast (R119) -/

/-- Statuses that are all 0 but perhaps the last, and the status they give. -/
def FailFast (l : List Status) (st : Status) : Prop := ∃ n, (l = List.replicate n 0 ∧ st = 0) ∨ (l = List.replicate n 0 ++ [st])

theorem FailFast.out {l st} (h : FailFast l st) : st = firstFailure l ∧ ∀ x ∈ l.dropLast, x = 0 := by
  have z : ∀ n, List.find? (fun x : Status => decide (x ≠ 0)) (List.replicate n 0) = none := by
    intro n; rw [List.find?_eq_none]; intro x hx; rw [List.eq_of_mem_replicate hx]; decide
  obtain ⟨n, ⟨rfl, rfl⟩ | rfl⟩ := h
  · refine ⟨by simp only [firstFailure, z]; rfl, fun x hx => ?_⟩
    exact List.eq_of_mem_replicate (List.mem_of_mem_dropLast hx)
  · refine ⟨?_, fun x hx => ?_⟩
    · simp only [firstFailure, List.find?_append, z, Option.none_or]
      by_cases h : st = 0
      · subst h; rfl
      · rw [List.find?_cons_of_pos (by simpa using h)]; rfl
    · rw [List.dropLast_concat] at hx; exact List.eq_of_mem_replicate hx

theorem FailFast.zeros_append {l st} (h : FailFast l st) (n : Nat) : FailFast (List.replicate n 0 ++ l) st := by
  obtain ⟨m, ⟨rfl, rfl⟩ | rfl⟩ := h
  · exact ⟨n + m, .inl ⟨List.replicate_append_replicate, rfl⟩⟩
  · exact ⟨n + m, .inr (by rw [← List.append_assoc, List.replicate_append_replicate])⟩

theorem failFast_dataFrame (st : Nat → Status) (k : Nat) (h1 : 1 ≤ k) (h : ∀ j < k - 1, st j = 0) : FailFast
    ((List.range k).map st) (st (k-1)) := by
  obtain ⟨k, rfl⟩ : ∃ m, k = m + 1 := ⟨k-1, by omega⟩
  refine ⟨k, .inr ?_⟩
  rw [List.range_succ, List.map_append]
  simp only [Nat.add_sub_cancel, List.map_cons, List.map_nil] at *
  congr 1
  rw [List.eq_replicate_iff]
  refine ⟨by simp, fun x hx => ?_⟩
  simp at hx; obtain ⟨a, ha, rfl⟩ := hx; exact h a ha

end Sys2Proof.Machine
end

