-- ==== Sys2Proof/Laws/DriverSession.lean ====
section
/-! SUPPORT. INIT as one formula (43_session.md R112, R113). -/

namespace Sys2Proof.Machine

theorem initLoop_eq_of_cfg (l : List InitFrame) (acc : Status) (s : State) (c : Config) (hc : s.cfg = c) :
    initLoop l acc s =
   (((List.range l.length).map (closeStatus s)).foldl (· ||| ·) acc, { s with
      trace := s.trace ++ (l.zipIdx.flatMap fun e => cmdSession c e.1.opcode e.1.args (closeStatus s e.2))
      session := if l = [] then s.session else .closed
      cnt := if l = [] then s.cnt else 0
      closeNo := s.closeNo + l.length
      colStart := if ∃ f ∈ l, f.opcode = c.opSetColumn then none else s.colStart
      colEnd := if ∃ f ∈ l, f.opcode = c.opSetColumn then none else s.colEnd
      rowStart := if ∃ f ∈ l, f.opcode = c.opSetRow then none else s.rowStart
      rowEnd := if ∃ f ∈ l, f.opcode = c.opSetRow then none else s.rowEnd }) := by
  induction l generalizing acc s with
  | nil => simp [initLoop]
  | cons f l ih =>
    simp only [initLoop, framedCmd_eq]
    rw [ih _ _ (by simpa using hc)]
    have cs' : closeStatus (forgetWindow f.opcode (afterBus s (cmdSession s.cfg f.opcode f.args (closeStatus s 0)) 1 0)) = fun n => closeStatus s (n+1) := by
      funext n; exact closeStatus_congr _ _ rfl rfl (by simp [forgetWindow]; omega)
    rw [cs']
    refine Prod.ext ?_ ?_
    · simp only [List.length_cons, List.range_succ_eq_map, List.map_cons, List.foldl_cons, List.map_map]; rfl
    · simp only [forgetWindow, afterBus, hc]
      have z : ∀ (g : Nat → Status), List.flatMap (fun e : InitFrame × Nat => cmdSession c e.1.opcode e.1.args (g (e.2 + 1))) l.zipIdx = List.flatMap (fun e : InitFrame × Nat => cmdSession c e.1.opcode e.1.args (g e.2)) (l.zipIdx 1) := by
        intro g
        rw [List.zipIdx_succ, List.flatMap_map]
      simp only [List.zipIdx_cons, List.flatMap_cons, Nat.zero_add, List.append_assoc]
      rw [z (closeStatus s)]
      have key : ∀ {α : Type} (A : Byte) (x : Option α), (if ∃ g ∈ l, g.opcode = A then none else if f.opcode = A then none else x) = if ∃ g ∈ f :: l, g.opcode = A then none else x := by
        intro α A x
        by_cases h : f.opcode = A <;> simp [h]
      simp only [key]
      simp [Nat.add_assoc, Nat.add_comm 1]

/-- R112, R33: INIT sends every frame, whatever the statuses, and ORs them. -/
theorem initLoop_eq (l : List InitFrame) (acc : Status) (s : State) : initLoop l acc s =
   (((List.range l.length).map (closeStatus s)).foldl (· ||| ·) acc, { s with
      trace := s.trace ++ (l.zipIdx.flatMap fun e => cmdSession s.cfg e.1.opcode e.1.args (closeStatus s e.2))
      session := if l = [] then s.session else .closed
      cnt := if l = [] then s.cnt else 0
      closeNo := s.closeNo + l.length
      colStart := if ∃ f ∈ l, f.opcode = s.cfg.opSetColumn then none else s.colStart
      colEnd := if ∃ f ∈ l, f.opcode = s.cfg.opSetColumn then none else s.colEnd
      rowStart := if ∃ f ∈ l, f.opcode = s.cfg.opSetRow then none else s.rowStart
      rowEnd := if ∃ f ∈ l, f.opcode = s.cfg.opSetRow then none else s.rowEnd }) := initLoop_eq_of_cfg l acc s _ rfl

/-- R113: the OR of statuses of which one is not 0. -/
theorem or_of_one_failure (l : List Status) (j : Nat) (hj : j < l.length)
    (h : ∀ i (hi : i < l.length), i ≠ j → l[i] = 0) (acc) : l.foldl (· ||| ·) acc = acc ||| l[j] := by
  induction l generalizing j acc with
  | nil => simp at hj
  | cons a l ih =>
    rw [List.foldl_cons]
    rcases j with _ | j
    · have hz : ∀ x ∈ l, x = 0 := by
        intro x hx
        obtain ⟨i, hi, rfl⟩ := List.getElem_of_mem hx
        exact h (i+1) (by simp; omega) (by omega)
      have : ∀ (l : List Status) (acc : Status), (∀ x ∈ l, x = 0) → l.foldl (· ||| ·) acc = acc := by
        intro l
        induction l with
        | nil => intro acc _; rfl
        | cons b l ih =>
          intro acc hh
          rw [List.foldl_cons, hh b (List.mem_cons_self), ih _ (fun x hx => hh x (List.mem_cons_of_mem _ hx))]
          exact BitVec.or_zero
      rw [this l _ hz]; rfl
    · have h0 : a = 0 := h 0 (by simp) (by omega)
      rw [h0, ih j (by simpa using hj) (fun i hi hne => h (i+1) (by simp; omega) (by omega))]
      simp

end Sys2Proof.Machine
end

