-- ==== Sys2Proof/Laws/Sequencer.lean ====
section
/-! SUPPORT. The single steps of R7 and the operations they add up to (00_scope.md R7, 10_state.md R22). -/

namespace Sys2Proof.Machine

/-! ### Runs of steps -/

/-- Steps of R7 lead from `s` to `t`, with BUSY = 1 before each. -/
def BusySteps (s t : State) : Prop := ∃ n, ticks n s = .next t ∧ ∀ m < n, ∃ u, ticks m s = .next u ∧ u.busy = true

theorem BusySteps.refl (s) : BusySteps s s := ⟨0, rfl, by simp⟩

theorem BusySteps.head {s u t} (h : tick s = .next u) (hb : s.busy = true) (h2 : BusySteps u t) : BusySteps s t := by
  obtain ⟨n, e, hn⟩ := h2
  refine ⟨n+1, by simp [ticks, h, e], fun m hm => ?_⟩
  rcases m with _ | m
  · exact ⟨s, rfl, hb⟩
  · obtain ⟨v, e1, e2⟩ := hn m (by omega)
    exact ⟨v, by simp [ticks, h, e1], e2⟩

theorem ticks_add (n m) (s) : ticks (n+m) s =
    match ticks n s with | .next t => ticks m t | .fault f => .fault f | .refused r => .refused r := by
  induction n generalizing s with
  | zero => simp [ticks]
  | succ n ih =>
    rw [Nat.succ_add]; simp only [ticks]
    cases tick s <;> simp [ih]

theorem BusySteps.trans {s u t} (h : BusySteps s u) (h2 : BusySteps u t) : BusySteps s t := by
  obtain ⟨n, e, hn⟩ := h
  obtain ⟨m, e2, hm⟩ := h2
  refine ⟨n+m, by simp [ticks_add, e, e2], fun k hk => ?_⟩
  by_cases h : k < n
  · exact hn k h
  · obtain ⟨j, rfl⟩ : ∃ j, k = n + j := ⟨k - n, by omega⟩
    obtain ⟨v, e1, e3⟩ := hm j (by omega)
    exact ⟨v, by simp [ticks_add, e, e1], e3⟩

/-- One step at a position of a running request. -/
theorem BusySteps.tick {op pos r} {s u t : State} (hb : s.busy = true) (hr : s.req = some r)
    (h : stepAt op pos r (goto op pos s) = .next u) (h2 : BusySteps u t) : BusySteps (goto op pos s) t := by
  refine BusySteps.head ?_ (show (goto op pos s).busy = true from hb) h2
  have : (goto op pos s).req = some r := hr
  change (match (goto op pos s).req with | none => _ | some r => stepAt op pos r (goto op pos s)) = _
  rw [this]; exact h

/-! ### The position itself is not read -/

theorem packNext_goto (op r p s) : packNext op r (goto op p s) = packNext op r s := by
  have e1 : nextRow (bufLen r.p2) r.len.toNat (goto op p s) = nextRow (bufLen r.p2) r.len.toNat s := rfl
  have g : ∀ row, gatherRow op r row [] (goto op p s) = gatherRow op r row [] s := by
    intro row
    have : rowNeeds row r (goto op p s) = rowNeeds row r s := by cases row <;> rfl
    simp only [gatherRow, this]
    split
    · rfl
    · cases row <;> rfl
  simp only [packNext, e1, g]
  cases nextRow (bufLen r.p2) r.len.toNat s <;> rfl

theorem resume_goto (op r site st p s) : resume op r site st (goto op p s) = resume op r site st s := by
  have uc : ∀ a b, updateCols a b st (goto op p s) = goto op p (updateCols a b st s) := by
    intro a b; simp only [updateCols_eq]; rfl
  have ur : ∀ a b, updateRows a b st (goto op p s) = goto op p (updateRows a b st s) := by
    intro a b; simp only [updateRows_eq]; rfl
  cases site with
  | renderLine =>
    simp only [resume, packBegin]
    split
    · split
      · rfl
      · exact packNext_goto op r p (startPack s)
    · rfl
  | packRow =>
    have e : (goto op p s).phase = s.phase := rfl
    simp only [resume, e]
    cases s.phase
    · simp only []
      rw [show afterEvenRow (bufLen r.p2) (goto op p s) = goto op p (afterEvenRow (bufLen r.p2) s) from rfl, packNext_goto]; rfl
    · simp only []
      rw [show afterOddRow (bufLen r.p2) (goto op p s) = goto op p (afterOddRow (bufLen r.p2) s) from rfl, packNext_goto]; rfl
  | initFrame o rest acc =>
    simp only [resume]
    cases rest <;> rfl
  | _ => simp only [resume, uc, ur] <;> rfl

/-! ### Frames -/

theorem writes_steps (op r site) (bytes : List Byte) (s t : State) (hb : s.busy = true) (hr : s.req = some r)
   (h : BusySteps (resume op r site (tClose (writeAll bytes s)).1 (tClose (writeAll bytes s)).2) t) :
   BusySteps (goto op (.cmdNext site bytes) s) t := by
  induction bytes generalizing s with
  | nil =>
    refine BusySteps.tick hb hr (by simp only [stepAt]; rfl) ?_
    change BusySteps (resume op r site (tClose s).1 (goto op _ (tClose s).2)) t
    rw [resume_goto]; exact h
  | cons b bytes ih =>
    refine BusySteps.tick hb hr (by simp only [stepAt]; rfl) ?_
    exact ih (tWrite b s) hb hr h

/-- R81: the steps of a command frame are `framedCmd`. -/
theorem cmd_steps (op r site o args) (s t : State) (hb : s.busy = true) (hr : s.req = some r)
   (h : BusySteps (resume op r site (framedCmd o args s).1 (framedCmd o args s).2) t) :
   BusySteps (goto op (.cmdOpen site (cmdBytes s.cfg o args)) s) t := by
  refine BusySteps.tick hb hr (by simp only [stepAt]; rfl) ?_
  exact writes_steps op r site _ (tOpen .cmd s) t hb hr h

theorem cmd_steps_of_cfg (op r site o args c) (s t : State) (hc : s.cfg = c) (hb : s.busy = true)
    (hr : s.req = some r)
   (h : BusySteps (resume op r site (framedCmd o args s).1 (framedCmd o args s).2) t) :
   BusySteps (goto op (.cmdOpen site (cmdBytes c o args)) s) t := by subst hc; exact cmd_steps op r site o args s t hb hr h

/-- Where the Bytes of a data frame come from. -/
def Supplies (source : DataSource) (r : Req) (s : State) (bytes : List Byte) : Prop :=
  match source with
  | .sourceMemory => ∀ i (h : i < bytes.length), bytes[i] = memRead (r.src.toNat + i) s ∧ addressExists (r.src.toNat + i) s = true
  | .rowBuffer => s.scratch = bytes
  | .zeros => bytes = List.replicate bytes.length 0x00

theorem data_steps (op r site source) (bytes : List Byte) (s t : State) (hp : 1 ≤ s.cfg.p) (hb : s.busy = true)
    (hr : s.req = some r) (i : Nat) (hi : i ≤ bytes.length)
   (hg : Supplies source r s bytes) 
   (h : BusySteps (resume op r site (dataLoop (bytes.drop i) s).1 (dataLoop (bytes.drop i) s).2) t) :
   BusySteps (goto op (.dataNext site source i bytes.length) s) t := by
  generalize hm : bytes.length - i = m
  induction m generalizing s i with
  | zero =>
    have : bytes.drop i = [] := List.drop_eq_nil_of_le (by omega)
    rw [this] at h
    refine BusySteps.tick hb hr (by simp only [stepAt, dataStep, if_pos (show bytes.length ≤ i by omega)]; rfl) ?_
    change BusySteps (resume op r site (tClose s).1 (goto op _ (tClose s).2)) t
    rw [resume_goto]; exact h
  | succ m ih =>
    have hlt : i < bytes.length := by omega
    have hd : bytes.drop i = bytes[i] :: bytes.drop (i+1) := List.drop_eq_getElem_cons hlt
    rw [hd] at h
    have hni : ¬ bytes.length ≤ i := by omega
    -- one payload byte, from a state with room
    have put : ∀ s : State, s.cfg.p ≠ s.cnt → 1 ≤ s.cfg.p → s.busy = true → s.req = some r → Supplies source r s bytes →
        BusySteps (resume op r site (dataLoop (bytes.drop (i+1)) (tWritePayload bytes[i] s)).1 (dataLoop (bytes.drop (i+1)) (tWritePayload bytes[i] s)).2) t →
        BusySteps (goto op (.dataNext site source i bytes.length) s) t := by
      intro s hne hp hb hr hg h
      have next : BusySteps (goto op (.dataNext site source (i+1) bytes.length) (tWritePayload bytes[i] s)) t := by
        refine ih (tWritePayload bytes[i] s) hp hb hr (i+1) (by omega) ?_ h (by omega)
        cases source <;> exact hg
      have hne' : ¬ (goto op (.dataNext site source i bytes.length) s).cnt = (goto op (.dataNext site source i bytes.length) s).cfg.p := fun e => hne e.symm
      cases source with
      | sourceMemory =>
        obtain ⟨g1, g2⟩ := hg i hlt
        refine BusySteps.tick hb hr (u := goto op (.dataPut site .sourceMemory i bytes.length bytes[i]) s) ?_ ?_
        · simp only [stepAt, dataStep, if_neg hni, if_neg hne', readStep]
          rw [if_pos (show addressExists _ (goto op _ s) = true from g2), g1]; rfl
        · exact BusySteps.tick hb hr rfl next
      | rowBuffer =>
        refine BusySteps.tick hb hr (u := goto op (.dataNext site .rowBuffer (i+1) bytes.length) (tWritePayload bytes[i] s)) ?_ next
        simp only [stepAt, dataStep, if_neg hni, if_neg hne']
        have : (goto op (.dataNext site .rowBuffer i bytes.length) s).scratch.getD i 0 = bytes[i] := by
          change s.scratch.getD i 0 = _
          have hg' : s.scratch = bytes := hg
          rw [hg']; simp [List.getD_eq_getElem?_getD, hlt]
        rw [this]; rfl
      | zeros =>
        refine BusySteps.tick hb hr (u := goto op (.dataNext site .zeros (i+1) bytes.length) (tWritePayload bytes[i] s)) ?_ next
        simp only [stepAt, dataStep, if_neg hni, if_neg hne']
        have : bytes[i] = 0x00 := by
          have hg' : bytes = List.replicate bytes.length 0x00 := hg
          exact (List.eq_replicate_iff.1 hg').2 _ (List.getElem_mem hlt)
        rw [this]; rfl
    simp only [dataLoop] at h
    by_cases hc : s.cnt = s.cfg.p
    · rw [if_pos hc] at h
      have hc' : (goto op (.dataNext site source i bytes.length) s).cnt = (goto op (.dataNext site source i bytes.length) s).cfg.p := hc
      by_cases h0 : (tClose s).1 = 0
      · rw [if_pos h0] at h
        refine BusySteps.tick hb hr (u := goto op (.dataOpen site source i bytes.length) (tClose s).2) ?_ ?_
        · simp only [stepAt, dataStep, if_neg hni, if_pos hc', if_pos (show (tClose (goto op _ s)).1 = 0 from h0)]; rfl
        refine BusySteps.tick (s := (tClose s).2) hb hr (u := goto op (.dataMark site source i bytes.length) (tOpen .data (tClose s).2)) rfl ?_
        refine BusySteps.tick (s := (tOpen .data (tClose s).2)) hb hr (u := goto op (.dataNext site source i bytes.length) (openData (tClose s).2)) rfl ?_
        refine put (openData (tClose s).2) ?_ hp hb hr ?_ h
        · change s.cfg.p ≠ 0; omega
        · cases source <;> exact hg
      · rw [if_neg h0] at h
        refine BusySteps.tick hb hr (u := resume op r site (tClose s).1 (goto op (.dataNext site source i bytes.length) (tClose s).2)) ?_ ?_
        · simp only [stepAt, dataStep, if_neg hni, if_pos hc', if_neg (show ¬ (tClose (goto op _ s)).1 = 0 from h0)]; rfl
        · rw [resume_goto]; exact h
    · rw [if_neg hc] at h
      exact put s (fun e => hc e.symm) hp hb hr hg h

/-- R83: the steps of a data frame are `framedData`. -/
theorem frame_steps (op r site source) (bytes : List Byte) (s t : State) (hp : 1 ≤ s.cfg.p)
    (hb : s.busy = true) (hr : s.req = some r)
   (hg : Supplies source r s bytes) 
   (h : BusySteps (resume op r site (framedData bytes s).1 (framedData bytes s).2) t) :
   BusySteps (goto op (.dataOpen site source 0 bytes.length) s) t := by
  refine BusySteps.tick hb hr (u := goto op (.dataMark site source 0 bytes.length) (tOpen .data s)) rfl ?_
  refine BusySteps.tick (s := tOpen .data s) hb hr (u := goto op (.dataNext site source 0 bytes.length) (openData s)) rfl ?_
  refine data_steps op r site source bytes (openData s) t hp hb hr 0 (Nat.zero_le _) (by cases source <;> exact hg) h

/-! ### Reads -/

/-- R87: the reads of the argument Bytes. -/
theorem args_steps (op r) (s t : State) (hb : s.busy = true) (hr : s.req = some r)
    (hx : ∀ i < r.len.toNat, addressExists (r.src.toNat + i) s = true)
   (k : Nat) (hk : k ≤ r.len.toNat)
    (h : BusySteps (goto op (.cmdOpen .sendCmd (cmdBytes s.cfg r.p0 (readBytes r.src.toNat r.len.toNat s))) s) t) :
   BusySteps (gatherArgs op r (readBytes r.src.toNat k s) s) t := by
  generalize hm : r.len.toNat - k = m
  induction m generalizing k with
  | zero =>
    have : k = r.len.toNat := by omega
    subst this
    simp only [gatherArgs, readBytes_length, Nat.lt_irrefl, if_false]; exact h
  | succ m ih =>
    have hlt : k < r.len.toNat := by omega
    simp only [gatherArgs, readBytes_length, if_pos hlt]
    refine BusySteps.tick hb hr (u := gatherArgs op r (readBytes r.src.toNat (k+1) s) s) ?_ (ih (k+1) (by omega) (by omega))
    simp only [stepAt, readStep, readBytes_length]
    rw [if_pos (show addressExists _ (goto op _ s) = true from hx k hlt), readBytes_succ]
    have e : memRead (r.src.toNat + k) (goto op (.argByte (readBytes r.src.toNat k s)) s) = memRead (r.src.toNat + k) s := rfl
    rw [e]
    simp only [gatherArgs]; split <;> rfl

/-- R102 to R104: the reads of a row. -/
theorem row_steps (op r row) (s t : State) (hb : s.busy = true) (hr : s.req = some r)
    (hx : ∀ i < rowNeeds row r s, addressExists (r.src.toNat + s.cur + i) s = true)
   (k : Nat) (hk : k ≤ rowNeeds row r s)
    (h : BusySteps (goto op (.dataOpen (rowSite row) .rowBuffer 0 (loadRow row (readBytes (r.src.toNat + s.cur) (rowNeeds row r s) s) s).scratch.length) (loadRow row (readBytes (r.src.toNat + s.cur) (rowNeeds row r s) s) s)) t) :
   BusySteps (gatherRow op r row (readBytes (r.src.toNat + s.cur) k s) s) t := by
  generalize hm : rowNeeds row r s - k = m
  induction m generalizing k with
  | zero =>
    have : k = rowNeeds row r s := by omega
    subst this
    simp only [gatherRow, readBytes_length, Nat.lt_irrefl, if_false]; exact h
  | succ m ih =>
    have hlt : k < rowNeeds row r s := by omega
    simp only [gatherRow, readBytes_length, if_pos hlt]
    refine BusySteps.tick hb hr (u := gatherRow op r row (readBytes (r.src.toNat + s.cur) (k+1) s) s) ?_ (ih (k+1) (by omega) (by omega))
    simp only [stepAt, readStep, readBytes_length]
    rw [show (goto op (.rowByte row (readBytes (r.src.toNat + s.cur) k s)) s).cur = s.cur from rfl]
    rw [if_pos (show addressExists _ (goto op _ s) = true from hx k hlt), readBytes_succ]
    have e : memRead (r.src.toNat + s.cur + k) (goto op (.rowByte row (readBytes (r.src.toNat + s.cur) k s)) s) = memRead (r.src.toNat + s.cur + k) s := rfl
    rw [e]
    have e2 : rowNeeds row r (goto op (.rowByte row (readBytes (r.src.toNat + s.cur) k s)) s) = rowNeeds row r s := by cases row <;> rfl
    simp only [gatherRow, e2]; split
    · rfl
    · cases row <;> rfl

/-! ### The packer -/

/-- The fuel a loop in this phase with so many Bytes left needs. -/
def packMeasure (ph : Phase) (left : Nat) : Nat := match ph with | .even => 2 * left + 1 | .odd => 2 * left + 2

/-- R99: the steps of the packer are `packLoop`. -/
theorem pack_steps (op r) (t : State) (fuel : Nat) : ∀ (s : State), packMeasure s.phase
    (r.len.toNat - s.cur) ≤ fuel → 1 ≤ s.cfg.p → s.busy = true → s.req = some r →
   (∀ i < r.len.toNat, addressExists (r.src.toNat + i) s = true) → s.cur ≤ r.len.toNat →
   BusySteps (goto op (.finish (packLoop r.src.toNat (bufLen r.p2) r.len.toNat fuel s).1 false) (packLoop r.src.toNat (bufLen r.p2) r.len.toNat fuel s).2) t →
   BusySteps (packNext op r s) t := by
  induction fuel with
  | zero => intro s h; exfalso; cases hp : s.phase <;> simp [hp, packMeasure] at h
  | succ fuel ih =>
    intro s hf hp hb hr hx hcur h
    have hbl : 1 ≤ bufLen r.p2 := by unfold bufLen; omega
    have row : ∀ rk, s.cur + rowNeeds rk r s ≤ r.len.toNat → 
       BusySteps (resume op r (rowSite rk) (sendRow (loadRow rk (readBytes (r.src.toNat + s.cur) (rowNeeds rk r s) s) s)).1 (sendRow (loadRow rk (readBytes (r.src.toNat + s.cur) (rowNeeds rk r s) s) s)).2) t →
       BusySteps (gatherRow op r rk [] s) t := by
      intro rk hle h
      refine row_steps op r rk s t hb hr (fun i hi => ?_) 0 (Nat.zero_le _) ?_
      · have := hx (s.cur + i) (by omega); rwa [← Nat.add_assoc] at this
      · refine frame_steps op r (rowSite rk) .rowBuffer _ (loadRow rk _ s) t ?_ ?_ ?_ ?_ h
        · cases rk <;> exact hp
        · cases rk <;> exact hb
        · cases rk <;> exact hr
        · rfl
    simp only [packLoop] at h
    simp only [packNext]
    cases hn : nextRow (bufLen r.p2) r.len.toNat s with
    | terminal =>
      rw [hn] at h
      simp only [terminalRow] at h ⊢
      by_cases h0 : r.len.toNat - s.cur = 0
      · rw [if_pos h0] at h ⊢; exact h
      · rw [if_neg h0] at h ⊢
        exact row .terminal (by simp only [rowNeeds]; omega) h
    | even =>
      rw [hn] at h
      simp only at h ⊢
      have hph : s.phase = .even ∧ ¬ r.len.toNat - s.cur < bufLen r.p2 := by
        simp only [nextRow] at hn; split at hn <;> split at hn <;> simp at hn; next h1 h2 => exact ⟨h1, h2⟩
      refine row .even (by simp only [rowNeeds]; omega) ?_
      change BusySteps (resume op r .packRow (evenRow r.src.toNat (bufLen r.p2) s).1 (evenRow r.src.toNat (bufLen r.p2) s).2) t
      obtain ⟨k, cnt, hk, hcnt, e⟩ := framedData_spec (loadEvenRow (readBytes (r.src.toNat + s.cur) (bufLen r.p2) s) s).scratch (loadEvenRow (readBytes (r.src.toNat + s.cur) (bufLen r.p2) s) s) hp
      change evenRow r.src.toNat (bufLen r.p2) s = _ at e
      have e2 : (evenRow r.src.toNat (bufLen r.p2) s).2.phase = .even := by rw [e]; exact hph.1
      simp only [resume, e2]
      by_cases h0 : (evenRow r.src.toNat (bufLen r.p2) s).1 = 0
      · rw [if_pos h0] at h ⊢
        refine ih _ ?_ ?_ ?_ ?_ ?_ ?_ h
        · rw [e]; rw [hph.1] at hf; simp only [packMeasure, afterEvenRow, afterBus, loadEvenRow] at *; omega
        · rw [e]; exact hp
        · rw [e]; exact hb
        · rw [e]; exact hr
        · rw [e]; exact hx
        · rw [e]; change s.cur + bufLen r.p2 ≤ _; omega
      · rw [if_neg h0] at h ⊢; exact h
    | odd =>
      rw [hn] at h
      simp only at h ⊢
      have hph : s.phase = .odd ∧ ¬ r.len.toNat - s.cur + 1 < bufLen r.p2 := by
        simp only [nextRow] at hn; split at hn <;> split at hn <;> simp at hn; next h1 h2 => exact ⟨h1, by omega⟩
      refine row .odd (by simp only [rowNeeds]; omega) ?_
      change BusySteps (resume op r .packRow (oddRow r.src.toNat (bufLen r.p2) s).1 (oddRow r.src.toNat (bufLen r.p2) s).2) t
      obtain ⟨k, cnt, hk, hcnt, e⟩ := framedData_spec (loadOddRow (readBytes (r.src.toNat + s.cur) (bufLen r.p2 - 1) s) s).scratch (loadOddRow (readBytes (r.src.toNat + s.cur) (bufLen r.p2 - 1) s) s) hp
      change oddRow r.src.toNat (bufLen r.p2) s = _ at e
      have e2 : (oddRow r.src.toNat (bufLen r.p2) s).2.phase = .odd := by rw [e]; exact hph.1
      simp only [resume, e2]
      by_cases h0 : (oddRow r.src.toNat (bufLen r.p2) s).1 = 0
      · rw [if_pos h0] at h ⊢
        refine ih _ ?_ ?_ ?_ ?_ ?_ ?_ h
        · rw [e]; rw [hph.1] at hf; simp only [packMeasure, afterOddRow, afterBus, loadOddRow] at *; omega
        · rw [e]; exact hp
        · rw [e]; exact hb
        · rw [e]; exact hr
        · rw [e]; exact hx
        · rw [e]; change s.cur + (bufLen r.p2 - 1) ≤ _; omega
      · rw [if_neg h0] at h ⊢; exact h

/-! ### Ends -/

theorem finish_steps (op r st p) (s : State) (hb : s.busy = true) (hr : s.req = some r) : BusySteps
    (goto op (.finish st p) s) (finish st false p s) :=
  BusySteps.tick hb hr rfl (BusySteps.refl _)

/-- R112: the steps of INIT are `initLoop`. -/
theorem init_steps (r) (l : List InitFrame) (acc) : ∀ (s : State), s.busy = true → s.req = some r → 
   BusySteps (initNext .init l acc s) (endInit (initLoop l acc s)) := by
  induction l generalizing acc with
  | nil =>
    intro s hb hr
    refine BusySteps.tick hb hr rfl ?_
    exact finish_steps .init r acc false (settle s) hb hr
  | cons f l ih =>
    intro s hb hr
    simp only [initNext]
    refine cmd_steps .init r _ f.opcode f.args s _ hb hr ?_
    simp only [resume, initLoop]
    rw [framedCmd_eq]
    exact ih _ (forgetWindow f.opcode (afterBus s _ 1 0)) hb hr

end Sys2Proof.Machine
end

