-- ==== Sys2Proof/Laws/SourceRace.lean ====
section
/-! SUPPORT. What a HOST write does to the copies PP holds of the Byte it writes (20_memory.md R54, R56). -/

namespace Sys2Proof.Machine

/-! ### What is redrawn, and what stays -/

theorem refuseNibbles_length (m f) (row : List Byte) : (refuseNibbles m f row).length = row.length := by
  induction m generalizing row with
  | zero => rcases row with _ | ⟨a, _ | ⟨b, row⟩⟩ <;> rfl
  | succ m ih => rcases row with _ | ⟨a, row⟩ <;> simp [refuseNibbles, ih]

theorem redrawArg_length (r j f site bytes) : (redrawArg r j f site bytes).length = bytes.length := by
  unfold redrawArg; split <;> simp

/-- R87: the marker of a frame of SEND_CMD is no argument. -/
theorem redrawArg_head {r j} (f) {site bytes} (h : ArgsOk r site bytes) : (redrawArg r j f site bytes).head? =
    bytes.head? := by
  unfold redrawArg
  split
  · next hs =>
    have := h hs.1
    obtain ⟨k, hk⟩ : ∃ k, bytes.length - (r.len.toNat - j) = k + 1 := ⟨bytes.length - (r.len.toNat - j) - 1, by omega⟩
    rw [hk]
    cases bytes <;> rfl
  · rfl

theorem redrawBuffer_frame (site source i j f s) : ∃ scratch carry, scratch.length = s.scratch.length ∧
    redrawBuffer site source i j f s = { s with scratch := scratch, carry := carry } := by
  cases source
  · exact ⟨_, _, rfl, rfl⟩
  · simp only [redrawBuffer]
    split
    · cases rowInBuffer site s
      · exact ⟨_, _, by simp [clearLastLow_length], rfl⟩
      · exact ⟨_, _, refuseNibbles_length .., rfl⟩
      · exact ⟨_, _, by simp [clearLastLow_length], rfl⟩
    · exact ⟨_, _, rfl, rfl⟩
  · exact ⟨_, _, rfl, rfl⟩

theorem redrawAt_frame (op pos r j f s) : ∃ seq scratch carry, scratch.length = s.scratch.length ∧
    redrawAt op pos r j f s = { s with seq := seq, scratch := scratch, carry := carry } := by
  have buf : ∀ site source i, ∃ seq scratch carry, scratch.length = s.scratch.length ∧
      redrawBuffer site source i j f s = { s with seq := seq, scratch := scratch, carry := carry } := by
    intro site source i
    obtain ⟨sc, ca, h1, h2⟩ := redrawBuffer_frame site source i j f s
    exact ⟨s.seq, sc, ca, h1, h2⟩
  cases pos
  case dataOpen => exact buf ..
  case dataMark => exact buf ..
  case dataNext => exact buf ..
  all_goals exact ⟨_, _, _, rfl, rfl⟩

/-- A source race changes SEQ, the row buffer and the carry, and no length. -/
theorem redraw_frame (a f s) : ∃ seq scratch carry, scratch.length = s.scratch.length ∧
    redraw a f s = { s with seq := seq, scratch := scratch, carry := carry } := by
  unfold redraw
  split
  · exact ⟨_, _, _, rfl, rfl⟩
  · exact ⟨_, _, _, rfl, rfl⟩
  · split
    · exact ⟨_, _, _, rfl, rfl⟩
    · exact redrawAt_frame ..

/-- R56: what a HOST write in the range of the running request comes to. -/
theorem hostWrite_raced {s : State} {a b} {r : Req} (hr : s.req = some r) (ha : a < 2 ^ s.cfg.addrBits)
    (hb : s.busy = true)
    (hu : usesSource r.op = true) (h1 : r.src.toNat ≤ a) (h2 : a < r.src.toNat + r.len.toNat) :
    hostWrite a b s = .next (redraw a (Config.racedByte (s.raceNo + 1) a) { s with
      mem := s.mem.write a b, fault := addSourceRace s.fault, raced := a :: s.raced, raceNo := s.raceNo + 1 }) := by
  have hx : addressExists a s = true := by simp [addressExists, ha]
  have : inRunningRange a s = true := by simp [inRunningRange, hr, hb, hu, h1, h2]
  simp only [hostWrite, hx, this, if_true]

/-! ### A redrawn row is the row of the redrawn Byte -/

theorem clearLastLow_set (l : List Byte) (m f) : clearLastLow ((clearLastLow l).set m f) = clearLastLow (l.set m f) := by
  have idem : ∀ b : Byte, b &&& (0xF0 : Byte) &&& (0xF0 : Byte) = b &&& (0xF0 : Byte) := by intro b; rw [BitVec.and_assoc]; rfl
  have id2 : ∀ l, clearLastLow (clearLastLow l) = clearLastLow l := by
    intro l
    induction l using clearLastLow.induct with
    | case1 => rfl
    | case2 b => simp only [clearLastLow, idem]
    | case3 a b row ih =>
      cases hc : clearLastLow (b :: row) with
      | nil => have := congrArg List.length hc; simp [clearLastLow_length] at this
      | cons x xs => simp only [clearLastLow, hc] at ih ⊢; rw [ih]
  induction l using clearLastLow.induct generalizing m with
  | case1 => rfl
  | case2 b => cases m <;> simp only [clearLastLow, idem, List.set_cons_zero, List.set_cons_succ, List.set_nil]
  | case3 a b row ih =>
    cases hc : clearLastLow (b :: row) with
    | nil => have := congrArg List.length hc; simp [clearLastLow_length] at this
    | cons x xs =>
      cases m with
      | zero =>
        have := id2 (b :: row)
        rw [hc] at this
        simp only [clearLastLow, hc, List.set_cons_zero]; rw [this]
      | succ m =>
        have := ih m
        rw [hc] at this
        simp only [clearLastLow, hc, List.set_cons_succ]
        cases m with
        | zero => simp only [List.set_cons_zero] at this ⊢; simp only [clearLastLow]; rw [this]
        | succ m => simp only [List.set_cons_succ] at this ⊢; simp only [clearLastLow]; rw [this]

theorem high_of_fused (a b : Byte) : (a <<< 4 ||| b >>> 4) &&& (0xF0 : Byte) = a <<< 4 := by
  have h1 : ∀ a : Byte, (a <<< 4) &&& (0xF0 : Byte) = a <<< 4 := by decide
  have h2 : ∀ b : Byte, (b >>> 4) &&& (0xF0 : Byte) = 0 := by decide
  rw [BitVec.and_comm, BitVec.and_or_distrib_left, BitVec.and_comm _ (a <<< 4), BitVec.and_comm _ (b >>> 4), h1, h2]
  simp

theorem low_of_fused (a b : Byte) : (a <<< 4 ||| b >>> 4) &&& (0x0F : Byte) = b >>> 4 := by
  have h1 : ∀ a : Byte, (a <<< 4) &&& (0x0F : Byte) = 0 := by decide
  have h2 : ∀ b : Byte, (b >>> 4) &&& (0x0F : Byte) = b >>> 4 := by decide
  rw [BitVec.and_comm, BitVec.and_or_distrib_left, BitVec.and_comm _ (a <<< 4), BitVec.and_comm _ (b >>> 4), h1, h2]
  simp

/-- R103: the fused row with another fresh Byte. -/
theorem refuse_fuse (m : Nat) (f) : ∀ l : List Byte, m + 1 < l.length → refuseNibbles m f (fuseNibbles l) =
    fuseNibbles (l.set (m + 1) f) := by
  have h1 : ∀ f : Byte, (f <<< 4) &&& (0xF0 : Byte) = f <<< 4 := by decide
  have h2 : ∀ b : Byte, (b <<< 4) &&& (0x0F : Byte) = 0 := by decide
  induction m with
  | zero =>
    intro l hl
    rcases l with _ | ⟨a, _ | ⟨b, _ | ⟨c, row⟩⟩⟩
    · simp at hl
    · simp at hl
    · simp only [fuseNibbles, refuseNibbles, List.set_cons_succ, List.set_cons_zero, high_of_fused, h1, h2]; simp
    · simp only [fuseNibbles, refuseNibbles, List.set_cons_succ, List.set_cons_zero, high_of_fused, low_of_fused]
  | succ m ih =>
    intro l hl
    rcases l with _ | ⟨a, _ | ⟨b, row⟩⟩
    · simp at hl
    · simp at hl
    · have := ih (b :: row) (by simpa using hl)
      simp only [fuseNibbles, refuseNibbles, List.set_cons_succ] at this ⊢
      rw [this]

theorem carryOf_set (l : List Byte) (m f) (h : m < l.length) :
    carryOf (l.set m f) = if m + 1 = l.length then carryOf [f] else carryOf l := by
  unfold carryOf
  rw [List.getLastD_eq_getLast?, List.getLast?_eq_getElem?, List.length_set]
  split
  · next e => rw [show l.length - 1 = m by omega]; simp [h]
  · next e => rw [List.getElem?_set_ne (by omega), List.getLastD_eq_getLast?, List.getLast?_eq_getElem?]

/-- R102 to R104: redrawing a Byte of a loaded row is loading the row with that Byte. -/
theorem redrawRow_load {row : RowKind} {bytes : List Byte} {s u : State} {m : Nat} (f)
    (hs : s.scratch = (loadRow row bytes u).scratch)
    (hc : s.carry = (loadRow row bytes u).carry) (hm : m < bytes.length) :
    (redrawRow row m f s).scratch = (loadRow row (bytes.set m f) u).scratch ∧
      (redrawRow row m f s).carry = (loadRow row (bytes.set m f) u).carry := by
  cases row
  · simp only [loadRow, loadEvenRow] at hs hc
    simp only [redrawRow, loadRow, loadEvenRow, hs, hc, clearLastLow_set, clearLastLow_length, carryOf_set _ _ _ hm]
    exact ⟨trivial, trivial⟩
  · simp only [loadRow, loadOddRow] at hs hc
    simp only [redrawRow, loadRow, loadOddRow, hs, hc]
    exact ⟨by rw [refuse_fuse _ _ _ (by simpa using hm)]; rfl, trivial⟩
  · simp only [loadRow, loadTerminalRow] at hs hc
    simp only [redrawRow, loadRow, loadTerminalRow, hs, hc, clearLastLow_set]
    exact ⟨trivial, trivial⟩

/-- R87: redrawing an argument among those left to write. -/
theorem redrawArg_drop {r : Req} {j : Nat} (f) {args : List Byte} (c : Config) (o : Byte) (k : Nat)
    (ha : args.length = r.len.toNat)
    (hj : j < r.len.toNat) :
    redrawArg r j f .sendCmd ((cmdBytes c o args).drop k) = (cmdBytes c o (args.set j f)).drop k := by
  have e : cmdBytes c o (args.set j f) = (cmdBytes c o args).set (j + 2) f := rfl
  have hl : (cmdBytes c o args).length = r.len.toNat + 2 := by rw [← ha]; rfl
  unfold redrawArg
  rw [e, List.length_drop, hl, List.drop_set]
  split
  · next h =>
    rw [if_neg (by omega), show r.len.toNat + 2 - k - (r.len.toNat - j) = j + 2 - k by omega]
  · next h => rw [if_pos (by simp only [true_and] at h; omega)]

end Sys2Proof.Machine
end

