-- ==== Sys2Proof/Laws/Invariant.lean ====
section
/-! SUPPORT. How each step of R7 keeps the invariant of the block, and what it leaves alone. -/

namespace Sys2Proof.Machine

/-! ### The parts of the invariant -/

/-- The invariant but for SEQ, with the view of the bus named. -/
structure BlockOk (s : State) (v : BusView) : Prop where
  memCanonical : s.mem.wf = true
  memInside : s.mem.below (2 ^ s.cfg.addrBits) = true
  resultReserved : reservedField s.result = 0
  resultStatus : StatusFits s.cfg (statusField s.result)
  cntWidth : s.cnt ≤ s.cfg.p
  curWidth : s.cur < 2 ^ 16
  scratchWidth : s.scratch.length ≤ 128
  sess : s.session = sessionOfView v
  bus : s.fault.resetMidOperation = false → busRun s.cfg .between s.trace = some v

theorem BlockOk.inv {s v} (h : BlockOk s v) (h2 : SeqOk s v) : Inv s :=
  ⟨h.1, h.2, h.3, h.4, h.5, h.6, h.7, v, h2, h.8, h.9⟩

theorem BlockOk.emit {s v v' e} (h : BlockOk s v) (hn : busNext s.cfg v e = some v') {t : State}
  (hm : t.mem = s.mem) (hc : t.cfg = s.cfg) (hr : t.result = s.result) (hcnt : t.cnt ≤ s.cfg.p) (hcur : t.cur = s.cur) (hs : t.scratch = s.scratch)
  (hf : t.fault = s.fault) (ht : t.trace = s.trace ++ [e]) (hse : t.session = sessionOfView v') : BlockOk t v' := by
  refine ⟨by rw [hm]; exact h.1, by rw [hm, hc]; exact h.2, by rw [hr]; exact h.3, by rw [hr, hc]; exact h.4, by rw [hc]; exact hcnt, by rw [hcur]; exact h.6, by rw [hs]; exact h.7, hse, ?_⟩
  rw [hf, hc, ht, busRun_append]
  intro hh
  rw [h.9 hh]
  simp [busRun, hn]

theorem BlockOk.same {s v} (h : BlockOk s v) {t : State}
  (hm : t.mem = s.mem) (hc : t.cfg = s.cfg) (hr : t.result = s.result) (hcnt : t.cnt = s.cnt) (hcur : t.cur < 2^16) (hs : t.scratch.length ≤ 128)
  (hf : t.fault = s.fault) (ht : t.trace = s.trace) (hse : t.session = s.session) : BlockOk t v := by
  refine ⟨by rw [hm]; exact h.1, by rw [hm, hc]; exact h.2, by rw [hr]; exact h.3, by rw [hr, hc]; exact h.4, by rw [hc, hcnt]; exact h.5, hcur, hs, hse.trans h.8, ?_⟩
  rw [hf, hc, ht]; exact h.9

theorem BlockOk.goto {s v} (h : BlockOk s v) (op pos) : BlockOk (goto op pos s) v := h.same rfl rfl rfl rfl h.6 h.7 rfl rfl rfl

theorem BlockOk.cols {s v} (h : BlockOk s v) (a b st) : BlockOk (updateCols a b st s) v := by
  rw [updateCols_eq]; exact h.same rfl rfl rfl rfl h.6 h.7 rfl rfl rfl

theorem BlockOk.rows {s v} (h : BlockOk s v) (a b st) : BlockOk (updateRows a b st s) v := by
  rw [updateRows_eq]; exact h.same rfl rfl rfl rfl h.6 h.7 rfl rfl rfl

theorem BlockOk.forget {s v} (h : BlockOk s v) (o) : BlockOk (forgetWindow o s) v := h.same rfl rfl rfl rfl h.6 h.7 rfl rfl rfl

theorem statusFits_closeStatus (s : State) (n) : StatusFits s.cfg (closeStatus s n) := by
  simp only [StatusFits, closeStatus, statusOnPort, BitVec.toNat_ofNat]
  exact Nat.lt_of_le_of_lt (Nat.mod_le _ _) (Nat.mod_lt _ (Nat.two_pow_pos _))

theorem statusFits_or {c : Config} {a b : Status} (ha : StatusFits c a) (hb : StatusFits c b) : StatusFits c
    (a ||| b) := by
  simp only [StatusFits, BitVec.toNat_or] at *; exact Nat.or_lt_two_pow ha hb

theorem statusFits_zero (c) : StatusFits c 0 := by simp [StatusFits, Nat.two_pow_pos]

/-- REQ holds the request that runs. -/
def Running (s : State) (op : Op) (r : Req) : Prop := s.busy = true ∧ s.req = some r ∧ ∃ i, requestOf r = some i ∧ i.op = op ∧ i.wf s.cfg = true

theorem seqOk_goto {s v op r pos} (h : Running s op r) (hp : PosOk op r (goto op pos s) v pos) : SeqOk
    (goto op pos s) v := by
  obtain ⟨h1, h2, i, h3, h4, h5⟩ := h
  exact ⟨h1, r, i, h2, h3, h4, h5, hp⟩

/-- The invariant, by its parts. -/
def BlockGood (s : State) : Prop := ∃ v, BlockOk s v ∧ SeqOk s v

theorem BlockGood.inv {s} (h : BlockGood s) : Inv s := by obtain ⟨v, a, b⟩ := h; exact a.inv b

theorem good_goto {s v op r pos} (hb : BlockOk s v) (h : Running s op r)
    (hp : PosOk op r (goto op pos s) v pos) : BlockGood (goto op pos s) :=
  ⟨v, hb.goto _ _, seqOk_goto h hp⟩

/-! ### The statements between two steps -/

theorem good_gatherRow {s r row got} (hb : BlockOk s .between) (h : Running s .render r) (hf : RowFits row r s)
    (hg : got.length ≤ rowNeeds row r s)
   (hph : match row with | .even => s.phase = .even | .odd => s.phase = .odd | .terminal => True) : BlockGood
    (gatherRow .render r row got s) := by
  unfold gatherRow
  have hbl : bufLen r.p2 ≤ 128 := by unfold bufLen; have := r.p2.isLt; omega
  split
  · next hlt => 
    refine good_goto hb h ⟨rfl, rfl, ?_, ?_, ?_⟩
    · cases row <;> exact hlt
    · cases row <;> exact hf
    · cases row <;> exact hph
  · next hlt =>
    obtain ⟨f1, f2, f3⟩ := hf
    have hload : BlockOk (loadRow row got s) .between := by
      cases row
      · exact hb.same rfl rfl rfl rfl hb.6 (by simp only [loadRow, loadEvenRow, clearLastLow_length]; omega) rfl rfl rfl
      · exact hb.same rfl rfl rfl rfl hb.6 (by simp only [loadRow, loadOddRow, fuseNibbles_length, List.length_cons]; simp only [rowNeeds] at hg; unfold bufLen at *; omega) rfl rfl rfl
      · exact hb.same rfl rfl rfl rfl hb.6 (by simp only [loadRow, loadTerminalRow, clearLastLow_length]; omega) rfl rfl rfl
    have hrun : Running (loadRow row got s) .render r := by cases row <;> exact h
    refine good_goto hload hrun ⟨rfl, Nat.zero_le _, ?_, rfl, rfl⟩
    cases row
    · have e : s.phase = .even := hph
      refine ⟨rfl, f1, ?_⟩
      change match s.phase with | .even => s.cur + bufLen r.p2 ≤ r.len.toNat | .odd => _
      rw [e]; exact f2
    · have e : s.phase = .odd := hph
      refine ⟨rfl, f1, ?_⟩
      change match s.phase with | .even => _ | .odd => s.cur + (bufLen r.p2 - 1) ≤ r.len.toNat
      rw [e]; exact f2
    · trivial

theorem good_packNext {s r} (hb : BlockOk s .between) (h : Running s .render r) (hodd : r.p2.toNat % 2 = 1)
    (hcur : s.cur ≤ r.len.toNat) : BlockGood (packNext .render r s) := by
  unfold packNext
  cases hn : nextRow (bufLen r.p2) r.len.toNat s with
  | terminal =>
    simp only
    split
    · exact good_goto hb h ⟨rfl, statusFits_zero _, by simp⟩
    · refine good_gatherRow hb h ⟨hodd, by simp only [rowNeeds]; omega, ?_⟩ (Nat.zero_le _) trivial
      simp only [rowNeeds]
      simp only [nextRow] at hn; split at hn <;> split at hn <;> simp at hn <;> omega
  | even =>
    have hph : s.phase = .even ∧ ¬ r.len.toNat - s.cur < bufLen r.p2 := by
      simp only [nextRow] at hn; split at hn <;> split at hn <;> simp at hn; next h1 h2 => exact ⟨h1, h2⟩
    exact good_gatherRow hb h ⟨hodd, by simp only [rowNeeds]; omega, Nat.le_refl _⟩ (Nat.zero_le _) hph.1
  | odd =>
    have hph : s.phase = .odd ∧ ¬ r.len.toNat - s.cur + 1 < bufLen r.p2 := by
      simp only [nextRow] at hn; split at hn <;> split at hn <;> simp at hn; next h1 h2 => exact ⟨h1, by omega⟩
    exact good_gatherRow hb h ⟨hodd, by simp only [rowNeeds]; omega, by simp only [rowNeeds]; omega⟩ (Nat.zero_le _) hph.1

theorem good_initNext {s r} (l acc) (hb : BlockOk s .between) (h : Running s .init r)
    (hf : StatusFits s.cfg acc) : BlockGood (initNext .init l acc s) := by
  cases l with
  | nil => exact good_goto hb h ⟨rfl, rfl, hf⟩
  | cons f l => exact good_goto hb h ⟨rfl, rfl, nofun, rfl, hf⟩

theorem run_cols {s op r} (h : Running s op r) (a b st) : Running (updateCols a b st s) op r := by rw [updateCols_eq]; exact h

theorem run_rows {s op r} (h : Running s op r) (a b st) : Running (updateRows a b st s) op r := by rw [updateRows_eq]; exact h

theorem run_forget {s op r} (h : Running s op r) (o) : Running (forgetWindow o s) op r := h

theorem updateCols_keeps_cfg (a b st s) : (updateCols a b st s).cfg = s.cfg := by rw [updateCols_eq]

theorem updateRows_keeps_cfg (a b st s) : (updateRows a b st s).cfg = s.cfg := by rw [updateRows_eq]

theorem good_resume {s op r site st} (hb : BlockOk s .between) (h : Running s op r) (hs : SiteOk op r s site)
    (hf : StatusFits s.cfg st) : BlockGood (resume op r site st s) := by
  have fin : ∀ t, BlockOk t .between → Running t op r → t.cfg = s.cfg → BlockGood (goto op (.finish st false) t) := by
    intro t a b c
    refine good_goto a b ⟨rfl, ?_, by simp⟩
    change StatusFits t.cfg st; rw [c]; exact hf
  cases site with
  | last => exact fin _ hb h rfl
  | sendCmd => exact fin _ (hb.forget _) (run_forget h _) rfl
  | setCol => exact fin _ (hb.cols ..) (run_cols h ..) (updateCols_keeps_cfg ..)
  | setRow => exact fin _ (hb.rows ..) (run_rows h ..) (updateRows_keeps_cfg ..)
  | rangeCol =>
    refine good_goto (hb.cols ..) (run_cols h ..) ⟨rfl, ?_, nofun, hs, ?_⟩
    · change _ = some (updateCols _ _ _ _).cfg.ctrlCmd; rw [updateCols_keeps_cfg]; rfl
    · change StatusFits (updateCols _ _ _ _).cfg st; rw [updateCols_keeps_cfg]; exact hf
  | rangeRow st1 =>
    refine good_goto (hb.rows ..) (run_rows h ..) ⟨rfl, ?_, by simp⟩
    change StatusFits (updateRows _ _ _ _).cfg _; rw [updateRows_keeps_cfg]; exact statusFits_or hs.2 hf
  | renderRow =>
    simp only [resume]; split
    · refine good_goto (hb.rows ..) (run_rows h ..) ⟨rfl, ?_, nofun, hs⟩
      change _ = some (updateRows _ _ _ _).cfg.ctrlCmd; rw [updateRows_keeps_cfg]; rfl
    · exact fin _ (hb.rows ..) (run_rows h ..) (updateRows_keeps_cfg ..)
  | renderCol =>
    simp only [resume]; split
    · refine good_goto (hb.cols ..) (run_cols h ..) ⟨rfl, ?_, nofun, hs⟩
      change _ = some (updateCols _ _ _ _).cfg.ctrlCmd; rw [updateCols_keeps_cfg]; rfl
    · exact fin _ (hb.cols ..) (run_cols h ..) (updateCols_keeps_cfg ..)
  | renderLine =>
    have hop : op = .render := hs
    subst hop
    simp only [resume]; split
    · simp only [packBegin]; split
      · exact good_goto hb h ⟨rfl, Nat.zero_le _, trivial, .inr rfl, rfl⟩
      · refine good_packNext (s := startPack s) (hb.same rfl rfl rfl rfl (by simp [startPack]) hb.7 rfl rfl rfl) h (by omega) (Nat.zero_le _)
    · exact fin _ hb h rfl
  | packRow =>
    obtain ⟨hop, hodd, hcur⟩ := hs
    subst hop
    have hl := r.len.isLt
    simp only [resume]
    cases hph : s.phase with
    | even =>
      rw [hph] at hcur; simp only at hcur ⊢
      have b : BlockOk (afterEvenRow (bufLen r.p2) s) .between := hb.same rfl rfl rfl rfl (by simp only [afterEvenRow]; omega) hb.7 rfl rfl rfl
      split
      · exact good_packNext b h hodd hcur
      · exact fin _ b h rfl
    | odd =>
      rw [hph] at hcur; simp only at hcur ⊢
      have b : BlockOk (afterOddRow (bufLen r.p2) s) .between := hb.same rfl rfl rfl rfl (by simp only [afterOddRow]; omega) hb.7 rfl rfl rfl
      split
      · exact good_packNext b h hodd hcur
      · exact fin _ b h rfl
  | initFrame o rest acc =>
    obtain ⟨hop, hacc⟩ := hs
    subst hop
    exact good_initNext _ _ (hb.forget _) (run_forget h _) (statusFits_or hacc hf)

theorem siteOk_congr {op r s t site} (h1 : t.cfg = s.cfg) (h2 : t.phase = s.phase) (h3 : t.cur = s.cur)
    (h : SiteOk op r s site) : SiteOk op r t site := by
  cases site <;> simp only [SiteOk, h1, h2, h3] at * <;> exact h

theorem run_close {s op r} (h : Running s op r) : Running (tClose s).2 op r := h

/-- R43: the source range of a running request is inside SM. -/
theorem run_range {s op r} (h : Running s op r) (hop : op = .sendCmd ∨ op = .sendData ∨ op = .render) :
    ∀ i < r.len.toNat, addressExists (r.src.toNat + i) s = true := by
  obtain ⟨_, _, i, h1, h2, h3⟩ := h
  have hr : rangeInsideSM s.cfg r.src r.len = true := by
    unfold requestOf at h1
    split at h1 <;> simp at h1 <;> subst h1 <;> simp [Instr.op] at h2 <;> subst h2 <;> simp at hop <;> simp [Instr.wf] at h3 <;> simp [h3]
  intro i hi
  simp [rangeInsideSM] at hr; simp [addressExists]; omega

theorem tClose_blockOk {s : State} {k n} (h : BlockOk s (.inside k n)) : BlockOk (tClose s).2 .between :=
  h.emit (e := .closed (closeStatus s 0)) (by cases k <;> rfl) rfl rfl rfl h.5 rfl rfl rfl rfl rfl

/-- Every step of a running request answers, and keeps the invariant. -/
theorem stepAt_good {s op r pos v} (hw : s.cfg.wf = true) (hb : BlockOk s v) (h : Running s op r)
    (hp : PosOk op r s v pos) :
   ∃ t, stepAt op pos r s = .next t ∧ BlockGood t := by
  have hpp := one_le_p _ hw
  cases pos with
  | argByte got =>
    obtain ⟨rfl, rfl, hg⟩ := hp
    have hx := run_range h (.inl rfl) got.length hg
    refine ⟨_, by simp only [stepAt, readStep, if_pos hx]; rfl, ?_⟩
    simp only [gatherArgs]; split
    · next hlt => exact good_goto hb h ⟨rfl, rfl, hlt⟩
    · next hlt =>
      exact good_goto hb h ⟨rfl, rfl, fun _ => by simp [cmdBytes] at hlt ⊢; omega, rfl⟩
  | cmdOpen site bytes =>
    obtain ⟨rfl, hh, ha, hs⟩ := hp
    refine ⟨_, rfl, ?_⟩
    refine good_goto (s := tOpen .cmd s) (v := .fresh .cmd) (hb.emit (e := .opened .cmd) rfl rfl rfl rfl (Nat.zero_le _) rfl rfl rfl rfl rfl) h ⟨siteOk_congr rfl rfl rfl hs, .inl ⟨rfl, hh, ha⟩⟩
  | cmdNext site bytes =>
    obtain ⟨hs, hv⟩ := hp
    cases bytes with
    | nil =>
      rcases hv with ⟨_, h0, _⟩ | ⟨n, rfl⟩
      · simp at h0
      · refine ⟨_, rfl, ?_⟩
        exact good_resume (s := (tClose s).2) (tClose_blockOk hb) h (siteOk_congr rfl rfl rfl hs) (statusFits_closeStatus s 0)
    | cons b bytes =>
      refine ⟨_, rfl, ?_⟩
      rcases hv with ⟨rfl, h0, _⟩ | ⟨n, rfl⟩
      · simp at h0; subst h0
        exact good_goto (s := tWrite s.cfg.ctrlCmd s) (v := .inside .cmd 0) (hb.emit (e := .wrote s.cfg.ctrlCmd) (by simp [busNext]) rfl rfl rfl hb.5 rfl rfl rfl rfl hb.8) h ⟨siteOk_congr rfl rfl rfl hs, .inr ⟨0, rfl⟩⟩
      · exact good_goto (s := tWrite b s) (v := .inside .cmd (n+1)) (hb.emit (e := .wrote b) (by simp [busNext]) rfl rfl rfl hb.5 rfl rfl rfl rfl hb.8) h ⟨siteOk_congr rfl rfl rfl hs, .inr ⟨_, rfl⟩⟩
  | dataOpen site source i n =>
    obtain ⟨rfl, hi, hs, hso⟩ := hp
    refine ⟨_, rfl, ?_⟩
    exact good_goto (s := tOpen .data s) (v := .fresh .data) (hb.emit (e := .opened .data) rfl rfl rfl rfl (Nat.zero_le _) rfl rfl rfl rfl rfl) h ⟨rfl, rfl, hi, siteOk_congr rfl rfl rfl hs, by cases source <;> exact hso⟩
  | dataMark site source i n =>
    obtain ⟨rfl, hc, hi, hs, hso⟩ := hp
    refine ⟨_, rfl, ?_⟩
    refine good_goto (s := tWrite s.cfg.ctrlData s) (v := .inside .data 0) (hb.emit (e := .wrote s.cfg.ctrlData) (by simp [busNext]) rfl rfl rfl hb.5 rfl rfl rfl rfl hb.8) h ⟨?_, hi, siteOk_congr rfl rfl rfl hs, by cases source <;> exact hso⟩
    change _ = BusView.inside .data s.cnt; rw [hc]
  | dataNext site source i n =>
    obtain ⟨rfl, hi, hs, hso⟩ := hp
    simp only [stepAt, dataStep]
    by_cases h1 : n ≤ i
    · rw [if_pos h1]
      exact ⟨_, rfl, good_resume (s := (tClose s).2) (tClose_blockOk hb) h (siteOk_congr rfl rfl rfl hs) (statusFits_closeStatus s 0)⟩
    · rw [if_neg h1]
      by_cases h2 : s.cnt = s.cfg.p
      · rw [if_pos h2]
        refine ⟨_, rfl, ?_⟩
        split
        · exact good_goto (s := (tClose s).2) (tClose_blockOk hb) h ⟨rfl, hi, siteOk_congr rfl rfl rfl hs, by cases source <;> exact hso⟩
        · exact good_resume (s := (tClose s).2) (tClose_blockOk hb) h (siteOk_congr rfl rfl rfl hs) (statusFits_closeStatus s 0)
      · rw [if_neg h2]
        have hlt : s.cnt < s.cfg.p := by have := hb.5; omega
        have wr : ∀ b, BlockOk (tWritePayload b s) (.inside .data (s.cnt+1)) := fun b =>
          hb.emit (e := .wrote b) (by simp [busNext, hlt]) rfl rfl rfl hlt rfl rfl rfl rfl hb.8
        cases source with
        | sourceMemory =>
          have hx := run_range h (by rcases hso.1 with h | h; exact .inr (.inl h); exact .inr (.inr h)) i (by have := hso.2; omega)
          simp only [readStep, if_pos hx]
          exact ⟨_, rfl, good_goto hb h ⟨rfl, hlt, by omega, hs, hso⟩⟩
        | rowBuffer => exact ⟨_, rfl, good_goto (s := tWritePayload _ s) (wr _) h ⟨rfl, by omega, siteOk_congr rfl rfl rfl hs, hso⟩⟩
        | zeros => exact ⟨_, rfl, good_goto (s := tWritePayload _ s) (wr _) h ⟨rfl, by omega, siteOk_congr rfl rfl rfl hs, hso⟩⟩
  | dataPut site source i n b =>
    obtain ⟨rfl, hlt, hi, hs, hso⟩ := hp
    refine ⟨_, rfl, ?_⟩
    refine good_goto (s := tWritePayload b s) (v := .inside .data (s.cnt+1)) (hb.emit (e := .wrote b) (by simp [busNext, hlt]) rfl rfl rfl hlt rfl rfl rfl rfl hb.8) h ⟨rfl, by omega, siteOk_congr rfl rfl rfl hs, by cases source <;> exact hso⟩
  | rowByte row got =>
    obtain ⟨rfl, rfl, hg, hf, hph⟩ := hp
    have hx := run_range h (.inr (.inr rfl)) (s.cur + got.length) (by have := hf.2.1; omega)
    rw [← Nat.add_assoc] at hx
    refine ⟨_, by simp only [stepAt, readStep, if_pos hx]; rfl, ?_⟩
    exact good_gatherRow hb h hf (by simp; omega) hph
  | hwReset =>
    obtain ⟨rfl, rfl⟩ := hp
    refine ⟨_, rfl, ?_⟩
    have b : BlockOk (tHwReset s).2 .between := hb.emit (e := .pulsed (hwAnswer s)) rfl rfl rfl rfl hb.5 rfl rfl rfl rfl hb.8
    refine good_goto (r := r) (s := afterHwReset (tHwReset s)) (v := .between) ?_ ?_ ⟨rfl, statusFits_zero _, fun _ => rfl⟩
    · simp only [afterHwReset]; split
      · exact b.same rfl rfl rfl rfl b.6 b.7 rfl rfl rfl
      · exact b
    · simp only [afterHwReset]; split <;> exact h
  | settle acc =>
    obtain ⟨rfl, rfl, hf⟩ := hp
    refine ⟨_, rfl, ?_⟩
    exact good_goto (s := settle s) (v := .between) (hb.emit (e := .settled) rfl rfl rfl rfl hb.5 rfl rfl rfl rfl hb.8) h ⟨rfl, hf, by simp⟩
  | finish st pulsed =>
    obtain ⟨rfl, hf, hpl⟩ := hp
    refine ⟨_, rfl, .between, ?_, rfl, rfl⟩
    exact ⟨hb.1, hb.2, (flags_resultWord ..).2.2, by simp only [finish, statusField_resultWord]; exact hf, hb.5, hb.6, hb.7, hb.8, hb.9⟩

/-- R56: a source race keeps the invariant. -/
theorem redraw_inv {s : State} (a f) (hi : Inv s) : Inv (redraw a f s) := by
  obtain ⟨m1, m2, r1, r2, c1, c2, w, v, h1, h2, h3⟩ := hi
  have hb : BlockOk s v := ⟨m1, m2, r1, r2, c1, c2, w, h2, h3⟩
  unfold redraw
  cases hs : s.seq with
  | idle => exact hb.inv h1
  | rejecting _ => exact hb.inv h1
  | run op pos =>
    have h1' := h1
    simp only [SeqOk, hs] at h1
    obtain ⟨k1, r, i, k2, k3, k4, k5, k6⟩ := h1
    simp only [k2]
    have hrun : Running s op r := ⟨k1, k2, i, k3, k4, k5⟩
    have buf : ∀ site source i, (∀ t : State, t.cfg = s.cfg → t.phase = s.phase → t.cur = s.cur → t.cnt = s.cnt →
        t.scratch.length = s.scratch.length → PosOk op r t v pos) →
        Inv (redrawBuffer site source i (a - r.src.toNat) f s) := by
      intro site source i' hp
      obtain ⟨sc, ca, e1, e2⟩ := redrawBuffer_frame site source i' (a - r.src.toNat) f s
      rw [e2]
      refine BlockOk.inv (hb.same rfl rfl rfl rfl hb.6 (by simp only; rw [e1]; exact hb.7) rfl rfl rfl) ?_
      unfold SeqOk
      simp only [hs]
      exact ⟨k1, r, i, k2, k3, k4, k5, hp _ rfl rfl rfl rfl e1⟩
    have src : ∀ (t : State) source n, t.scratch.length = s.scratch.length → SourceOk op r s source n → SourceOk op r t source n := by
      intro t source n e h
      cases source
      · exact h
      · exact ⟨h.1, h.2.trans e.symm⟩
      · exact h
    cases pos with
    | argByte got =>
      exact (good_goto (pos := .argByte (got.set _ f)) hb hrun ⟨k6.1, k6.2.1, by rw [List.length_set]; exact k6.2.2⟩).inv
    | cmdOpen site bytes =>
      obtain ⟨g1, g2, g3, g4⟩ := k6
      exact (good_goto (pos := .cmdOpen site (redrawArg r _ f site bytes)) hb hrun ⟨g1, (redrawArg_head f g3).trans g2, fun h => (redrawArg_length ..).trans (g3 h), g4⟩).inv
    | cmdNext site bytes =>
      obtain ⟨g1, g2⟩ := k6
      refine (good_goto (pos := .cmdNext site (redrawArg r _ f site bytes)) hb hrun ⟨g1, ?_⟩).inv
      rcases g2 with ⟨g2, g3, g4⟩ | g2
      · exact .inl ⟨g2, (redrawArg_head f g4).trans g3, fun h => (redrawArg_length ..).trans (g4 h)⟩
      · exact .inr g2
    | dataOpen site source i' n =>
      obtain ⟨g1, g2, g3, g4⟩ := k6
      exact buf _ _ _ fun t e1 e2 e3 e4 e5 => ⟨g1, g2, siteOk_congr e1 e2 e3 g3, src t _ _ e5 g4⟩
    | dataMark site source i' n =>
      obtain ⟨g1, g0, g2, g3, g4⟩ := k6
      exact buf _ _ _ fun t e1 e2 e3 e4 e5 => ⟨g1, e4.trans g0, g2, siteOk_congr e1 e2 e3 g3, src t _ _ e5 g4⟩
    | dataNext site source i' n =>
      obtain ⟨g1, g2, g3, g4⟩ := k6
      exact buf _ _ _ fun t e1 e2 e3 e4 e5 => ⟨by rw [e4]; exact g1, g2, siteOk_congr e1 e2 e3 g3, src t _ _ e5 g4⟩
    | dataPut site source i' n b => exact (good_goto (pos := .dataPut site source i' n _) hb hrun k6).inv
    | rowByte row got =>
      obtain ⟨g1, g2, g3, g4, g5⟩ := k6
      refine (good_goto (pos := .rowByte row (if s.cur ≤ a - r.src.toNat then got.set _ f else got)) hb hrun ⟨g1, g2, ?_, g4, g5⟩).inv
      have : (if s.cur ≤ a - r.src.toNat then got.set (a - r.src.toNat - s.cur) f else got).length = got.length := by
        split <;> simp
      rw [this]; exact g3
    | hwReset => exact hb.inv h1'
    | settle acc => exact hb.inv h1'
    | finish st p => exact hb.inv h1'

/-- The invariant does not read the fields of HOST and TRANSPORT. -/
theorem Inv.congr {s t : State} (h : Inv s) (hm : t.mem.wf = true)
    (hm2 : t.mem.below (2 ^ s.cfg.addrBits) = true) (h1 : t.cfg = s.cfg) (h2 : t.result = s.result)
    (h3 : t.cnt = s.cnt)
  (h4 : t.cur = s.cur) (h5 : t.scratch = s.scratch) (h6 : t.seq = s.seq) (h7 : t.busy = s.busy) (h8 : t.req = s.req) (h9 : t.session = s.session)
  (h10 : t.trace = s.trace) (h11 : t.fault.resetMidOperation = s.fault.resetMidOperation) (h12 : t.phase = s.phase) : Inv t := by
  obtain ⟨a, b, c, d', e, f, g, v, k1, k2, k3⟩ := h
  refine ⟨hm, by rw [h1]; exact hm2, by rw [h2]; exact c, by rw [h2, h1]; exact d', by rw [h3, h1]; exact e, by rw [h4]; exact f, by rw [h5]; exact g, v, ?_, by rw [h9]; exact k2, by rw [h11, h1, h10]; exact k3⟩
  unfold SeqOk at k1 ⊢
  rw [h6]
  cases hs : s.seq with
  | idle => simp only [hs] at k1 ⊢; rw [h7]; exact k1
  | rejecting _ => simp only [hs] at k1 ⊢; rw [h7]; exact k1
  | run op pos =>
    simp only [hs] at k1 ⊢
    obtain ⟨j1, r, i, j2, j3, j4, j5, j6⟩ := k1
    refine ⟨by rw [h7]; exact j1, r, i, by rw [h8]; exact j2, j3, j4, by rw [h1]; exact j5, ?_⟩
    have so : ∀ site, SiteOk op r s site → SiteOk op r t site := fun site h => siteOk_congr h1 h12 h4 h
    have sr : ∀ so n, SourceOk op r s so n → SourceOk op r t so n := by
      intro so n h; cases so <;> simp only [SourceOk, h5] at * <;> exact h
    cases pos <;> simp only [PosOk, h1, h3, h4, h12] at j6 ⊢
    case argByte => exact j6
    case cmdOpen => exact ⟨j6.1, j6.2.1, j6.2.2.1, so _ j6.2.2.2⟩
    case cmdNext => exact ⟨so _ j6.1, j6.2⟩
    case dataOpen => exact ⟨j6.1, j6.2.1, so _ j6.2.2.1, sr _ _ j6.2.2.2⟩
    case dataMark => exact ⟨j6.1, j6.2.1, j6.2.2.1, so _ j6.2.2.2.1, sr _ _ j6.2.2.2.2⟩
    case dataNext => exact ⟨j6.1, j6.2.1, so _ j6.2.2.1, sr _ _ j6.2.2.2⟩
    case dataPut => exact ⟨j6.1, j6.2.1, j6.2.2.1, so _ j6.2.2.2.1, sr _ _ j6.2.2.2.2⟩
    case rowByte row got =>
      have e : rowNeeds row r t = rowNeeds row r s := by cases row <;> simp [rowNeeds, h4]
      simp only [RowFits, e, h4] at j6 ⊢
      exact j6
    case hwReset => exact j6
    case settle => exact j6
    case finish => exact j6

/-! ### What a step leaves alone -/

/-- A statement that is no step: the configuration, the trace, FAULT, RESULT, BUSY and HOST's plan are the same. -/
structure Quiet (s t : State) : Prop where
  cfg : t.cfg = s.cfg
  trace : t.trace = s.trace
  fault : t.fault = s.fault
  result : t.result = s.result
  busy : t.busy = s.busy
  script : t.script = s.script

theorem Quiet.refl {s} : Quiet s s := ⟨rfl, rfl, rfl, rfl, rfl, rfl⟩

theorem Quiet.trans {s u t} (h : Quiet s u) (h2 : Quiet u t) : Quiet s t :=
  ⟨h2.cfg.trans h.cfg, h2.trace.trans h.trace, h2.fault.trans h.fault, h2.result.trans h.result, h2.busy.trans h.busy,
    h2.script.trans h.script⟩

theorem quiet_goto (op pos s) : Quiet s (goto op pos s) := ⟨rfl, rfl, rfl, rfl, rfl, rfl⟩

theorem quiet_cols (a b st s) : Quiet s (updateCols a b st s) := by rw [updateCols_eq]; exact ⟨rfl, rfl, rfl, rfl, rfl, rfl⟩

theorem quiet_rows (a b st s) : Quiet s (updateRows a b st s) := by rw [updateRows_eq]; exact ⟨rfl, rfl, rfl, rfl, rfl, rfl⟩

theorem quiet_forget (a s) : Quiet s (forgetWindow a s) := ⟨rfl, rfl, rfl, rfl, rfl, rfl⟩

theorem quiet_gatherArgs (op r got s) : Quiet s (gatherArgs op r got s) := by unfold gatherArgs; split <;> exact quiet_goto ..

theorem quiet_gatherRow (op r row got s) : Quiet s (gatherRow op r row got s) := by
  unfold gatherRow; split
  · exact quiet_goto ..
  · refine Quiet.trans ?_ (quiet_goto ..)
    cases row <;> exact ⟨rfl, rfl, rfl, rfl, rfl, rfl⟩

theorem quiet_packNext (op r s) : Quiet s (packNext op r s) := by
  unfold packNext; split
  · exact quiet_gatherRow ..
  · exact quiet_gatherRow ..
  · split
    · exact quiet_goto ..
    · exact quiet_gatherRow ..

theorem quiet_initNext (op l acc s) : Quiet s (initNext op l acc s) := by cases l <;> exact quiet_goto ..

theorem quiet_resume (op r site st s) : Quiet s (resume op r site st s) := by
  cases site <;> simp only [resume]
  case last => exact quiet_goto ..
  case sendCmd => exact (quiet_forget ..).trans (quiet_goto ..)
  case setCol => exact (quiet_cols ..).trans (quiet_goto ..)
  case setRow => exact (quiet_rows ..).trans (quiet_goto ..)
  case rangeCol => exact (quiet_cols ..).trans (quiet_goto ..)
  case rangeRow => exact (quiet_rows ..).trans (quiet_goto ..)
  case renderRow => split <;> exact (quiet_rows ..).trans (quiet_goto ..)
  case renderCol => split <;> exact (quiet_cols ..).trans (quiet_goto ..)
  case renderLine =>
    split
    · unfold packBegin; split
      · exact quiet_goto ..
      · exact Quiet.trans (u := startPack s) ⟨rfl, rfl, rfl, rfl, rfl, rfl⟩ (quiet_packNext ..)
    · exact quiet_goto ..
  case packRow =>
    have h : Quiet s (match s.phase with | .even => afterEvenRow (bufLen r.p2) s | .odd => afterOddRow (bufLen r.p2) s) := by
      cases s.phase <;> exact ⟨rfl, rfl, rfl, rfl, rfl, rfl⟩
    split
    · exact h.trans (quiet_packNext ..)
    · exact h.trans (quiet_goto ..)
  case initFrame => exact (quiet_forget ..).trans (quiet_initNext ..)

theorem quiet_begin (op r s) : Quiet s (beginRequest op r s) := by
  cases op <;> simp only [beginRequest]
  case sendCmd => exact quiet_gatherArgs ..
  case init => exact quiet_initNext ..
  all_goals exact quiet_goto ..

/-- What a step may do to them: make one transport call, add a fault reason, and write RESULT only when it ends the request. -/
structure Extends (s t : State) : Prop where
  cfg : t.cfg = s.cfg
  trace : t.trace = s.trace ∨ ∃ e, t.trace = s.trace ++ [e]
  fault : s.fault.subset t.fault = true
  result : t.busy = true → t.result = s.result
  script : t.script = s.script

theorem faultSet_subset_self (f : FaultSet) : f.subset f = true := by rcases f with ⟨a, b, c⟩; cases a <;> cases b <;> cases c <;> rfl

theorem Extends.events {s t} (h : Extends s t) : ∃ ev, t.trace = s.trace ++ ev := by
  rcases h.trace with e | ⟨x, e⟩
  · exact ⟨[], by rw [e, List.append_nil]⟩
  · exact ⟨[x], e⟩

theorem Quiet.toExtends {s t} (h : Quiet s t) : Extends s t :=
  ⟨h.cfg, .inl h.trace, by rw [h.fault]; exact faultSet_subset_self _, fun _ => h.result, h.script⟩

theorem Extends.then {s u t} (h : Extends s u) (h2 : Quiet u t) : Extends s t :=
  ⟨h2.cfg.trans h.cfg, by rw [h2.trace]; exact h.trace, by rw [h2.fault]; exact h.fault,
    fun hb => h2.result.trans (h.result (h2.busy ▸ hb)), h2.script.trans h.script⟩

theorem emit_extends (e s u) (h : Quiet s u) : Extends s (emit e u) :=
  ⟨h.cfg, .inr ⟨e, by simp [emit, h.trace]⟩, by simp only [emit]; rw [h.fault]; exact faultSet_subset_self _, fun _ => h.result,
    h.script⟩

theorem tClose_extends (s) : Extends s (tClose s).2 := emit_extends _ _ _ ⟨rfl, rfl, rfl, rfl, rfl, rfl⟩

theorem tWritePayload_extends (b s) : Extends s (tWritePayload b s) := emit_extends _ _ _ ⟨rfl, rfl, rfl, rfl, rfl, rfl⟩

theorem readStep_extends {a s k t} (h : readStep a s k = .next t) (hk : ∀ b, Extends s (k b)) : Extends s t := by
  unfold readStep at h; split at h
  · injection h with h; exact h ▸ hk _
  · simp at h

theorem stepAt_extends {op pos r s t} (h : stepAt op pos r s = .next t) : Extends s t := by
  cases pos with
  | argByte got => simp only [stepAt] at h; exact readStep_extends h fun b => (quiet_gatherArgs ..).toExtends
  | cmdOpen site bytes => injection h with h; subst h; exact (emit_extends (.opened .cmd) s { s with session := .opened .cmd, cnt := 0 } ⟨rfl, rfl, rfl, rfl, rfl, rfl⟩).then (quiet_goto ..)
  | cmdNext site bytes =>
    cases bytes with
    | nil => injection h with h; subst h; exact (tClose_extends s).then (quiet_resume ..)
    | cons b bytes => injection h with h; subst h; exact (emit_extends _ _ _ Quiet.refl).then (quiet_goto ..)
  | dataOpen site source i n => injection h with h; subst h; exact (emit_extends (.opened .data) s { s with session := .opened .data, cnt := 0 } ⟨rfl, rfl, rfl, rfl, rfl, rfl⟩).then (quiet_goto ..)
  | dataMark site source i n => injection h with h; subst h; exact (emit_extends _ _ _ Quiet.refl).then (quiet_goto ..)
  | dataNext site source i n =>
    simp only [stepAt, dataStep] at h
    split at h
    · injection h with h; subst h; exact (tClose_extends s).then (quiet_resume ..)
    · split at h
      · injection h with h; subst h; split
        · exact (tClose_extends s).then (quiet_goto ..)
        · exact (tClose_extends s).then (quiet_resume ..)
      · cases source with
        | sourceMemory => exact readStep_extends h fun b => (quiet_goto ..).toExtends
        | rowBuffer => injection h with h; subst h; exact (tWritePayload_extends ..).then (quiet_goto ..)
        | zeros => injection h with h; subst h; exact (tWritePayload_extends ..).then (quiet_goto ..)
  | dataPut site source i n b => injection h with h; subst h; exact (tWritePayload_extends ..).then (quiet_goto ..)
  | rowByte row got => simp only [stepAt] at h; exact readStep_extends h fun b => (quiet_gatherRow ..).toExtends
  | hwReset =>
    injection h with h; subst h
    have : Extends s (tHwReset s).2 := emit_extends _ _ _ ⟨rfl, rfl, rfl, rfl, rfl, rfl⟩
    refine Extends.then ?_ (quiet_goto ..)
    unfold afterHwReset; split
    · exact this.then ⟨rfl, rfl, rfl, rfl, rfl, rfl⟩
    · exact this
  | settle acc => injection h with h; subst h; exact (emit_extends _ _ _ Quiet.refl).then (quiet_goto ..)
  | finish st p => injection h with h; subst h; exact ⟨rfl, .inl rfl, faultSet_subset_self _, fun hb => by simp [finish] at hb, rfl⟩

theorem tick_extends {s t : State} (h : tick s = .next t) : Extends s t := by
  unfold tick at h
  cases hs : s.seq with
  | idle => simp only [hs] at h; injection h with h; subst h; exact Quiet.refl.toExtends
  | rejecting r => simp only [hs] at h; injection h with h; subst h; exact ⟨rfl, .inl rfl, faultSet_subset_self _, fun hb => by simp [reject, finish] at hb, rfl⟩
  | run op pos =>
    simp only [hs] at h
    cases hr : s.req with
    | none =>
      simp only [hr] at h; injection h with h; subst h
      refine ⟨rfl, .inl rfl, ?_, fun _ => rfl, rfl⟩
      obtain ⟨a, b, c⟩ := s.fault
      cases a <;> cases b <;> cases c <;> rfl
    | some r => simp only [hr] at h; exact stepAt_extends h

/-! ### Steps of the machine -/

/-- R7: with nothing planned a step is one step of PP. -/
theorem step_of_script_nil {s : State} (hc : s.cfg.wf = true) (hs : s.script = []) : step s = ppStep s := by
  simp [step, hc, move, hs]

/-- With nothing planned the steps of a busy machine are its steps of R7. -/
theorem steps_eq_ticks {n} : ∀ {s t : State}, s.cfg.wf = true → s.script = [] → ticks n s = .next t →
    (∀ m < n, ∃ u, ticks m s = .next u ∧ u.busy = true) → steps n s = .next t := by
  induction n with
  | zero => intro s t _ _ h _; exact h
  | succ n ih =>
    intro s t hw hs h hm
    obtain ⟨u0, e0, hb⟩ := hm 0 (Nat.succ_pos n)
    simp only [ticks, Host.Outcome.next.injEq] at e0
    subst e0
    have e : step s = tick s := by rw [step_of_script_nil hw hs]; simp [ppStep, hb]
    simp only [ticks] at h
    simp only [steps, e]
    cases hk : tick s with
    | next u =>
      simp only [hk] at h ⊢
      have hx := tick_extends hk
      refine ih (by rw [hx.cfg]; exact hw) (by rw [hx.script]; exact hs) h fun m hm' => ?_
      obtain ⟨v, e1, e2⟩ := hm (m + 1) (by omega)
      simp only [ticks, hk] at e1
      exact ⟨v, e1, e2⟩
    | fault f => simp [hk] at h
    | refused f => simp [hk] at h

end Sys2Proof.Machine
end

