-- ==== Sys2Proof/Laws/Memory.lean ====
section
/-! SUPPORT. The laws of source memory: a write is read back, leaves every other address alone and keeps the canonical
form, and a canonical memory is determined by what it reads as. -/

namespace Sys2Proof.Machine.Memory

/-- Below its first possible address a memory reads as unlisted. -/
theorem read_below_wfAbove (a lo : Nat) (m : Memory) (h : wfAbove lo m = true) (ha : a < lo) :
    m.read a = unlisted := by
  induction m generalizing lo with
  | nil => rfl
  | cons cell m ih =>
    obtain ⟨x, c⟩ := cell
    simp only [wfAbove, Bool.and_eq_true, decide_eq_true_eq] at h
    have : a ≠ x := by omega
    simp only [read, this, if_false]
    exact ih (x + 1) h.2 (by omega)

theorem read_write_same (a : Nat) (b : Byte) (m : Memory) (lo : Nat) (h : wfAbove lo m = true) :
    (m.write a b).read a = b := by
  induction m generalizing lo with
  | nil => by_cases hb : b = unlisted <;> simp [write, read, hb]
  | cons cell m ih =>
    obtain ⟨x, c⟩ := cell
    simp only [wfAbove, Bool.and_eq_true, decide_eq_true_eq] at h
    unfold write
    split
    · next hlt =>
      split
      · next hb =>
        have : a ≠ x := by omega
        simp only [read, this, if_false, hb]; exact read_below_wfAbove a (x + 1) m h.2 (by omega)
      · simp [read]
    · split
      · next hne heq =>
        split
        · next hb => rw [hb]; exact read_below_wfAbove a (x + 1) m h.2 (by omega)
        · simp [read]
      · next hne => simp [read, hne, ih (x + 1) h.2]

theorem read_write_other (a x : Nat) (b : Byte) (m : Memory) (hx : x ≠ a) :
    (m.write a b).read x = m.read x := by
  induction m with
  | nil => by_cases hb : b = unlisted <;> simp [write, read, hb, hx]
  | cons cell m ih =>
    obtain ⟨y, c⟩ := cell
    unfold write
    split
    · split <;> simp [read, hx]
    · split
      · next heq => subst heq; split <;> simp [read, hx]
      · simp [read, ih]

theorem write_wfAbove (a : Nat) (b : Byte) (m : Memory) (lo : Nat) (h : wfAbove lo m = true) (ha : lo ≤ a) :
    wfAbove lo (m.write a b) = true := by
  induction m generalizing lo with
  | nil => by_cases hb : b = unlisted <;> simp [write, wfAbove, hb, ha]
  | cons cell m ih =>
    obtain ⟨x, c⟩ := cell
    simp only [wfAbove, Bool.and_eq_true, decide_eq_true_eq] at h
    unfold write
    split
    · split
      · simp [wfAbove, h]
      · next hb => simp [wfAbove, h, ha, hb]; omega
    · split
      · next heq =>
        split
        · subst heq
          have weaken : ∀ (m : Memory) (k l : Nat), l ≤ k → wfAbove k m = true → wfAbove l m = true := by
            intro m k l hkl hw
            cases m with
            | nil => rfl
            | cons cell m =>
              simp only [wfAbove, Bool.and_eq_true, decide_eq_true_eq] at hw ⊢
              exact ⟨⟨by omega, hw.1.2⟩, hw.2⟩
          exact weaken m _ _ (by omega) h.2
        · next hb => subst heq; simp [wfAbove, h, hb]
      · simp only [wfAbove, Bool.and_eq_true, decide_eq_true_eq]
        exact ⟨h.1, ih (x + 1) h.2 (by omega)⟩

/-- A write keeps the canonical form. -/
theorem write_wf (a : Nat) (b : Byte) (m : Memory) (h : m.wf = true) : (m.write a b).wf = true :=
  write_wfAbove a b m 0 h (Nat.zero_le a)

/-- A write inside SM keeps every cell inside. -/
theorem write_below (a top : Nat) (b : Byte) (m : Memory) (h : m.below top = true) (ha : a < top) :
    (m.write a b).below top = true := by
  induction m with
  | nil => by_cases hb : b = unlisted <;> simp [write, below, hb, ha]
  | cons cell m ih =>
    obtain ⟨x, c⟩ := cell
    simp only [below, List.all_cons, Bool.and_eq_true, decide_eq_true_eq] at h ih ⊢
    unfold write
    split
    · split
      · simp [h.1]; simpa using h.2
      · simp [h.1, ha]; simpa using h.2
    · split
      · split
        · simpa using h.2
        · simp [ha]; simpa using h.2
      · simp only [List.all_cons, Bool.and_eq_true, decide_eq_true_eq]
        exact ⟨h.1, ih h.2⟩

end Sys2Proof.Machine.Memory
end

