-- ==== Sys2Proof/Laws/PerInstr.lean ====
section
/-! SUPPORT. Statements made per request: what the descriptor of each looks like (30_encoding.md R62, R65, R67). -/

/-- R65, R67: the descriptor of a request names its operation and has both reserved fields 0. -/
def Sys2Proof.Laws.EncodeShape.Statement (i : Sys2Proof.Instr) : Prop :=
  Sys2Proof.opOfField (Sys2Proof.encode i).opField = some i.op ∧ (Sys2Proof.encode i).rsv0 = 0 ∧
    (Sys2Proof.encode i).rsv1 = 0

namespace Sys2Proof.Laws.EncodeShape

open Sys2Proof.Machine

/-- A request whose descriptor is packed from its fields. -/
theorem packed (op : Op) (a b c : Byte) (l : BitVec 16) (p3 : Byte) (w2 : Word) :
    opOfField (Descriptor.mk (packW0 op a b c) (packW1 l p3) w2).opField = some op ∧
      (Descriptor.mk (packW0 op a b c) (packW1 l p3) w2).rsv0 = 0 ∧
      (Descriptor.mk (packW0 op a b c) (packW1 l p3) w2).rsv1 = 0 :=
  ⟨(packW0_fields op a b c _ w2).1, (packW0_fields op a b c _ w2).2.1, (packW1_fields _ l p3 w2).1⟩

/-- A request that uses no field of W1. -/
theorem packedPlain (op : Op) (a b c : Byte) :
    opOfField (Descriptor.mk (packW0 op a b c) 0 0).opField = some op ∧
      (Descriptor.mk (packW0 op a b c) 0 0).rsv0 = 0 ∧ (Descriptor.mk (packW0 op a b c) 0 0).rsv1 = 0 :=
  packed op a b c 0 0 0

theorem sendCmd (op : Byte) (len : BitVec 16) (src : Word) : Statement (.sendCmd op len src) := packed ..

theorem sendData (len : BitVec 16) (src : Word) : Statement (.sendData len src) := packed ..

theorem setColRange (start stop : Byte) : Statement (.setColRange start stop) := packedPlain ..

theorem setRowRange (start stop : Byte) : Statement (.setRowRange start stop) := packedPlain ..

theorem resetRange : Statement .resetRange := packedPlain ..

theorem render (x y w h : Byte) (len : BitVec 16) (src : Word) : Statement (.render x y w h len src) := packed ..

theorem clear : Statement .clear := packedPlain ..

theorem init : Statement .init := packedPlain ..

theorem transportReset : Statement .transportReset := packedPlain ..

end Sys2Proof.Laws.EncodeShape
end

