-- ==== Sys2Proof/Laws/Port.lean ====
section
/-! SUPPORT. A running request does not read the descriptor port (60_exceptions.md R125). -/

namespace Sys2Proof.Machine

/-- A state with another descriptor on the port. -/
def withPort (p : Option Descriptor) (s : State) : State := { s with port := p }

theorem gatherRow_withPort (p op r row got s) : gatherRow op r row got (withPort p s) = withPort p
    (gatherRow op r row got s) := by
  cases row
  all_goals
    unfold gatherRow
    split
    · next h => rw [if_pos (by exact h)]; rfl
    · next h => rw [if_neg (by exact h)]; rfl

theorem gatherArgs_withPort (p op r got s) : gatherArgs op r got (withPort p s) = withPort p (gatherArgs op r got s) := by
  unfold gatherArgs; split <;> rfl

theorem packNext_withPort (p op r s) : packNext op r (withPort p s) = withPort p (packNext op r s) := by
  have : nextRow (bufLen r.p2) r.len.toNat (withPort p s) = nextRow (bufLen r.p2) r.len.toNat s := rfl
  simp only [packNext, this, gatherRow_withPort]
  cases nextRow (bufLen r.p2) r.len.toNat s
  · rfl
  · rfl
  · simp only; split
    · next h => rw [if_pos (by exact h)]; rfl
    · next h => rw [if_neg (by exact h)]

theorem updateCols_withPort (p a b st s) : updateCols a b st (withPort p s) = withPort p (updateCols a b st s) := by simp only [updateCols_eq]; rfl

theorem updateRows_withPort (p a b st s) : updateRows a b st (withPort p s) = withPort p (updateRows a b st s) := by simp only [updateRows_eq]; rfl

theorem initNext_withPort (p op l acc s) : initNext op l acc (withPort p s) = withPort p (initNext op l acc s) := by cases l <;> rfl

theorem resume_withPort (p op r site st s) : resume op r site st (withPort p s) = withPort p (resume op r site st s) := by
  cases site <;> simp only [resume, updateCols_withPort, updateRows_withPort]
  case initFrame o rest acc => exact initNext_withPort p op rest _ (forgetWindow o s)
  case renderLine =>
    split
    · unfold packBegin; split
      · rfl
      · exact packNext_withPort p op r (startPack s)
    · rfl
  case packRow =>
    have : (withPort p s).phase = s.phase := rfl
    rw [this]
    cases s.phase
    · simp only []
      split
      · exact packNext_withPort p op r (afterEvenRow _ s)
      · rfl
    · simp only []
      split
      · exact packNext_withPort p op r (afterOddRow _ s)
      · rfl
  case renderRow => split <;> rfl
  case renderCol => split <;> rfl
  all_goals rfl

theorem readStep_withPort (p a s k k') (h : ∀ b, k' b = withPort p (k b)) : readStep a (withPort p s) k' =
    mapNext (withPort p) (readStep a s k) := by
  unfold readStep
  have e1 : addressExists a (withPort p s) = addressExists a s := rfl
  have e2 : memRead a (withPort p s) = memRead a s := rfl
  rw [e1, e2]; split
  · rw [h]; rfl
  · rfl

theorem stepAt_withPort (p op pos r s) : stepAt op pos r (withPort p s) = mapNext (withPort p) (stepAt op pos r s) := by
  cases pos with
  | argByte got => exact readStep_withPort _ _ _ _ _ fun b => gatherArgs_withPort ..
  | cmdOpen => rfl
  | cmdNext site bytes =>
    cases bytes with
    | nil => exact congrArg Host.Outcome.next (resume_withPort p op r site _ (tClose s).2)
    | cons => rfl
  | dataOpen => rfl
  | dataMark => rfl
  | dataNext site source i n =>
    simp only [stepAt, dataStep]
    split
    · exact congrArg Host.Outcome.next (resume_withPort p op r site _ (tClose s).2)
    · have e1 : (withPort p s).cnt = s.cnt := rfl
      have e2 : (withPort p s).cfg = s.cfg := rfl
      rw [e1, e2]
      split
      · have e3 : (tClose (withPort p s)).1 = (tClose s).1 := rfl
        rw [e3]
        split
        · rfl
        · exact congrArg Host.Outcome.next (resume_withPort p op r site _ (tClose s).2)
      · cases source with
        | sourceMemory => exact readStep_withPort _ _ _ _ _ fun b => rfl
        | rowBuffer => rfl
        | zeros => rfl
  | dataPut => rfl
  | rowByte row got => exact readStep_withPort _ _ _ _ _ fun b => gatherRow_withPort ..
  | hwReset =>
    by_cases h : hwAnswer s = true
    · have h' : hwAnswer (withPort p s) = true := h
      simp only [stepAt, tHwReset, afterHwReset, h, h', if_true]; rfl
    · have h' : ¬ hwAnswer (withPort p s) = true := h
      simp only [stepAt, tHwReset, afterHwReset, h, h', if_false]
      simp only [Bool.not_eq_true] at h h'
      rfl
  | settle => rfl
  | finish => rfl

end Sys2Proof.Machine
end

