-- ==== Sys2Proof/Laws/Rest.lean ====
section
/-! SUPPORT. What frames and the packer leave alone, and what they do not read. -/

namespace Sys2Proof.Machine

/-! ### What they leave alone -/

/-- Source memory, REQ, the configuration, FAULT and the other agents are the same. -/
def KeepsRest (s t : State) : Prop := t.mem = s.mem ∧ t.req = s.req ∧ t.cfg = s.cfg ∧ t.fault = s.fault ∧
      t.port = s.port ∧ t.script = s.script ∧ t.closes = s.closes ∧ t.pulses = s.pulses ∧ t.raced = s.raced ∧
      t.raceNo = s.raceNo

theorem KeepsRest.refl {s} : KeepsRest s s := ⟨rfl, rfl, rfl, rfl, rfl, rfl, rfl, rfl, rfl, rfl⟩

theorem KeepsRest.trans {s u t} (h : KeepsRest s u) (g : KeepsRest u t) : KeepsRest s t := by
  obtain ⟨a, b, c, d, e, f, h, i, j, k⟩ := h
  obtain ⟨a', b', c', d', e', f', h', i', j', k'⟩ := g
  exact ⟨a'.trans a, b'.trans b, c'.trans c, d'.trans d, e'.trans e, f'.trans f, h'.trans h, i'.trans i, j'.trans j, k'.trans k⟩

theorem dataLoop_keep (bytes s) : KeepsRest s (dataLoop bytes s).2 := by
  induction bytes generalizing s with
  | nil => exact ⟨rfl, rfl, rfl, rfl, rfl, rfl, rfl, rfl, rfl, rfl⟩
  | cons b bytes ih =>
    simp only [dataLoop]; split
    · split
      · exact KeepsRest.trans ⟨rfl, rfl, rfl, rfl, rfl, rfl, rfl, rfl, rfl, rfl⟩ (ih _)
      · exact ⟨rfl, rfl, rfl, rfl, rfl, rfl, rfl, rfl, rfl, rfl⟩
    · exact KeepsRest.trans ⟨rfl, rfl, rfl, rfl, rfl, rfl, rfl, rfl, rfl, rfl⟩ (ih _)

theorem framedData_keep (bytes s) : KeepsRest s (framedData bytes s).2 := KeepsRest.trans ⟨rfl, rfl, rfl, rfl, rfl, rfl, rfl, rfl, rfl, rfl⟩ (dataLoop_keep bytes (openData s))

theorem framedCmd_keep (o a s) : KeepsRest s (framedCmd o a s).2 := by rw [framedCmd_eq]; exact ⟨rfl, rfl, rfl, rfl, rfl, rfl, rfl, rfl, rfl, rfl⟩

theorem colFrame_keep (a b s) : KeepsRest s (colFrame a b s).2 := by rw [colFrame_eq]; exact ⟨rfl, rfl, rfl, rfl, rfl, rfl, rfl, rfl, rfl, rfl⟩

theorem rowFrame_keep (a b s) : KeepsRest s (rowFrame a b s).2 := by rw [rowFrame_eq]; exact ⟨rfl, rfl, rfl, rfl, rfl, rfl, rfl, rfl, rfl, rfl⟩

theorem packLoop_keep (base b len fuel s) : KeepsRest s (packLoop base b len fuel s).2 := by
  have z : ∀ {s t : State} bytes, KeepsRest s t → KeepsRest s (framedData bytes t).2 := fun bytes h => h.trans (framedData_keep bytes _)
  induction fuel generalizing s with
  | zero => exact KeepsRest.refl
  | succ fuel ih =>
    have he : KeepsRest s (afterEvenRow b (evenRow base b s).2) := (z (s := s) _ (t := loadEvenRow _ s) ⟨rfl, rfl, rfl, rfl, rfl, rfl, rfl, rfl, rfl, rfl⟩).trans ⟨rfl, rfl, rfl, rfl, rfl, rfl, rfl, rfl, rfl, rfl⟩
    have ho : KeepsRest s (afterOddRow b (oddRow base b s).2) := (z (s := s) _ (t := loadOddRow _ s) ⟨rfl, rfl, rfl, rfl, rfl, rfl, rfl, rfl, rfl, rfl⟩).trans ⟨rfl, rfl, rfl, rfl, rfl, rfl, rfl, rfl, rfl, rfl⟩
    simp only [packLoop]
    split
    · unfold terminalRow; split
      · exact KeepsRest.refl
      · exact z (s := s) _ (t := loadTerminalRow _ s) ⟨rfl, rfl, rfl, rfl, rfl, rfl, rfl, rfl, rfl, rfl⟩
    · split
      · exact he.trans (ih _)
      · exact he
    · split
      · exact ho.trans (ih _)
      · exact ho

theorem pack_keep (w base len s) : KeepsRest s (pack w base len s).2 := by
  unfold pack; split
  · exact framedData_keep ..
  · exact KeepsRest.trans (u := startPack s) ⟨rfl, rfl, rfl, rfl, rfl, rfl, rfl, rfl, rfl, rfl⟩ (packLoop_keep ..)

theorem andThen_keep {s r f} (h : KeepsRest s r.2) (hf : ∀ t, KeepsRest t (f t).2) : KeepsRest s (andThen r f).2 := by
  unfold andThen; split
  · exact h.trans (hf _)
  · exact h

theorem finish_keep {s t} (h : KeepsRest s t) (a b c) : KeepsRest s (finish a b c t) := h.trans ⟨rfl, rfl, rfl, rfl, rfl, rfl, rfl, rfl, rfl, rfl⟩

theorem dataLoop_same (bytes : List Byte) (s : State) : (dataLoop bytes s).2.phase = s.phase ∧
    (dataLoop bytes s).2.carry = s.carry ∧ (dataLoop bytes s).2.cur = s.cur ∧ (dataLoop bytes s).2.raced =
    s.raced ∧ (dataLoop bytes s).2.raceNo = s.raceNo ∧ (dataLoop bytes s).2.mem = s.mem := by
  induction bytes generalizing s with
  | nil => exact ⟨rfl, rfl, rfl, rfl, rfl, rfl⟩
  | cons b bytes ih =>
    simp only [dataLoop]; split
    · split
      · exact ih _
      · exact ⟨rfl, rfl, rfl, rfl, rfl, rfl⟩
    · exact ih _

theorem dataLoop_shadow (bytes s) : (dataLoop bytes s).2.colStart = s.colStart ∧ (dataLoop bytes s).2.colEnd =
    s.colEnd ∧ (dataLoop bytes s).2.rowStart = s.rowStart ∧ (dataLoop bytes s).2.rowEnd = s.rowEnd := by
  induction bytes generalizing s with
  | nil => exact ⟨rfl, rfl, rfl, rfl⟩
  | cons b bytes ih =>
    simp only [dataLoop]; split
    · split
      · exact ih _
      · exact ⟨rfl, rfl, rfl, rfl⟩
    · exact ih _

theorem dataLoop_packer (bytes s) : let t := (dataLoop bytes s).2; t.phase = s.phase ∧ t.carry = s.carry ∧
    t.cur = s.cur ∧ t.scratch = s.scratch := by
  induction bytes generalizing s with
  | nil => exact ⟨rfl, rfl, rfl, rfl⟩
  | cons b bytes ih =>
    simp only [dataLoop]; split
    · split
      · exact ih _
      · exact ⟨rfl, rfl, rfl, rfl⟩
    · exact ih _

theorem packLoop_shadow (base b len fuel s) : let t := (packLoop base b len fuel s).2; t.colStart =
    s.colStart ∧ t.colEnd = s.colEnd ∧ t.rowStart = s.rowStart ∧ t.rowEnd = s.rowEnd := by
  induction fuel generalizing s with
  | zero => exact ⟨rfl, rfl, rfl, rfl⟩
  | succ fuel ih =>
    have fd : ∀ bytes (t : State), _ := fun bytes t => dataLoop_shadow bytes (openData t)
    simp only [packLoop]
    split
    · unfold terminalRow; split
      · exact ⟨rfl, rfl, rfl, rfl⟩
      · exact fd _ (loadTerminalRow _ s)
    · have h := fd (loadEvenRow (readBytes (base + s.cur) b s) s).scratch (loadEvenRow (readBytes (base + s.cur) b s) s)
      split
      · obtain ⟨a, b', c, d⟩ := ih (afterEvenRow b (evenRow base b s).2)
        exact ⟨a.trans h.1, b'.trans h.2.1, c.trans h.2.2.1, d.trans h.2.2.2⟩
      · exact h
    · have h := fd (loadOddRow (readBytes (base + s.cur) (b-1) s) s).scratch (loadOddRow (readBytes (base + s.cur) (b-1) s) s)
      split
      · obtain ⟨a, b', c, d⟩ := ih (afterOddRow b (oddRow base b s).2)
        exact ⟨a.trans h.1, b'.trans h.2.1, c.trans h.2.2.1, d.trans h.2.2.2⟩
      · exact h

/-! ### What they do not read -/

/-- A state with other values in the fields a frame and the packer do not read; of memory they read the source range only. -/
def withUnread (g s : State) : State := { s with
  busy := g.busy, result := g.result, colStart := g.colStart, colEnd := g.colEnd, rowStart := g.rowStart, rowEnd := g.rowEnd
  seq := g.seq, mem := g.mem }

theorem dataLoop_withUnread (g : State) (bytes : List Byte) (s : State) : dataLoop bytes (withUnread g s) =
    ((dataLoop bytes s).1, withUnread g (dataLoop bytes s).2) := by
  induction bytes generalizing s with
  | nil => rfl
  | cons b bytes ih =>
    simp only [dataLoop]
    have e1 : (withUnread g s).cnt = s.cnt := rfl
    have e2 : (withUnread g s).cfg = s.cfg := rfl
    rw [e1, e2]
    by_cases h : s.cnt = s.cfg.p
    · rw [if_pos h, if_pos h]
      have e3 : (tClose (withUnread g s)).1 = (tClose s).1 := rfl
      rw [e3]
      by_cases h2 : (tClose s).1 = 0
      · rw [if_pos h2, if_pos h2]
        exact ih (tWritePayload b (openData (tClose s).2))
      · rw [if_neg h2, if_neg h2]; rfl
    · rw [if_neg h, if_neg h]; exact ih (tWritePayload b s)

theorem framedData_withUnread (g : State) (bytes : List Byte) (s : State) : framedData bytes (withUnread g s) =
    ((framedData bytes s).1, withUnread g (framedData bytes s).2) :=
  dataLoop_withUnread g bytes (openData s)

theorem closeStatus_withUnread (g s n) : closeStatus (withUnread g s) n = closeStatus s n := closeStatus_congr _ _ rfl rfl rfl

theorem readBytes_withUnread (g s : State) (b n : Nat)
    (h : ∀ a, b ≤ a → a < b + n → g.mem.read a = s.mem.read a) : readBytes b n (withUnread g s) = readBytes b n s := by
  simp only [readBytes]
  apply List.map_congr_left
  intro i hi
  have : i < n := by simpa using hi
  have e : (withUnread g s).raced = s.raced := rfl
  have e2 : (withUnread g s).mem = g.mem := rfl
  simp only [memRead, e, e2, h (b+i) (by omega) (by omega)]; rfl

theorem packLoop_withUnread (g : State) (base b len fuel : Nat) (hb : 1 ≤ b) : ∀ s : State, s.cur ≤ len →
    (∀ a, base ≤ a → a < base + len → g.mem.read a = s.mem.read a) →
    packLoop base b len fuel (withUnread g s) =
    ((packLoop base b len fuel s).1, withUnread g (packLoop base b len fuel s).2) := by
  induction fuel with
  | zero => intro s _ _; rfl
  | succ fuel ih =>
    intro s hcur hm
    have e1 : nextRow b len (withUnread g s) = nextRow b len s := rfl
    simp only [packLoop, e1]
    have fd : ∀ bytes (t : State), framedData bytes (withUnread g t) = ((framedData bytes t).1, withUnread g (framedData bytes t).2) := framedData_withUnread g
    have mem : ∀ bytes (t : State), (framedData bytes t).2.mem = t.mem := fun bytes t => (dataLoop_same bytes (openData t)).2.2.2.2.2
    have fcur : ∀ bytes (t : State), (framedData bytes t).2.cur = t.cur := fun bytes t => (dataLoop_same bytes (openData t)).2.2.1
    cases hn : nextRow b len s with
    | terminal =>
      simp only [terminalRow]
      have e2 : (withUnread g s).cur = s.cur := rfl
      rw [e2]
      split
      · rfl
      · rw [readBytes_withUnread _ _ _ _ (fun a h1 h2 => hm a (by omega) (by omega))]
        exact fd _ (loadTerminalRow _ s)
    | even =>
      simp only
      have hlen : s.cur + b ≤ len := by
        simp only [nextRow] at hn; split at hn <;> split at hn <;> simp at hn; omega
      have ee : evenRow base b (withUnread g s) = ((evenRow base b s).1, withUnread g (evenRow base b s).2) := by
        simp only [evenRow, sendRow]
        have e2 : (withUnread g s).cur = s.cur := rfl
        rw [e2, readBytes_withUnread _ _ _ _ (fun a h1 h2 => hm a (by omega) (by omega))]
        exact fd _ (loadEvenRow _ s)
      rw [ee]
      split
      · refine ih (afterEvenRow b (evenRow base b s).2) ?_ ?_
        · change (framedData _ _).2.cur + b ≤ len; rw [fcur]; exact hlen
        · intro a h1 h2; change _ = (framedData _ _).2.mem.read a; rw [mem]; exact hm a h1 h2
      · rfl
    | odd =>
      simp only
      have hlen : s.cur + (b-1) ≤ len := by
        simp only [nextRow] at hn; split at hn <;> split at hn <;> simp at hn; omega
      have ee : oddRow base b (withUnread g s) = ((oddRow base b s).1, withUnread g (oddRow base b s).2) := by
        simp only [oddRow, sendRow]
        have e2 : (withUnread g s).cur = s.cur := rfl
        rw [e2, readBytes_withUnread _ _ _ _ (fun a h1 h2 => hm a (by omega) (by omega))]
        exact fd _ (loadOddRow _ s)
      rw [ee]
      split
      · refine ih (afterOddRow b (oddRow base b s).2) ?_ ?_
        · change (framedData _ _).2.cur + (b-1) ≤ len; rw [fcur]; exact hlen
        · intro a h1 h2; change _ = (framedData _ _).2.mem.read a; rw [mem]; exact hm a h1 h2
      · rfl

theorem pack_withUnread (g : State) (w : Byte) (base len) (s : State)
    (hm : ∀ a, base ≤ a → a < base + len → g.mem.read a = s.mem.read a) :
   pack w base len (withUnread g s) = ((pack w base len s).1, withUnread g (pack w base len s).2) := by
  unfold pack
  split
  · rw [readBytes_withUnread _ _ _ _ hm]; exact framedData_withUnread ..
  · exact packLoop_withUnread g _ _ _ _ (by unfold bufLen; omega) (startPack s) (Nat.zero_le _) hm

theorem dataLoop_withPacker (p c k e) (bytes : List Byte) (s : State) : dataLoop bytes (withPacker s p c k e) =
    ((dataLoop bytes s).1, withPacker (dataLoop bytes s).2 p c k e) := by
  induction bytes generalizing s with
  | nil => rfl
  | cons b bytes ih =>
    simp only [dataLoop]
    have e1 : (withPacker s p c k e).cnt = s.cnt := rfl
    have e2 : (withPacker s p c k e).cfg = s.cfg := rfl
    rw [e1, e2]
    by_cases h : s.cnt = s.cfg.p
    · rw [if_pos h, if_pos h]
      have e3 : (tClose (withPacker s p c k e)).1 = (tClose s).1 := rfl
      rw [e3]
      by_cases h2 : (tClose s).1 = 0
      · rw [if_pos h2, if_pos h2]
        exact ih (tWritePayload b (openData (tClose s).2))
      · rw [if_neg h2, if_neg h2]; rfl
    · rw [if_neg h, if_neg h]; exact ih (tWritePayload b s)

theorem framedData_withPacker (p c k e) (bytes : List Byte) (s : State) : framedData bytes
    (withPacker s p c k e) = ((framedData bytes s).1, withPacker (framedData bytes s).2 p c k e) :=
  dataLoop_withPacker p c k e bytes (openData s)

/-- R35: the row buffer is written before it is read. -/
theorem packLoop_scratch (base b len fuel : Nat) (s : State) (sc : List Byte) :
   ∃ sc', packLoop base b len fuel { s with scratch := sc } =
    ((packLoop base b len fuel s).1, { (packLoop base b len fuel s).2 with scratch := sc' }) := by
  cases fuel with
  | zero => exact ⟨sc, rfl⟩
  | succ fuel =>
    have e1 : nextRow b len { s with scratch := sc } = nextRow b len s := rfl
    simp only [packLoop, e1]
    cases nextRow b len s with
    | terminal =>
      simp only [terminalRow]
      split
      · exact ⟨sc, rfl⟩
      · exact ⟨_, rfl⟩
    | even => exact ⟨_, rfl⟩
    | odd => exact ⟨_, rfl⟩

end Sys2Proof.Machine
end

