-- ==== Sys2Proof/Tests/Slice0.lean ====
section
/-! SUPPORT. Smoke tests of the static checks, decodings of descriptors written out by 30_encoding.md R62, one or two steps
per request against the vectors of 95_test_vectors.md, and for each statement a concrete state that meets its
hypotheses. -/

namespace Sys2Proof.Tests

open Sys2Proof.Machine

/-! ### Small states -/

/-- The configuration under "Parameter values used" of 95_test_vectors.md. -/
def base : Config := Config.example95

/-- A block after reset whose first closes and hardware resets are answered as listed, with a few Bytes in memory. -/
def ready (c : Config) (closes : List Status) (mem : Memory) : State :=
  { State.constructed c with closes := closes, pulses := [true], mem := mem }

/-- All statuses 0 for `n` closes. -/
def fine (n : Nat) : List Status := List.replicate n 0

/-- A descriptor on the port. -/
def presenting (d : Descriptor) (s : State) : State := { s with port := some d }

/-- The trace a move leaves. -/
def traceOf (o : Host.Outcome State Fault Refusal) : List Event :=
  match o with
  | .next t => t.trace
  | .fault _ => []
  | .refused _ => []

/-- RESULT and the shadow a move leaves. -/
def endOf (o : Host.Outcome State Fault Refusal) :
    Option (Word × Option (BitVec 6) × Option (BitVec 6) × Option (BitVec 7) × Option (BitVec 7)) :=
  match o with
  | .next t => some (t.result, t.colStart, t.colEnd, t.rowStart, t.rowEnd)
  | .fault _ => none
  | .refused _ => none

/-- The packer's registers a move leaves. -/
def packerOf (o : Host.Outcome State Fault Refusal) : Option (Phase × Byte × Nat) :=
  match o with
  | .next t => some (t.phase, t.carry, t.cur)
  | .fault _ => none
  | .refused _ => none

/-- A session of these wire Bytes, closed with `st`. -/
def wire (k : Kind) (bytes : List Byte) (st : Status) : List Event :=
  .opened k :: (bytes.map .wrote ++ [.closed st])

/-! ### Static checks refuse ill-formed requests (R68, R69; 95_test_vectors.md 2.1) -/

theorem test_wf_refuses_source_above_memory : (Instr.sendData 0 0x00010000).wf base = false := by decide

theorem test_wf_refuses_range_past_the_end : (Instr.sendData 2 0xFFFF).wf base = false := by decide

theorem test_wf_refuses_command_range_past_the_end : (Instr.sendCmd 0xAF 2 0xFFFF).wf base = false := by decide

theorem test_wf_refuses_render_range : (Instr.render 0 0 3 3 2 0xFFFF).wf base = false := by decide

theorem test_wf_refuses_width_zero : (Instr.render 0 0 0 3 1 0).wf base = false := by decide

theorem test_wf_refuses_height_zero : (Instr.render 0 0 3 0 1 0).wf base = false := by decide

theorem test_wf_allows_last_byte : (Instr.sendData 1 0xFFFF).wf base = true := by decide

/-! ### Written-out descriptors (R62, R65; 95_test_vectors.md 2.1 and 3) -/

theorem test_decode_send_cmd : decode ⟨0x0000E201, 0x00020000, 0x00000020⟩ = .ok (.sendCmd 0xE2 2 0x20) := by decide

theorem test_decode_send_data : decode ⟨0x00000002, 0x003D0000, 0x00000100⟩ = .ok (.sendData 61 0x100) := by decide

theorem test_decode_set_col_range : decode ⟨0x00807F03, 0, 0⟩ = .ok (.setColRange 0x7F 0x80) := by decide

theorem test_decode_set_row_range : decode ⟨0x0080FF04, 0, 0⟩ = .ok (.setRowRange 0xFF 0x80) := by decide

theorem test_decode_reset_range : decode ⟨0x00000005, 0, 0xFFFFFFFF⟩ = .ok .resetRange := by decide

theorem test_decode_render : decode ⟨0x03040206, 0x00050003, 0x00000040⟩ = .ok (.render 2 4 3 3 5 0x40) := by decide

theorem test_decode_clear : decode ⟨0x00000007, 0xFFFF00FF, 0x12345678⟩ = .ok .clear := by decide

theorem test_decode_init : decode ⟨0x00000008, 0, 0⟩ = .ok .init := by decide

theorem test_decode_transport_reset : decode ⟨0x00000009, 0, 0⟩ = .ok .transportReset := by decide

/-- The same 96 bits as one number, W0 lowest. -/
theorem test_table_word : decodeTableWord 96 0x000000400005000303040206 = some (.render 2 4 3 3 5 0x40) := by decide

theorem test_table_word_short : decodeTableWord 32 0x00807F03 = some (.setColRange 0x7F 0x80) := by decide

/-- 95_test_vectors.md 2.1: the first check that fails names the reason. -/
theorem test_check_order :
    checkRequest base ⟨0x0000001A, 0, 0⟩ = .error .badOp ∧
    checkRequest base ⟨0x000000A3, 0, 0⟩ = .error .reservedBits ∧
    checkRequest base ⟨0x00000003, 0x00000100, 0⟩ = .error .reservedBits ∧
    checkRequest base ⟨0x00000002, 0x00020000, 0x0000FFFF⟩ = .error .badRange ∧
    checkRequest base ⟨0x03000006, 0x00000000, 0⟩ = .error .emptyRegion := by decide

theorem test_encode_render : encode (.render 2 4 3 3 5 0x40) = ⟨0x03040206, 0x00050003, 0x00000040⟩ := by decide

/-! ### Requests (95_test_vectors.md 1 and 2) -/

/-- 2.2: the arguments of a raw command are not masked, and its window opcode makes the shadow UNKNOWN. -/
theorem test_send_cmd_window_opcode :
    (let o := exec (.sendCmd 0x15 2 0x20)
      { ready base (fine 1) [(0x20, 0xFF), (0x21, 0xFE)] with colStart := some 1, colEnd := some 2, rowStart := some 3 }
    (traceOf o, endOf o)) =
      (wire .cmd [0x00, 0x15, 0xFF, 0xFE] 0, some (0x00000000, none, none, some 3, none)) := by decide

/-- 2.2: the close status is RESULT. -/
theorem test_send_cmd_status :
    endOf (exec (.sendCmd 0xAF 0 0) (ready base [0x09] [])) = some (0x00000009, none, none, none, none) := by decide

/-- 2.2, strobe, MAX_CHUNK 3: sessions of 2, 2 and 1. -/
theorem test_send_data_chunks :
    traceOf (exec (.sendData 5 0x100) (ready { base with variant := .strobe, maxChunk := 3 } (fine 3)
      [(0x100, 1), (0x101, 2), (0x102, 3), (0x103, 4), (0x104, 5)])) =
      wire .data [0x40, 1, 2] 0 ++ wire .data [0x40, 3, 4] 0 ++ wire .data [0x40, 5] 0 := by decide

/-- 2.2 with MAX_CHUNK 3: a nonzero close ends the frame before the next session. -/
theorem test_send_data_stops :
    (let o := exec (.sendData 5 0x100) (ready { base with variant := .strobe, maxChunk := 3 } [0, 2]
      [(0x100, 1), (0x101, 2), (0x102, 3), (0x103, 4), (0x104, 5)])
    (traceOf o, (endOf o).map (·.1))) =
      (wire .data [0x40, 1, 2] 0 ++ wire .data [0x40, 3, 4] 2, some 0x00000002) := by decide

/-- L1-1. -/
theorem test_set_col_range :
    (let o := exec (.setColRange 0x7F 0x80) (ready base (fine 1) [])
    (traceOf o, endOf o)) =
      (wire .cmd [0x00, 0x15, 0x3F, 0x00] 0, some (0x00000000, some 0x3F, some 0x00, none, none)) := by decide

/-- L1-1, the row instance. -/
theorem test_set_row_range :
    (let o := exec (.setRowRange 0xFF 0x80) (ready base (fine 1) [])
    (traceOf o, endOf o)) =
      (wire .cmd [0x00, 0x75, 0x7F, 0x00] 0, some (0x00000000, none, none, some 0x7F, some 0x00)) := by decide

/-- 2.3: a failed row frame makes the rows UNKNOWN. -/
theorem test_set_row_range_fails :
    endOf (exec (.setRowRange 1 2) { ready base [3] [] with rowStart := some 5, rowEnd := some 6 }) =
      some (0x00000003, none, none, none, none) := by decide

/-- 2.3: a 130 x 200 display. -/
theorem test_reset_range_masks :
    (let o := exec .resetRange (ready { base with width := 130, height := 200 } (fine 2) [])
    (traceOf o, endOf o)) =
      (wire .cmd [0x00, 0x15, 0x00, 0x00] 0 ++ wire .cmd [0x00, 0x75, 0x00, 0x47] 0,
        some (0x00000000, some 0x00, some 0x00, some 0x00, some 0x47)) := by decide

/-- 2.3: a 1 x 1 display, and statuses 1 and 2. -/
theorem test_reset_range_ors :
    (let o := exec .resetRange (ready { base with width := 1, height := 1 } [1, 2] [])
    (traceOf o, endOf o)) =
      (wire .cmd [0x00, 0x15, 0x00, 0x3F] 1 ++ wire .cmd [0x00, 0x75, 0x00, 0x00] 2,
        some (0x00000003, none, none, none, none)) := by decide

/-- Program B: an odd width at an even left edge, with its carried nibbles. -/
theorem test_render_odd :
    (let o := exec (.render 2 4 3 3 5 0x40)
      (ready base (fine 6) [(0x40, 0x12), (0x41, 0x34), (0x42, 0x56), (0x43, 0x78), (0x44, 0x9A)])
    (traceOf o, endOf o, packerOf o)) =
      (wire .cmd [0x00, 0x75, 0x04, 0x06] 0 ++ wire .cmd [0x00, 0x15, 0x01, 0x02] 0 ++
        wire .cmd [0x00, 0xA1, 0x00] 0 ++ wire .data [0x40, 0x12, 0x30] 0 ++ wire .data [0x40, 0x45, 0x60] 0 ++
        wire .data [0x40, 0x78, 0x90] 0,
        some (0x00000000, some 0x01, some 0x02, some 0x04, some 0x06), some (.odd, 0x0A, 5)) := by decide

/-- Program C: a failed session in the middle of row 1; by R99 CUR and PHASE have moved past that row. -/
theorem test_render_aborts :
    (let o := exec (.render 0 0 7 2 7 0x100) (ready { base with maxChunk := 5 } [0, 0, 0, 0, 0, 4]
      [(0x100, 0x01), (0x101, 0x23), (0x102, 0x45), (0x103, 0x67), (0x104, 0x89), (0x105, 0xAB), (0x106, 0xCD)])
    ((traceOf o).drop 16, (endOf o).map (·.1), packerOf o)) =
      (.closed 0 :: wire .data [0x40, 0x01, 0x23, 0x45] 0 ++ wire .data [0x40, 0x60] 0 ++
        wire .data [0x40, 0x78, 0x9A, 0xBC] 4, some 0x00000004, some (.even, 0x07, 7)) := by decide

/-- 2.5: 4 x 2 with MAX_CHUNK 4. -/
theorem test_clear :
    traceOf (exec .clear (ready { base with width := 4, height := 2, maxChunk := 4 } (fine 2) [])) =
      wire .data [0x40, 0, 0] 0 ++ wire .data [0x40, 0, 0] 0 := by decide

/-- 2.5: no Byte at all is a session of its marker alone. -/
theorem test_clear_of_one_pixel :
    traceOf (exec .clear (ready { base with width := 1, height := 1 } (fine 1) [])) = wire .data [0x40] 0 := by decide

/-- The INIT_FRAMES of Program D. -/
def programD : Config := { base with initFrames := [⟨0xAE, []⟩, ⟨0x15, [0x00, 0x3F]⟩, ⟨0xAF, []⟩] }

/-- 2.5: every frame is sent, the statuses are ORed, and a window opcode makes the columns UNKNOWN. -/
theorem test_init :
    (let o := exec .init { ready programD [1, 0, 4] [] with colStart := some 1, colEnd := some 2, rowEnd := some 3 }
    (traceOf o, endOf o)) =
      (wire .cmd [0x00, 0xAE] 1 ++ wire .cmd [0x00, 0x15, 0x00, 0x3F] 0 ++ wire .cmd [0x00, 0xAF] 4 ++ [.settled],
        some (0x00000005, none, none, none, some 3)) := by decide

/-- 2.5: INIT with no frames only settles. -/
theorem test_init_empty : traceOf (exec .init (ready base [] [])) = [.settled] := by decide

/-- 2.5: a pulsed reset line. -/
theorem test_transport_reset :
    (let o := exec .transportReset { ready base [] [] with colStart := some 1, rowEnd := some 3 }
    (traceOf o, endOf o)) = ([.pulsed true], some (0x00020000, none, none, none, none)) := by decide

/-- 2.5: no reset line. -/
theorem test_transport_reset_unpulsed :
    endOf (exec .transportReset { ready base [] [] with pulses := [false], colStart := some 1, rowEnd := some 3 }) =
      some (0x00000000, some 1, none, none, some 3) := by decide

/-! ### Steps (2.1, 2.6) -/

/-- 2.1: a rejected descriptor. -/
theorem test_step_rejects :
    (let o := step (presenting ⟨0x0000000A, 0, 0⟩
      { ready base [] [] with colStart := some 1, script := [.letRequest] })
    (traceOf o, endOf o)) = ([], some (0x00010000, some 1, none, none, none)) := by decide

/-- R7: the acceptance is a step of its own, and so is each of the first two transport calls. -/
theorem test_steps_are_single_calls :
    (let s := presenting ⟨0x00807F03, 0, 0⟩ (ready base [] [])
    [traceOf (steps 1 s), traceOf (steps 2 s), traceOf (steps 3 s)]) =
      [[], [.opened .cmd], [.opened .cmd, .wrote 0x00]] := by decide

/-- 2.6: block reset of an idle block empties FAULT and the trace. -/
theorem test_reset_when_idle :
    (match step { ready base [] [] with script := [.assertReset], fault := ⟨false, true, false⟩, trace := [.settled] } with
    | .next t => some (t.fault, t.trace)
    | .fault _ => none
    | .refused _ => none) = some (FaultSet.empty, []) := by decide

/-- R56, R102: HOST writes the last Byte of an EVEN row between the row's reads and its `TWrite`: the row ends in the high
nibble of any Byte, and the carry is its low nibble. -/
theorem test_source_race_in_the_row_buffer :
    (match hostWrite 0x41 0xFF { accept ⟨0x03040206, 0x00050003, 0x00000040⟩ (ready base [] []) with
      seq := .run .render (.dataNext .packRow .rowBuffer 1 2), scratch := [0x12, 0x30], carry := 0x04 } with
    | .next t => some (t.scratch, t.carry)
    | .fault _ => none
    | .refused _ => none) =
      some ([0x12, Config.racedByte 1 0x41 &&& 0xF0], (lo (Config.racedByte 1 0x41)).setWidth 8) := rfl

/-- 2.6: a reset inside a data session keeps the trace and adds no close. -/
theorem test_reset_inside_a_frame :
    traceOf (step { accept ⟨0x00000007, 0, 0⟩ (ready base [] []) with
      script := [.assertReset], session := .opened .data, trace := [.opened .data, .wrote 0x40, .wrote 0x12] }) =
      [.opened .data, .wrote 0x40, .wrote 0x12] := by decide

/-- R42, R43: a written Byte reads back, and 0x00 is not listed. -/
theorem test_memory :
    (Memory.write 5 0x7F (Memory.write 3 0x11 [])).read 5 = 0x7F ∧ Memory.write 3 0x00 [(3, 0x11)] = [] := by decide

/-! ### Witnesses: states and operands that meet the hypotheses of each statement

A busy block is one that has accepted a descriptor. -/

/-- SEND_DATA of 3 Bytes at 0x40. -/
def data3 : Descriptor := ⟨0x00000002, 0x00030000, 0x00000040⟩

/-- A block that has just accepted `data3`. -/
def running : State := accept data3 (presenting data3 (ready base (fine 8) [(0x40, 0x12)]))

theorem witness_EveryOperandIsItsField :
    ∀ op < 10, 1 ≤ op → (BitVec.ofNat 32 (0xFFFFFF00 + op)).toNat / 2 ^ 4 % 16 = 0 ∧
      (0xFFFF00FF : Word).toNat / 2 ^ 8 % 256 = 0 ∧ (BitVec.ofNat 32 (0xFFFFFF00 + op)).toNat % 16 = op := by decide

theorem witness_DecodeOfEncodeIsTheRequest :
    (Instr.sendCmd 0xFF 1 0xFFFF).wf base = true ∧ (Instr.sendData 0 0xFFFF).wf base = true ∧
      (Instr.render 0xFF 0xFF 0xFF 0xFF 0xFFFF 1).wf base = true ∧ Instr.clear.wf base = true := by decide

theorem witness_ChecksRunInTheirOrder :
    checkRequest base ⟨0x00000000, 0, 0⟩ = .error .badOp ∧ checkRequest base ⟨0x0000000A, 0, 0⟩ = .error .badOp ∧
    checkRequest base ⟨0x00000013, 0, 0⟩ = .error .reservedBits ∧
    checkRequest base ⟨0x00000002, 0, 0x00010000⟩ = .error .badRange ∧
    checkRequest base ⟨0x00000006, 0x00010000, 0⟩ = .error .emptyRegion ∧
    checkRequest base ⟨0x00000002, 0x00010000, 0x0000FFFF⟩ = .ok (.sendData 1 0xFFFF) := by decide

theorem witness_StepRunsTheDecodedRequest :
    let s := { presenting data3 (ready base [] []) with script := [.letRequest] }
    s.cfg.wf = true ∧ s.script = .letRequest :: [] ∧ s.busy = false ∧ s.port = some data3 ∧
      decode data3 = .ok (.sendData 3 0x40) := by decide

/-- An idle block, one about to reject, and a running one. -/
theorem witness_StepIsOneStepOfPP :
    (let s := presenting data3 (ready base [] [])
    s.cfg.wf = true ∧ s.script = [] ∧ s.busy = false ∧ s.port = some data3) ∧
    (let s := accept ⟨0, 0, 0⟩ (ready base [] [])
    s.cfg.wf = true ∧ s.script = [] ∧ s.busy = true ∧ s.seq = .rejecting .badOp) ∧
    running.cfg.wf = true ∧ running.script = [] ∧ running.busy = true ∧
      running.seq = .run .sendData (.dataOpen .last .sourceMemory 0 3) ∧ running.req = some (latch base data3) := by
  decide

theorem witness_StepMakesAtMostOneCall : running.script = [] ∧ ∃ t, step running = .next t := ⟨rfl, _, rfl⟩

theorem witness_FetchWordIsTheNextRequest :
    State.reset.cfg.wf = true ∧ decodeTableWord 32 0x00000007 = some .clear := by decide

theorem witness_IllegalDescriptorIsRejected :
    let s := { presenting ⟨0x0000000A, 0, 0⟩ (ready base [] []) with script := [.letRequest] }
    s.cfg.wf = true ∧ s.script = .letRequest :: [] ∧ s.busy = false ∧ s.port = some ⟨0x0000000A, 0, 0⟩ ∧
      checkRequest s.cfg ⟨0x0000000A, 0, 0⟩ = .error .badOp := by decide

theorem witness_RejectIsTheStepAfterAcceptance :
    let d : Descriptor := ⟨0x00000002, 0x00020000, 0x0000FFFF⟩
    let s := presenting d (ready base [] [])
    s.busy = false ∧ s.port = some d ∧ checkRequest s.cfg d = .error .badRange := by decide

theorem witness_AcceptanceLatchesEveryField :
    let s := presenting data3 (ready base [] [])
    s.busy = false ∧ s.port = some data3 ∧ checkRequest s.cfg data3 = .ok (.sendData 3 0x40) ∧
      checkRequest s.cfg ⟨0, 0, 0⟩ = .error .badOp := by decide

theorem witness_BusyBlockIgnoresThePort : running.busy = true := by decide

theorem witness_IdleBlockWaits :
    let s := State.reset
    s.cfg.wf = true ∧ s.script = [] ∧ s.busy = false ∧ s.port = none := by decide

theorem witness_MalformedConfigurationIsRefused :
    (ready { base with width := 0 } [] []).cfg.width = 0 ∧ (ready { base with height := 0 } [] []).cfg.height = 0 ∧
      (ready { base with ctrlCmd := 0x40 } [] []).cfg.ctrlCmd = base.ctrlData ∧
      (ready { base with maxChunk := 2 } [] []).cfg.maxChunk < 2 + 1 ∧
      (ready { base with maxChunk := 1, variant := .strobe } [] []).cfg.maxChunk < 1 + 1 := by decide

theorem witness_SendCmdSendsOneSession :
    rangeInsideSM (ready base [] []).cfg 0xFFFF 1 = true ∧ rangeInsideSM (ready base [] []).cfg 0 0 = true ∧
      rangeInsideSM (ready base [] []).cfg 0xFFFF 2 = false := by decide

theorem witness_SendDataSendsItsSessions :
    (ready base [] []).cfg.wf = true ∧ rangeInsideSM (ready base [] []).cfg 0xFFFF 1 = true ∧
      rangeInsideSM (ready base [] []).cfg 0x00010000 0 = false := by decide

/-- No Byte, P Bytes and one more. -/
theorem witness_ChunkingIsTransparent :
    let s := ready { base with maxChunk := 3 } (fine 3) []
    s.cfg.wf = true ∧ s.cfg.p = 1 ∧ ∀ bytes ∈ [([] : List Byte), [1], [1, 2]],
      ∀ j < max 1 ((bytes.length + s.cfg.p - 1) / s.cfg.p), closeStatus s j = 0 := by decide

theorem witness_TransportCallsAreCounted :
    let s := ready { base with maxChunk := 3 } (fine 6) []
    s.cfg.wf = true ∧ rangeInsideSM s.cfg 0x40 3 = true ∧ (4 : Byte) ≠ 0 ∧ (2 : Byte) ≠ 0 ∧ (4 : Byte).toNat % 2 = 0 ∧
      ∀ j < 3 + sessionCount s.cfg.p (3 : BitVec 16).toNat, closeStatus s j = 0 := by decide

theorem witness_RenderAbortsBeforeData :
    (Instr.render 0 0 4 2 4 0x40).wf base = true ∧
    closeStatus (ready base [2] []) 0 ≠ 0 ∧
    (closeStatus (ready base [0, 5] []) 0 = 0 ∧ closeStatus (ready base [0, 5] []) 1 ≠ 0) ∧
    (closeStatus (ready base [0, 0, 3] []) 0 = 0 ∧ closeStatus (ready base [0, 0, 3] []) 1 = 0 ∧
      closeStatus (ready base [0, 0, 3] []) 2 ≠ 0) ∧
    base.wf = true ∧ ∀ j < 3, closeStatus (ready base (fine 3) []) j = 0 := by decide

/-- An even width, and odd widths at an even and at an odd left edge, up to the last column and row. -/
theorem witness_RenderCommandsTheRegionsSegments :
    let s := ready base (fine 3) []
    s.cfg.wf = true ∧ (∀ j < 3, closeStatus s j = 0) ∧
    ((Instr.render 120 100 6 28 84 0x40).wf s.cfg = true ∧ 120 + 6 ≤ 128 ∧ 100 + 28 ≤ 128) ∧
    ((Instr.render 124 0 4 1 2 0x40).wf s.cfg = true ∧ 124 + 4 ≤ 128) ∧
    ((Instr.render 125 0 3 1 2 0x40).wf s.cfg = true ∧ 125 + 3 ≤ 128) ∧
    ((Instr.render 124 0 3 1 2 0x40).wf s.cfg = true ∧ 124 + 3 ≤ 128 ∧ 0 + 1 ≤ 128) ∧
    ((Instr.render 1 0 3 1 2 0x40).wf s.cfg = true ∧ 1 + 3 ≤ 128) := by decide

theorem witness_RenderEvenWidthSendsTheBuffer :
    let s := ready base (fine 4) []
    s.cfg.wf = true ∧ (Instr.render 0 0 4 2 4 0x40).wf s.cfg = true ∧ (4 : Byte).toNat % 2 = 0 ∧
      (∀ j < 3, closeStatus s j = 0) ∧
      ∀ n < sessionCount s.cfg.p (4 : BitVec 16).toNat, closeStatus s (3 + n) = 0 := by decide

theorem witness_RenderOddWidthSendsThePixels :
    let s := ready base (fine 11) []
    s.cfg.wf = true ∧ (Instr.render 0 0 3 2 3 0x40).wf s.cfg = true ∧ (3 : Byte).toNat % 2 = 1 ∧
      (∀ j < 3 + (2 * (3 : BitVec 16).toNat + 2) * sessionCount s.cfg.p ((3 : Byte).toNat / 2 + 1),
        closeStatus s j = 0) ∧
      (1 + 1) * (3 : Byte).toNat ≤ 2 * (3 : BitVec 16).toNat := by decide

/-- The exact length for 3 x 2, and width 1. -/
theorem witness_RenderOddWidthRowCount :
    let s := ready base (fine 11) []
    s.cfg.wf = true ∧ ((Instr.render 0 0 3 2 3 0x40).wf s.cfg = true ∧ (3 : Byte).toNat % 2 = 1 ∧
      (∀ j < 3 + (2 * (3 : BitVec 16).toNat + 2) * sessionCount s.cfg.p ((3 : Byte).toNat / 2 + 1),
        closeStatus s j = 0) ∧ 1 < (3 : Byte).toNat ∧
        (3 : BitVec 16).toNat = ((3 : Byte).toNat * (2 : Byte).toNat + 1) / 2) ∧
    ((Instr.render 0 0 1 1 1 0x40).wf s.cfg = true ∧ (1 : Byte).toNat % 2 = 1 ∧
      (∀ j < 3 + (2 * (1 : BitVec 16).toNat + 2) * sessionCount s.cfg.p ((1 : Byte).toNat / 2 + 1),
        closeStatus s j = 0) ∧ (1 : BitVec 16).toNat = ((1 : Byte).toNat + 1) / 2) := by decide

theorem witness_RenderOddWidthStopsAtTheFailedRow :
    let s := ready base [0, 0, 0, 0, 4] []
    s.cfg.wf = true ∧ (Instr.render 0 0 3 3 5 0x40).wf s.cfg = true ∧ (3 : Byte).toNat % 2 = 1 ∧
      ∀ j < 3, closeStatus s j = 0 := by decide

theorem witness_ClearSendsZeros : (ready base [] []).cfg.wf = true := by decide

/-- The addressed and the strobe variant with 32-Byte sessions. -/
theorem witness_ClearOfTheFullDisplay :
    (let s := ready base (fine 274) []
    s.cfg.wf = true ∧ s.cfg.width = 128 ∧ s.cfg.height = 128 ∧ s.cfg.variant = .addressed ∧ s.cfg.maxChunk = 32 ∧
      sessionCount s.cfg.p 8192 = 274) ∧
    (let s := ready { base with variant := .strobe } (fine 274) []
    s.cfg.wf = true ∧ s.cfg.width = 128 ∧ s.cfg.height = 128 ∧ s.cfg.variant = .strobe ∧ s.cfg.maxChunk = 32 ∧
      sessionCount s.cfg.p 8192 = 265) := by decide

/-- The closes of those two. -/
theorem witness_ClearOfTheFullDisplay_closes (c : Config) (j : Nat) (h : j < 274) :
    closeStatus (ready c (fine 274) []) j = 0 := by
  have e : (ready c (fine 274) []).closes.getD (0 + j) (Config.freeCloseStatus (0 + j)) = 0 := by
    rw [List.getD_eq_getElem?_getD]
    simp only [ready, fine, List.getElem?_replicate, Nat.zero_add, if_pos h, Option.getD_some]
  simp only [closeStatus, show (ready c (fine 274) []).closeNo = 0 from rfl, e]
  simp [statusOnPort]

theorem witness_InitReportsItsOneFailure :
    let s := ready programD [0, 2, 0] []
    1 < s.cfg.initFrames.length ∧
      ((List.range s.cfg.initFrames.length).map (closeStatus s)).Perm [2, 0, 0] ∧
      ∀ i < s.cfg.initFrames.length, i ≠ 1 → closeStatus s i = 0 := by decide

theorem witness_IllegalOperandsAreRejected :
    (Instr.sendCmd 0xAF 2 0xFFFF).wf base = false ∧ (Instr.sendData 0 0x00010000).wf base = false ∧
      (Instr.render 0 0 0 1 0 0).wf base = false ∧ (Instr.render 0 0 1 0 0 0).wf base = false := by decide

theorem witness_RequestsKeepTheTransportContract :
    (ready base [] []).cfg.wf = true ∧ (ready base [] []).session = .closed := by decide

theorem witness_StatusIsTheTransports :
    (ready base [] []).cfg.wf = true ∧ aggregates .resetRange = true ∧ aggregates .clear = false ∧
      (Instr.sendCmd 0xAF 0 0).wf base = true ∧ (Instr.render 0 0 0 1 0 0).wf base = false := by decide

theorem witness_EveryCloseTakesTheNextAnswer : (ready base [7] []).cfg.wf = true := by decide

theorem witness_NoRequestReadsTheShadow : ∃ t, exec (.setColRange 0 63) (ready base (fine 1) []) = .next t := ⟨_, rfl⟩

theorem witness_NothingCarriesOverFromEarlierRequests :
    ∃ t, exec (.render 0 0 3 2 3 0x40) (ready base (fine 8) []) = .next t := ⟨_, rfl⟩

/-- Two memories that differ outside the range of SEND_DATA only. -/
theorem witness_RequestsReadOnlyTheirRange :
    (∀ a, readsAddress a (.sendData 2 0x40) →
      Memory.read a [(0x3F, 0x77), (0x40, 0x12)] = (ready base [] [(0x40, 0x12), (0x42, 0x99)]).mem.read a) ∧
    ∃ t, exec (.sendData 2 0x40) (ready base [] [(0x40, 0x12), (0x42, 0x99)]) = .next t := by
  refine ⟨fun a h => ?_, _, rfl⟩
  change 0x40 ≤ a ∧ a < 0x40 + 2 at h
  obtain rfl | rfl : a = 0x40 ∨ a = 0x41 := by omega
  all_goals decide

theorem witness_RequestsLeaveTheRestUnchanged : ∃ t, exec .init (ready programD (fine 3) []) = .next t := ⟨_, rfl⟩

/-- Opcodes that are no window opcodes, an INIT without them, and an unpulsed reset. -/
theorem witness_ShadowChangesOnlyByWindowCommands :
    ((0xAF : Byte) ≠ base.opSetColumn ∧ (0xAF : Byte) ≠ base.opSetRow) ∧
    (∀ f ∈ base.initFrames, f.opcode ≠ base.opSetColumn) ∧ (∀ f ∈ programD.initFrames, f.opcode ≠ programD.opSetRow) ∧
    hwAnswer { ready base [] [] with pulses := [false] } = false := by decide

theorem witness_ShadowChangesOnlyByWindowCommands_next (i : Instr) : ∃ t, exec i (ready base [] []) = .next t := by
  cases i <;> exact ⟨_, rfl⟩

theorem witness_PackerRegistersChangeOnlyInOddRenders :
    (∃ t, exec (.render 0 0 4 2 4 0x40) (ready base (fine 4) []) = .next t) ∧
    ∀ x y w h len src, Instr.render 0 0 4 2 4 0x40 = .render x y w h len src → w.toNat % 2 = 0 :=
  ⟨⟨_, rfl⟩, by rintro _ _ _ _ _ _ ⟨⟩; decide⟩

theorem witness_WholeRequestIsItsSteps :
    let s := presenting data3 (ready base (fine 1) [])
    s.cfg.wf = true ∧ s.script = [] ∧ s.busy = false ∧ s.port = some data3 := by decide

/-- The invariant of a block that has just accepted SEND_DATA. -/
theorem running_inv : Inv running where
  memCanonical := by decide
  memInside := by decide
  resultReserved := by decide
  resultStatus := by unfold StatusFits; decide
  cntWidth := by decide
  curWidth := by decide
  scratchWidth := by decide
  running := ⟨.between, ⟨rfl, _, .sendData 3 0x40, rfl, rfl, rfl, rfl, rfl, Nat.zero_le _, trivial, .inl rfl, rfl⟩, rfl,
    fun _ => rfl⟩

theorem witness_EveryStepKeepsTheInvariant : Inv running ∧ ∃ t, step running = .next t := ⟨running_inv, _, rfl⟩

theorem witness_ResetHasTheInvariant : base.wf = true := by decide

theorem witness_RunningRequestsNeverStop : running.cfg.wf = true ∧ running.busy = true ∧ Inv running :=
  ⟨by decide, by decide, running_inv⟩

/-- Block reset of a busy and of an idle block. -/
theorem witness_FaultReasonsOnlyAddUp :
    (∃ t, step { running with script := [.assertReset], fault := ⟨false, true, false⟩ } = .next t ∧ t.fault ≠ .empty) ∧
      ∃ t, step { ready base [] [] with script := [.assertReset], fault := ⟨false, true, false⟩ } = .next t ∧
        t.fault = .empty := ⟨⟨_, rfl, by decide⟩, _, rfl, rfl⟩

theorem witness_TraceOnlyGrows :
    (∃ t, step running = .next t) ∧
      ∃ t, step { ready base [] [] with script := [.assertReset], trace := [.settled] } = .next t ∧ t.trace = [] :=
  ⟨⟨_, rfl⟩, _, rfl, rfl⟩

theorem witness_ResultIsThePreviousWhileBusy :
    ∃ t, ppStep { running with result := 0x00020000 } = .next t ∧ t.busy = true := ⟨_, rfl, rfl⟩

theorem witness_UnknownRequestIsRecorded :
    let s := { ready base [] [] with busy := true, seq := .run .sendCmd (.argByte []) }
    s.busy = true ∧ s.seq = .run .sendCmd (.argByte []) ∧ s.req = none := by decide

theorem witness_BlockResetSetsEveryElement :
    let s := { ready base [] [] with script := [.assertReset, .letPP], fault := ⟨false, true, false⟩ }
    s.cfg.wf = true ∧ s.script = .assertReset :: [.letPP] ∧ s.busy = false := by decide

theorem witness_ResetMidOperationIsRecorded :
    let s := { running with script := [.assertReset] }
    s.cfg.wf = true ∧ s.script = .assertReset :: [] ∧ s.busy = true := by decide

/-- The first and the last address of the range of `running`, the addresses on both sides, and an idle block. -/
theorem witness_SourceRaceIsRecorded :
    running.req = some (latch base data3) ∧ running.busy = true ∧ (latch base data3).op = 2 ∧
    (latch base data3).src.toNat = 0x40 ∧ (latch base data3).len.toNat = 3 ∧
    (0x40 < 2 ^ running.cfg.addrBits ∧ 0x40 ≤ 0x40 ∧ 0x40 < 0x40 + 3) ∧ (0x40 ≤ 0x42 ∧ 0x42 < 0x40 + 3) ∧
    0x3F < 0x40 ∧ 0x40 + 3 ≤ 0x43 ∧ { running with busy := false }.busy = false := by decide

/-- SEND_CMD of 2 arguments at 0x40. -/
def cmd2 : Descriptor := ⟨0x0000E201, 0x00020000, 0x00000040⟩

/-- RENDER of 3 x 3 pixels, 5 Bytes at 0x40. -/
def render3 : Descriptor := ⟨0x03040206, 0x00050003, 0x00000040⟩

/-- A request that has been accepted and has come to this position. -/
def runningAt (d : Descriptor) (op : Op) (pos : Pos) : State := { accept d (ready base [] []) with seq := .run op pos }

/-- The hypotheses of the statement that all its clauses share, for the source Byte `j`. -/
abbrev RacesAt (s : State) (op : Op) (pos : Pos) (r : Req) (j : Nat) : Prop :=
  s.busy = true ∧ s.seq = .run op pos ∧ s.req = some r ∧ usesSource r.op = true ∧ j < r.len.toNat ∧
    r.src.toNat + j < 2 ^ s.cfg.addrBits

/-- One state for each clause: the arguments of SEND_CMD while they are read, before its session, and inside it with the
marker, the opcode or the last argument to write; a payload Byte; a row that is read; and the three rows in the row buffer, at the first and the last Byte that may still change. -/
theorem witness_RacedBytesInFlightAreFree :
    (∀ pos ∈ [Pos.argByte [0x01, 0x02], .cmdOpen .sendCmd (cmdBytes base 0xE2 [0x01, 0x02]),
        .cmdNext .sendCmd ((cmdBytes base 0xE2 [0x01, 0x02]).drop 0),
        .cmdNext .sendCmd ((cmdBytes base 0xE2 [0x01, 0x02]).drop 1),
        .cmdNext .sendCmd ((cmdBytes base 0xE2 [0x01, 0x02]).drop 3)],
      RacesAt (runningAt cmd2 .sendCmd pos) .sendCmd pos (latch base cmd2) 1) ∧
    [0x01, (0x02 : Byte)].length = (latch base cmd2).len.toNat ∧
    (let pos := Pos.dataPut .last .sourceMemory 1 3 0x02
    RacesAt (runningAt data3 .sendData pos) .sendData pos (latch base data3) 1) ∧
    (let pos := Pos.rowByte .odd [0x56]
    let s := { runningAt render3 .render pos with cur := 2 }
    RacesAt s .render pos (latch base render3) 2 ∧ s.cur ≤ 2) ∧
    (let pos := Pos.dataOpen .packRow .rowBuffer 1 2
    let s := { runningAt render3 .render pos with scratch := [0x12, 0x30], carry := 0x04 }
    RacesAt s .render pos (latch base render3) 1 ∧ rowInBuffer .packRow s = .even ∧
      s.scratch = (loadRow .even [0x12, 0x34] s).scratch ∧ s.carry = (loadRow .even [0x12, 0x34] s).carry ∧
      s.cur + 1 ≤ 1 ∧ 1 < s.cur + [0x12, 0x34].length) ∧
    (let pos := Pos.dataMark .packRow .rowBuffer 0 2
    let s := { runningAt render3 .render pos with phase := .odd, scratch := [0x45, 0x60], carry := 0x04, cur := 2 }
    RacesAt s .render pos (latch base render3) 2 ∧ rowInBuffer .packRow s = .odd ∧
      s.scratch = (loadRow .odd [0x56] s).scratch ∧ s.carry = (loadRow .odd [0x56] s).carry ∧
      s.cur + 0 ≤ 2 ∧ 2 < s.cur + [0x56].length) ∧
    (let pos := Pos.dataNext .last .rowBuffer 0 1
    let s := { runningAt render3 .render pos with scratch := [0x90], cur := 4 }
    RacesAt s .render pos (latch base render3) 4 ∧ rowInBuffer .last s = .terminal ∧
      s.scratch = (loadRow .terminal [0x9A] s).scratch ∧ s.carry = (loadRow .terminal [0x9A] s).carry ∧
      s.cur + 0 ≤ 4 ∧ 4 < s.cur + [0x9A].length) := by decide

/-- The last address of source memory, and the first one past it. -/
theorem witness_HostWritesOneByte :
    (let s := { ready base [] [(0x40, 0x12)] with script := [.writeByte 0xFFFF 0x7F] }
    s.cfg.wf = true ∧ s.script = .writeByte 0xFFFF 0x7F :: [] ∧ s.mem.wf = true ∧ 0xFFFF < 2 ^ s.cfg.addrBits) ∧
    (let s := { ready base [] [] with script := [.writeByte 0x10000 0x7F] }
    s.cfg.wf = true ∧ s.script = .writeByte 0x10000 0x7F :: [] ∧ s.mem.wf = true ∧ 2 ^ s.cfg.addrBits ≤ 0x10000) := by
  decide

/-- The first clause after a race at another address; the second at the last address of source memory. -/
theorem witness_MemReadIsTheByteOfSourceMemory :
    (let s := { accept data3 (ready base [] []) with raced := [0x41] }
    0x40 ∉ s.raced) ∧
    (let s := { ready base [] [(0x40, 0x12)] with script := [.writeByte 0xFFFF 0x7F], port := some data3 }
    s.cfg.wf = true ∧ s.mem.wf = true ∧ s.busy = false ∧ s.port = some data3 ∧ s.script = [.writeByte 0xFFFF 0x7F] ∧
      0xFFFF < 2 ^ s.cfg.addrBits) := by decide

theorem witness_CanonicalMemoriesAreUnique :
    Memory.wf [(0, 0x01), (1, 0xFF)] = true ∧
      ∀ a, Memory.read a [(0, 0x01), (1, 0xFF)] = Memory.read a [(0, 0x01), (1, 0xFF)] := ⟨by decide, fun _ => rfl⟩

end Sys2Proof.Tests
end

/-! PROOFS. The scope (00_scope.md R7, R10): what a step of the machine is, and that a whole request is its single
steps. -/

namespace Sys2Proof.Machine

/-! ### The configuration (R10) -/

/-- R10: the checks a refused configuration fails. -/
theorem configWf_eq_false (c : Config)
    (h : c.width = 0 ∨ c.height = 0 ∨ c.ctrlCmd = c.ctrlData ∨ c.maxChunk < c.hdr + 1) : c.wf = false := by
  have hw : c.wellFormed = false := by
    simp only [Config.wellFormed, Bool.and_eq_false_iff, decide_eq_false_iff_not]
    rcases h with h | h | h | h
    · exact .inl (.inl (.inl (by omega)))
    · exact .inl (.inl (.inr (by omega)))
    · exact .inl (.inr (not_not_intro h))
    · exact .inr (by omega)
  rw [Config.wf, hw, Bool.false_and]

/-- R9: HDR by the variant. -/
theorem hdr_eq (c : Config) : c.hdr = if c.variant = .addressed then 2 else 1 := by
  unfold Config.hdr
  cases c.variant <;> rfl

theorem step_of_not_wf {s : State} (h : s.cfg.wf = false) : step s = .refused .configNotWellFormed := by
  simp [step, h]

/-- Only a machine with a well-formed configuration has a next state. -/
theorem wf_of_step {s t : State} (h : step s = .next t) : s.cfg.wf = true := by
  by_contra hw
  rw [step_of_not_wf (Bool.not_eq_true _ ▸ hw)] at h
  cases h

/-! ### One step of R7 -/

theorem ppStep_busy {s : State} (hb : s.busy = true) : ppStep s = tick s := by simp [ppStep, hb]

theorem ppStep_accept {s : State} {d : Descriptor} (hb : s.busy = false) (hp : s.port = some d) :
    ppStep s = .next (accept d s) := by simp [ppStep, hb, hp]

theorem ppStep_wait {s : State} (hb : s.busy = false) (hp : s.port = none) : ppStep s = .next s := by
  simp [ppStep, hb, hp]

theorem tick_rejecting {s : State} {reason : Reject} (hq : s.seq = .rejecting reason) :
    tick s = .next (reject reason s) := by simp [tick, hq]

theorem tick_run {s : State} {op : Op} {pos : Pos} {r : Req} (hq : s.seq = .run op pos) (hr : s.req = some r) :
    tick s = stepAt op pos r s := by simp [tick, hq, hr]

/-- R125: acceptance makes no transport call. -/
theorem accept_trace (d : Descriptor) (s : State) : (accept d s).trace = s.trace := by
  obtain ⟨q, e, -, -⟩ := accept_frame d s
  rw [e]; rfl

/-- R7: a step of PP makes at most one transport call. -/
theorem ppStep_trace {s t : State} (h : ppStep s = .next t) :
    t.trace = s.trace ∨ ∃ e, t.trace = s.trace ++ [e] := by
  by_cases hb : s.busy = true
  · rw [ppStep_busy hb] at h
    exact (tick_extends h).trace
  · rw [Bool.not_eq_true] at hb
    left
    cases hp : s.port with
    | none =>
      rw [ppStep_wait hb hp, Host.Outcome.next.injEq] at h
      rw [h]
    | some d =>
      rw [ppStep_accept hb hp, Host.Outcome.next.injEq] at h
      rw [← h, accept_trace]

/-! ### What the last frame of a request leaves alone

A frame and the packer do not read BUSY (`withUnread`), so they leave it as it is. -/

theorem framedData_busy (bytes : List Byte) (s : State) : (framedData bytes s).2.busy = s.busy :=
  congrArg (·.2.busy) (framedData_withUnread s bytes s)

theorem framedData_req (bytes : List Byte) (s : State) : (framedData bytes s).2.req = s.req :=
  (framedData_keep bytes s).2.1

theorem pack_busy (w : Byte) (base len : Nat) (s : State) : (pack w base len s).2.busy = s.busy :=
  congrArg (·.2.busy) (pack_withUnread s w base len s fun _ _ _ => rfl)

theorem pack_req (w : Byte) (base len : Nat) (s : State) : (pack w base len s).2.req = s.req :=
  (pack_keep w base len s).2.1

/-! ### The steps of each request

Each operation's single steps, from its first position on, lead to the state its `exec` leaves. -/

/-- R114: `THwReset` does not read SEQ. -/
theorem afterHwReset_goto (op : Op) (pos : Pos) (s : State) :
    afterHwReset (tHwReset (goto op pos s)) = goto op pos (afterHwReset (tHwReset s)) := by
  change (if hwAnswer s then _ else _) = goto op pos (if hwAnswer s then _ else _)
  split <;> rfl

/-- R95: the statements after a window frame of RENDER: the next one if its status is 0, else `Finish`. -/
theorem andThen_steps {op : Op} {r : Req} {u : State} {f : Status × State} {next : State → Status × State}
    (hb : f.2.busy = true) (hr : f.2.req = some r) (h : f.1 = 0 → BusySteps u (endRequest (next f.2))) :
    BusySteps (if f.1 = 0 then u else goto op (.finish f.1 false) f.2) (endRequest (andThen f next)) := by
  by_cases h0 : f.1 = 0
  · rw [if_pos h0, andThen_pos h0]
    exact h h0
  · rw [if_neg h0, andThen_neg h0]
    exact finish_steps op r _ false _ hb hr

section requests
variable {op : Op} {r : Req} {s t : State} (hb : s.busy = true) (hr : s.req = some r)
include hb hr

/-- A data frame whose status is the status of the request. -/
theorem lastFrame_steps {source : DataSource} {bytes : List Byte} (hp : 1 ≤ s.cfg.p)
    (hg : Supplies source r s bytes) :
    BusySteps (goto op (.dataOpen .last source 0 bytes.length) s) (endRequest (framedData bytes s)) := by
  refine frame_steps op r .last source bytes s _ hp hb hr hg ?_
  exact finish_steps op r _ false _ ((framedData_busy bytes s).trans hb) ((framedData_req bytes s).trans hr)

/-- R44: source memory supplies the Bytes of the request's range. -/
theorem source_steps (hp : 1 ≤ s.cfg.p) (hx : ∀ i < r.len.toNat, addressExists (r.src.toNat + i) s = true) :
    BusySteps (goto op (.dataOpen .last .sourceMemory 0 r.len.toNat) s)
      (endRequest (framedData (readBytes r.src.toNat r.len.toNat s) s)) := by
  have supplies : Supplies .sourceMemory r s (readBytes r.src.toNat r.len.toNat s) := fun i hi =>
    ⟨by simp [readBytes], hx i (by rwa [readBytes_length] at hi)⟩
  have h := lastFrame_steps (op := op) hb hr hp supplies
  rwa [readBytes_length] at h

/-- R110: the frame of zeros made inside the block. -/
theorem zeros_steps (hp : 1 ≤ s.cfg.p) (n : Nat) :
    BusySteps (goto op (.dataOpen .last .zeros 0 n) s) (endRequest (framedData (List.replicate n 0x00) s)) := by
  have supplies : Supplies .zeros r s (List.replicate n 0x00) := by simp [Supplies]
  have h := lastFrame_steps (op := op) hb hr hp supplies
  rwa [List.length_replicate] at h

/-- R87: the argument Bytes are read, and then the session is sent. -/
theorem sendCmd_steps (hx : ∀ i < r.len.toNat, addressExists (r.src.toNat + i) s = true) :
    BusySteps (beginRequest .sendCmd r s)
      (endSendCmd r.p0 (framedCmd r.p0 (readBytes r.src.toNat r.len.toNat s) s)) := by
  refine args_steps .sendCmd r s _ hb hr hx 0 (Nat.zero_le _) (cmd_steps _ r _ _ _ s _ hb hr ?_)
  exact finish_steps _ r _ _ _ ((framedCmd_busy ..).trans hb) ((framedCmd_req ..).trans hr)

/-- R90: one column frame. -/
theorem setColRange_steps : BusySteps (beginRequest .setColRange r s)
    (endRequest (colFrame (maskCol r.p0) (maskCol r.p1) s)) := by
  refine cmd_steps _ r .setCol _ _ s _ hb hr ?_
  exact finish_steps _ r _ _ _ ((colFrame_busy ..).trans hb) ((colFrame_req ..).trans hr)

/-- R91: one row frame. -/
theorem setRowRange_steps : BusySteps (beginRequest .setRowRange r s)
    (endRequest (rowFrame (maskRow r.p0) (maskRow r.p1) s)) := by
  refine cmd_steps _ r .setRow _ _ s _ hb hr ?_
  exact finish_steps _ r _ _ _ ((rowFrame_busy ..).trans hb) ((rowFrame_req ..).trans hr)

/-- R92: the column frame's steps, then the row frame's. -/
theorem resetRange_steps : BusySteps (beginRequest .resetRange r s) (endRequest (fullRange s)) := by
  have hcol : (colFrame 0 (fullColEnd s.cfg) s).2.cfg = s.cfg := colFrame_cfg ..
  refine cmd_steps _ r .rangeCol _ _ s _ hb hr ?_
  simp only [resume, framedCmd_cfg]
  change BusySteps (goto _ _ (colFrame 0 (fullColEnd s.cfg) s).2) _
  refine cmd_steps_of_cfg _ r _ _ _ _ _ _ hcol ((colFrame_busy ..).trans hb) ((colFrame_req ..).trans hr) ?_
  simp only [resume, framedCmd_cfg, hcol, fullRange, rowFrame]
  refine finish_steps _ r _ _ _ ?_ ?_
  · rw [updateRows_busy, framedCmd_busy, colFrame_busy, hb]
  · rw [updateRows_req, framedCmd_req, colFrame_req, hr]

/-- R114: the hardware reset, and then `Finish`. -/
theorem transportReset_steps : BusySteps (beginRequest .transportReset r s)
    (finish 0 false (tHwReset s).1 (afterHwReset (tHwReset s))) := by
  refine BusySteps.tick hb hr rfl ?_
  rw [afterHwReset_goto]
  refine finish_steps _ r _ _ _ ?_ ?_
  · unfold afterHwReset; split <;> exact hb
  · unfold afterHwReset; split <;> exact hr

/-- R99: `Pack`, from its first statement on. -/
theorem packBegin_steps (hp : 1 ≤ s.cfg.p)
    (hx : ∀ i < r.len.toNat, addressExists (r.src.toNat + i) s = true) :
    BusySteps (packBegin op r s) (endRequest (pack r.p2 r.src.toNat r.len.toNat s)) := by
  have hb' := (pack_busy r.p2 r.src.toNat r.len.toNat s).trans hb
  have hr' := (pack_req r.p2 r.src.toNat r.len.toNat s).trans hr
  unfold packBegin
  unfold pack at hb' hr' ⊢
  by_cases hw : r.p2.toNat % 2 = 0
  · simp only [if_pos hw]
    exact source_steps hb hr hp hx
  · simp only [if_neg hw] at hb' hr' ⊢
    refine pack_steps op r _ (packFuel r.len.toNat) (startPack s) ?_ hp hb hr hx (Nat.zero_le _) ?_
    · simp only [startPack, packMeasure, packFuel]; omega
    · exact finish_steps op r _ false _ hb' hr'

/-- R98: RENDER from its start-line frame on. -/
theorem renderLine_steps {c : Config} (hc : s.cfg = c) (hp : 1 ≤ c.p)
    (hx : ∀ i < r.len.toNat, addressExists (r.src.toNat + i) s = true) :
    BusySteps (goto op (.cmdOpen .renderLine (cmdBytes c c.opStartLine [0x00])) s)
      (endRequest (andThen (startLineFrame s) fun s => pack r.p2 r.src.toNat r.len.toNat s)) := by
  subst hc
  have hb' : (startLineFrame s).2.busy = true := (framedCmd_busy ..).trans hb
  have hr' : (startLineFrame s).2.req = some r := (framedCmd_req ..).trans hr
  have hc' : (startLineFrame s).2.cfg = s.cfg := framedCmd_cfg ..
  refine cmd_steps op r .renderLine _ _ s _ hb hr ?_
  refine andThen_steps (f := startLineFrame s) hb' hr' fun _ =>
    packBegin_steps (s := (startLineFrame s).2) hb' hr' ?_ ?_
  · rwa [hc']
  · simpa only [addressExists, hc'] using hx

/-- R97: RENDER from its column frame on. -/
theorem renderCol_steps {c : Config} (hc : s.cfg = c) (hp : 1 ≤ c.p)
    (hx : ∀ i < r.len.toNat, addressExists (r.src.toNat + i) s = true) :
    BusySteps (goto op (.cmdOpen .renderCol
        (cmdBytes c c.opSetColumn (colArgs (renderColStart r.p0) (renderColEnd r.p0 r.p2)))) s)
      (endRequest (andThen (colFrame (renderColStart r.p0) (renderColEnd r.p0 r.p2) s) fun s =>
        andThen (startLineFrame s) fun s => pack r.p2 r.src.toNat r.len.toNat s)) := by
  subst hc
  have hb' := (colFrame_busy (renderColStart r.p0) (renderColEnd r.p0 r.p2) s).trans hb
  have hr' := (colFrame_req (renderColStart r.p0) (renderColEnd r.p0 r.p2) s).trans hr
  have hc' := colFrame_cfg (renderColStart r.p0) (renderColEnd r.p0 r.p2) s
  refine cmd_steps op r .renderCol _ _ s _ hb hr ?_
  simp only [resume, framedCmd_cfg]
  refine andThen_steps (f := colFrame _ _ s) hb' hr' fun _ => renderLine_steps hb' hr' hc' hp ?_
  simpa only [addressExists, hc'] using hx

/-- R95, R96: all of RENDER, its row frame first. -/
theorem render_steps (hp : 1 ≤ s.cfg.p) (hx : ∀ i < r.len.toNat, addressExists (r.src.toNat + i) s = true) :
    BusySteps (beginRequest .render r s)
      (endRequest (render r.p0 r.p1 r.p2 r.p3 r.src.toNat r.len.toNat s)) := by
  have hb' := (rowFrame_busy (renderRowStart r.p1) (renderRowEnd r.p1 r.p3) s).trans hb
  have hr' := (rowFrame_req (renderRowStart r.p1) (renderRowEnd r.p1 r.p3) s).trans hr
  have hc' := rowFrame_cfg (renderRowStart r.p1) (renderRowEnd r.p1 r.p3) s
  refine cmd_steps _ r .renderRow _ _ s _ hb hr ?_
  simp only [resume, framedCmd_cfg]
  refine andThen_steps (f := rowFrame _ _ s) hb' hr' fun _ => renderCol_steps hb' hr' hc' hp ?_
  simpa only [addressExists, hc'] using hx

/-- R65: the steps of every well-formed request are its `exec`. -/
theorem request_steps {i : Instr} (hw : s.cfg.wf = true) (hi : requestOf r = some i) (hwf : i.wf s.cfg = true)
    (h : exec i s = .next t) : BusySteps (beginRequest i.op r s) t := by
  have hp := one_le_p _ hw
  have hrun : Running s i.op r := ⟨hb, hr, i, hi, rfl, hwf⟩
  cases ho : opOfField r.op with
  | none => simp only [requestOf, ho, reduceCtorEq] at hi
  | some op =>
    cases op <;> simp only [requestOf, ho, Option.some.injEq] at hi <;> subst hi
    case sendCmd =>
      rw [exec, execSendCmd, ifLegal_wf _ _ _ hwf] at h
      cases h
      exact sendCmd_steps hb hr (run_range hrun (.inl rfl))
    case sendData =>
      rw [exec, execSendData, ifLegal_wf _ _ _ hwf] at h
      cases h
      exact source_steps hb hr hp (run_range hrun (.inr (.inl rfl)))
    case render =>
      rw [exec_render s hwf] at h
      cases h
      exact render_steps hb hr hp (run_range hrun (.inr (.inr rfl)))
    case setColRange => cases h; exact setColRange_steps hb hr
    case setRowRange => cases h; exact setRowRange_steps hb hr
    case resetRange => cases h; exact resetRange_steps hb hr
    case clear => cases h; exact zeros_steps hb hr hp _
    case init => cases h; exact init_steps r _ 0 s hb hr
    case transportReset => cases h; exact transportReset_steps hb hr

end requests

/-! ### The whole request -/

/-- The first position of a request does not depend on the position before it. -/
theorem beginRequest_beginRequest (op : Op) (r : Req) (s : State) :
    beginRequest op r (beginRequest op r s) = beginRequest op r s := by
  cases op with
  | sendCmd => simp only [beginRequest, gatherArgs]; split <;> rfl
  | init =>
    have hc := (quiet_begin .init r s).cfg
    change initNext .init (beginRequest .init r s).cfg.initFrames 0 _ = _
    rw [hc]
    simp only [beginRequest]
    cases s.cfg.initFrames <;> rfl
  | _ => rfl

/-- R118: a request that is not well formed is rejected. -/
theorem exec_of_not_wf {i : Instr} {s : State} (h : i.wf s.cfg = false) :
    ∃ reason, exec i s = .next (reject reason s) := by
  have gate (body : State → State) : ∃ reason, (.next (ifLegal i body s) : Host.Outcome State Fault Refusal) =
      .next (reject reason s) := (ifLegal_not_wf i body s h).imp fun _ e => by rw [e]
  cases i
  case sendCmd => exact gate _
  case sendData => exact gate _
  case render => exact gate _
  all_goals cases h

/-- R70: a decoded request of an illegal descriptor fails a check on its operands. -/
theorem not_wf_of_illegal {c : Config} {d : Descriptor} {i : Instr} {reason : Reject} (hd : decode d = .ok i)
    (h : checkRequest c d = .error reason) : i.wf c = false := by
  by_contra hwf
  rw [Bool.not_eq_false, ← operandCheck_eq_none] at hwf
  simp [checkRequest, hd, hwf] at h

/-- R118: the move `letRequest` rejects an illegal descriptor, whichever check it fails (the reason is a label only and
leaves no trace in the state). -/
theorem runRequest_of_illegal {d : Descriptor} {s : State} {reason : Reject}
    (h : checkRequest s.cfg d = .error reason) : runRequest d s = .next (reject reason (accept d s)) := by
  obtain ⟨q, hq, -, -⟩ := accept_frame d s
  unfold runRequest
  cases hd : decode d with
  | error _ => rfl
  | ok i =>
    have hwf : i.wf (accept d s).cfg = false := by rw [hq]; exact not_wf_of_illegal hd h
    obtain ⟨_, rejected⟩ := exec_of_not_wf hwf
    exact rejected

/-- R118: the step after the acceptance of an illegal descriptor ends its request. -/
theorem rejected_steps {d : Descriptor} {s : State} {reason : Reject} (h : checkRequest s.cfg d = .error reason) :
    BusySteps (accept d s) (reject reason (accept d s)) := by
  rw [accept_error d s reason h]
  exact BusySteps.head (tick_rejecting rfl) rfl (BusySteps.refl _)

/-- R125: the steps after the acceptance of a legal descriptor are the `exec` of its request. -/
theorem accepted_steps {d : Descriptor} {s t : State} {i : Instr} (hw : s.cfg.wf = true)
    (h : checkRequest s.cfg d = .ok i) (ht : exec i (accept d s) = .next t) : BusySteps (accept d s) t := by
  have ha : accept d s = beginRequest i.op (latch s.cfg d) (latchRequest d s) := by simp [accept, h]
  obtain ⟨q, hq, -, -⟩ := accept_frame d s
  have hc : (accept d s).cfg = s.cfg := by rw [hq]; rfl
  have hb : (accept d s).busy = true := by rw [hq]; rfl
  have hr : (accept d s).req = some (latch s.cfg d) := by rw [hq]; rfl
  have steps := request_steps hb hr (hc.symm ▸ hw) (requestOf_latch h) (hc.symm ▸ (checkRequest_ok h).2) ht
  rwa [ha, beginRequest_beginRequest, ← ha] at steps

/-- R22, R151: the whole request is what the single steps after its acceptance come to. -/
theorem runRequest_steps (d : Descriptor) {s : State} (hw : s.cfg.wf = true) :
    ∃ t, runRequest d s = .next t ∧ t.busy = false ∧ BusySteps (accept d s) t := by
  cases h : checkRequest s.cfg d with
  | error reason => exact ⟨_, runRequest_of_illegal h, rfl, rejected_steps h⟩
  | ok i =>
    obtain ⟨hd, hwf⟩ := checkRequest_ok h
    obtain ⟨q, hq, -, -⟩ := accept_frame d s
    obtain ⟨st, u, hu⟩ := exec_ends_with_finish i (accept d s) (by rw [hq]; exact hwf)
    exact ⟨_, by rw [runRequest, hd]; exact hu, rfl, accepted_steps hw h hu⟩

/-- R7: with nothing planned, a step of an idle block with a descriptor presented, and the steps after it. -/
theorem steps_of_accept {d : Descriptor} {s : State} (hw : s.cfg.wf = true) (hs : s.script = []) (hb : s.busy = false)
    (hp : s.port = some d) (n : Nat) : steps (n + 1) s = steps n (accept d s) := by
  rw [steps, step_of_script_nil hw hs, ppStep_accept hb hp]

/-- The move `letRequest` of an idle block with a descriptor presented. -/
theorem step_letRequest {d : Descriptor} {s : State} (hw : s.cfg.wf = true) (hs : s.script = []) (hb : s.busy = false)
    (hp : s.port = some d) : step { s with script := [.letRequest] } = runRequest d s := by
  have he : { s with script := [] } = s := by rw [← hs]
  calc step { s with script := [.letRequest] }
    _ = requestMove { s with script := [] } := by simp only [step, hw, if_true, move, hostMove]
    _ = requestMove s := by rw [he]
    _ = runRequest d s := by simp [requestMove, hb, hp]

/-! ### The statements -/

/-- Settles O14: each of the four conditions fails one of the checks of R10. -/
theorem malformedConfigurationIsRefused : Obligations.MalformedConfigurationIsRefused := by
  intro s h
  rw [← hdr_eq] at h
  exact step_of_not_wf (configWf_eq_false s.cfg h)

/-- Settles O6: with nothing planned a step is `ppStep`, which accepts or takes the step at SEQ. -/
theorem stepIsOneStepOfPP : Obligations.StepIsOneStepOfPP := by
  intro s hw hs
  rw [step_of_script_nil hw hs]
  refine ⟨fun d hb hp => ppStep_accept hb hp, fun reason hb hq => ?_, fun op pos r hb hq hr => ?_⟩
  · rw [ppStep_busy hb, tick_rejecting hq]
  · rw [ppStep_busy hb, tick_run hq hr]

/-- Settles O7: only a machine with a well-formed configuration steps, and its step is one of PP. -/
theorem stepMakesAtMostOneCall : Obligations.StepMakesAtMostOneCall := by
  intro s t hs h
  rw [step_of_script_nil (wf_of_step h) hs] at h
  exact ppStep_trace h

/-- Settles O44: the acceptance is the first step, and the steps after it are those of the request
(`runRequest_steps`). -/
theorem wholeRequestIsItsSteps : Obligations.WholeRequestIsItsSteps := by
  intro s d hw hs hb hp
  obtain ⟨t, hrun, hbt, n, hn, hbusy⟩ := runRequest_steps d hw
  obtain ⟨q, hq, -, -⟩ := accept_frame d s
  have hwa : (accept d s).cfg.wf = true := by rw [hq]; exact hw
  have hsa : (accept d s).script = [] := by rw [hq]; exact hs
  refine ⟨n, t, (step_letRequest hw hs hb hp).trans hrun, ?_, hbt, fun m hm => ?_⟩
  · rw [steps_of_accept hw hs hb hp]
    exact steps_eq_ticks hwa hsa hn hbusy
  · obtain ⟨u, hu, hbu⟩ := hbusy m hm
    refine ⟨u, ?_, hbu⟩
    rw [steps_of_accept hw hs hb hp]
    exact steps_eq_ticks hwa hsa hu fun k hk => hbusy k (by omega)

end Sys2Proof.Machine

/-! PROOFS. The state of the block (10_state.md, the steps): what a step of the machine can be, said once, and from it the
invariant, FAULT, the trace and RESULT along every step. -/

namespace Sys2Proof.Machine

/-! ### What a step can be -/

/-- What PP does in one move: perhaps an acceptance, and then steps of R7. -/
def PPMove (s t : State) : Prop :=
  ∃ u n, (u = s ∨ ∃ d, s.busy = false ∧ u = accept d s) ∧ ticks n u = .next t

theorem ticks_one {s t : State} (h : tick s = .next t) : ticks 1 s = .next t := by simp [ticks, h]

/-- What every step of R7 keeps, any number of them keeps. -/
theorem ticks_keep {P : State → Prop} (hP : ∀ s t, P s → tick s = .next t → P t) (n : Nat) {s t : State} (hs : P s)
    (h : ticks n s = .next t) : P t := by
  induction n generalizing s with
  | zero => cases h; exact hs
  | succ n ih =>
    rw [ticks] at h
    cases hu : tick s with
    | next u => rw [hu] at h; exact ih (hP s u hs hu) h
    | fault _ => rw [hu] at h; cases h
    | refused _ => rw [hu] at h; cases h

/-- R125: a step of PP alone. -/
theorem ppMove_of_ppStep {s t : State} (h : ppStep s = .next t) : PPMove s t := by
  cases hb : s.busy with
  | true => exact ⟨s, 1, .inl rfl, ticks_one (ppStep_busy hb ▸ h)⟩
  | false =>
    cases hp : s.port with
    | none => exact ⟨s, 0, .inl rfl, (ppStep_wait hb hp).symm.trans h⟩
    | some d => exact ⟨accept d s, 0, .inr ⟨d, hb, rfl⟩, (ppStep_accept hb hp).symm.trans h⟩

theorem requestMove_busy {s : State} (hb : s.busy = true) : requestMove s = tick s := by simp [requestMove, hb]

theorem requestMove_wait {s : State} (hb : s.busy = false) (hp : s.port = none) : requestMove s = .next s := by
  simp [requestMove, hb, hp]

theorem requestMove_run {s : State} {d : Descriptor} (hb : s.busy = false) (hp : s.port = some d) :
    requestMove s = runRequest d s := by simp [requestMove, hb, hp]

/-- The move `letRequest`: a whole request is its steps (`runRequest_steps`). -/
theorem ppMove_of_requestMove {s t : State} (hw : s.cfg.wf = true) (h : requestMove s = .next t) : PPMove s t := by
  cases hb : s.busy with
  | true => exact ⟨s, 1, .inl rfl, ticks_one (requestMove_busy hb ▸ h)⟩
  | false =>
    cases hp : s.port with
    | none => exact ⟨s, 0, .inl rfl, (requestMove_wait hb hp).symm.trans h⟩
    | some d =>
      obtain ⟨u, hu, -, n, hn, -⟩ := runRequest_steps d hw
      rw [requestMove_run hb hp, hu] at h
      cases h
      exact ⟨accept d s, n, .inr ⟨d, hb, rfl⟩, hn⟩

/-- A state with another plan of HOST's. -/
def withPlan (rest : List HostAct) (s : State) : State := { s with script := rest }

/-- A step takes HOST's next planned action off the plan, if there is one, and is a move of PP, a change of the port, a
HOST write or a block reset. -/
theorem step_cases {s t : State} (h : step s = .next t) : ∃ rest,
    PPMove (withPlan rest s) t ∨ (∃ p, t = withPort p (withPlan rest s)) ∨
      (∃ a b, hostWrite a b (withPlan rest s) = .next t) ∨
      (s.script = .assertReset :: rest ∧ t = blockReset (withPlan rest s)) := by
  have hw := wf_of_step h
  have hm : move s = .next t := by simpa [step, hw] using h
  unfold move at hm
  split at hm
  · next hs =>
    have plan : withPlan [] s = s := by rw [withPlan, ← hs]
    exact ⟨[], .inl (plan.symm ▸ ppMove_of_ppStep hm)⟩
  · next act rest hs =>
    refine ⟨rest, ?_⟩
    cases act with
    | present d => cases hm; exact .inr (.inl ⟨_, rfl⟩)
    | withdraw => cases hm; exact .inr (.inl ⟨_, rfl⟩)
    | writeByte a b => exact .inr (.inr (.inl ⟨a, b, hm⟩))
    | assertReset => cases hm; exact .inr (.inr (.inr ⟨hs, rfl⟩))
    | letPP => exact .inl (ppMove_of_ppStep hm)
    | letRequest => exact .inl (ppMove_of_requestMove hw hm)

/-- R42, R56: a HOST write is inside SM; beside the memory it changes only what a source race records and redraws. -/
theorem hostWrite_cases {a : Nat} {b : Byte} {s t : State} (h : hostWrite a b s = .next t) :
    a < 2 ^ s.cfg.addrBits ∧ (t = { s with mem := s.mem.write a b } ∨
      t = redraw a (Config.racedByte (s.raceNo + 1) a) { s with
        mem := s.mem.write a b, fault := addSourceRace s.fault, raced := a :: s.raced, raceNo := s.raceNo + 1 }) := by
  unfold hostWrite at h
  split at h
  · next ha =>
    refine ⟨by simpa [addressExists] using ha, ?_⟩
    split at h
    · cases h; exact .inr rfl
    · cases h; exact .inl rfl
  · cases h

/-! ### The invariant -/

theorem Inv.blockGood {s : State} (h : Inv s) : BlockGood s := by
  obtain ⟨memCanonical, memInside, resultReserved, resultStatus, cnt, cur, scratch, v, seq, sess, bus⟩ := h
  exact ⟨v, ⟨memCanonical, memInside, resultReserved, resultStatus, cnt, cur, scratch, sess, bus⟩, seq⟩

theorem seqOk_idle {s : State} {v : BusView} (hs : s.seq = .idle) : SeqOk s v ↔ s.busy = false ∧ v = .between := by
  simp [SeqOk, hs]

theorem seqOk_rejecting {s : State} {v : BusView} {reason : Reject} (hs : s.seq = .rejecting reason) :
    SeqOk s v ↔ s.busy = true ∧ v = .between := by simp [SeqOk, hs]

theorem seqOk_run {s : State} {v : BusView} {op : Op} {pos : Pos} (hs : s.seq = .run op pos) (h : SeqOk s v) :
    ∃ r, Running s op r ∧ PosOk op r s v pos := by
  simp only [SeqOk, hs] at h
  obtain ⟨hb, r, i, hr, hi, hop, hwf, hpos⟩ := h
  exact ⟨r, ⟨hb, hr, i, hi, hop, hwf⟩, hpos⟩

/-- R21: with BUSY = 0 no session is open. -/
theorem seqOk_of_not_busy {s : State} {v : BusView} (hb : s.busy = false) (h : SeqOk s v) : v = .between := by
  cases hs : s.seq with
  | idle => exact ((seqOk_idle hs).1 h).2
  | rejecting _ => exact ((seqOk_rejecting hs).1 h).2
  | run op pos =>
    obtain ⟨r, ⟨hb', -⟩, -⟩ := seqOk_run hs h
    rw [hb] at hb'
    cases hb'

/-- R29: `Finish` between sessions. -/
theorem good_finish {s : State} {st : Status} (hb : BlockOk s .between) (hf : StatusFits s.cfg st)
    (illegal pulsed : Bool) : BlockGood (finish st illegal pulsed s) := by
  refine ⟨.between, ⟨hb.memCanonical, hb.memInside, (flags_resultWord ..).2.2, ?_, hb.cntWidth, hb.curWidth,
    hb.scratchWidth, hb.sess, hb.bus⟩, rfl, rfl⟩
  change StatusFits s.cfg (statusField (resultWord st illegal pulsed))
  rwa [statusField_resultWord]

/-- R22: every step of R7 keeps the invariant. -/
theorem tick_keeps_inv {s t : State} (hw : s.cfg.wf = true) (hi : Inv s) (h : tick s = .next t) : Inv t := by
  obtain ⟨v, hb, hq⟩ := hi.blockGood
  cases hs : s.seq with
  | idle =>
    have : tick s = .next s := by simp [tick, hs]
    cases this.symm.trans h
    exact hi
  | rejecting reason =>
    obtain ⟨-, rfl⟩ := (seqOk_rejecting hs).1 hq
    cases (tick_rejecting hs).symm.trans h
    exact (good_finish hb (statusFits_zero _) true false).inv
  | run op pos =>
    obtain ⟨r, ⟨hbusy, hreq, named⟩, hpos⟩ := seqOk_run hs hq
    obtain ⟨u, hu, hgood⟩ := stepAt_good hw hb ⟨hbusy, hreq, named⟩ hpos
    cases ((tick_run hs hreq).trans hu).symm.trans h
    exact hgood.inv

/-- R22, R125: the first position of every request is between sessions. -/
theorem good_begin {s : State} {op : Op} {r : Req} (hb : BlockOk s .between) (h : Running s op r) :
    BlockGood (beginRequest op r s) := by
  cases op with
  | sendCmd =>
    simp only [beginRequest, gatherArgs]
    split
    · next hlt => exact good_goto hb h ⟨rfl, rfl, hlt⟩
    · next hlt =>
      refine good_goto hb h ⟨rfl, rfl, fun _ => ?_, rfl⟩
      simp only [List.length_nil] at hlt
      simp only [cmdBytes, List.length_cons, List.length_nil]
      omega
  | sendData => exact good_goto hb h ⟨rfl, Nat.zero_le _, trivial, .inl rfl, rfl⟩
  | setColRange => exact good_goto hb h ⟨rfl, rfl, nofun, rfl⟩
  | setRowRange => exact good_goto hb h ⟨rfl, rfl, nofun, rfl⟩
  | resetRange => exact good_goto hb h ⟨rfl, rfl, nofun, rfl⟩
  | render => exact good_goto hb h ⟨rfl, rfl, nofun, rfl⟩
  | clear => exact good_goto hb h ⟨rfl, Nat.zero_le _, trivial, trivial⟩
  | init => exact good_initNext _ _ hb h (statusFits_zero _)
  | transportReset => exact good_goto hb h ⟨rfl, rfl⟩

/-- R125: acceptance keeps the invariant. -/
theorem accept_keeps_inv (d : Descriptor) {s : State} (hb : s.busy = false) (hi : Inv s) : Inv (accept d s) := by
  obtain ⟨v, hok, hq⟩ := hi.blockGood
  obtain rfl := seqOk_of_not_busy hb hq
  have latched : BlockOk (latchRequest d s) .between :=
    hok.same rfl rfl rfl rfl hok.curWidth hok.scratchWidth rfl rfl rfl
  cases h : checkRequest s.cfg d with
  | error reason =>
    rw [accept_error d s reason h]
    have rejecting : BlockOk { latchRequest d s with seq := .rejecting reason } .between :=
      latched.same rfl rfl rfl rfl hok.curWidth hok.scratchWidth rfl rfl rfl
    exact rejecting.inv ⟨rfl, rfl⟩
  | ok i =>
    have ha : accept d s = beginRequest i.op (latch s.cfg d) (latchRequest d s) := by simp [accept, h]
    rw [ha]
    exact (good_begin latched ⟨rfl, rfl, i, requestOf_latch h, rfl, (checkRequest_ok h).2⟩).inv

theorem accept_cfg (d : Descriptor) (s : State) : (accept d s).cfg = s.cfg := by
  obtain ⟨q, e, -, -⟩ := accept_frame d s
  rw [e]
  rfl

theorem ppMove_keeps_inv {s t : State} (hw : s.cfg.wf = true) (hi : Inv s) (h : PPMove s t) : Inv t := by
  obtain ⟨u, n, hu, hn⟩ := h
  have start : u.cfg.wf = true ∧ Inv u := by
    rcases hu with rfl | ⟨d, hb, rfl⟩
    · exact ⟨hw, hi⟩
    · exact ⟨(accept_cfg d s).symm ▸ hw, accept_keeps_inv d hb hi⟩
  have kept (a b : State) : a.cfg.wf = true ∧ Inv a → tick a = .next b → b.cfg.wf = true ∧ Inv b :=
    fun ⟨wf, inv⟩ hab => ⟨(tick_extends hab).cfg ▸ wf, tick_keeps_inv wf inv hab⟩
  exact (ticks_keep kept n start hn).2

/-- R42, R56: a HOST write keeps the invariant, with a source race or without. -/
theorem hostWrite_keeps_inv {a : Nat} {b : Byte} {s t : State} (hi : Inv s) (h : hostWrite a b s = .next t) : Inv t := by
  obtain ⟨ha, ht⟩ := hostWrite_cases h
  have canonical := Memory.write_wf a b s.mem hi.memCanonical
  have inside := Memory.write_below a _ b s.mem hi.memInside ha
  rcases ht with rfl | rfl
  · exact hi.congr canonical inside rfl rfl rfl rfl rfl rfl rfl rfl rfl rfl rfl rfl
  · exact redraw_inv _ _ (hi.congr canonical inside rfl rfl rfl rfl rfl rfl rfl rfl rfl rfl rfl rfl)

/-- R41, R135: the registers of PP after reset, with an empty trace or after a reset in mid-operation. -/
theorem inv_resetRegisters {s : State} (hm : s.mem.wf = true) (hm2 : s.mem.below (2 ^ s.cfg.addrBits) = true)
    {fault : FaultSet} {trace : List Event} (ht : fault.resetMidOperation = true ∨ trace = []) :
    Inv { resetRegisters s with fault := fault, trace := trace } where
  memCanonical := hm
  memInside := hm2
  resultReserved := (by decide : reservedField 0 = 0)
  resultStatus := statusFits_zero s.cfg
  cntWidth := Nat.zero_le _
  curWidth := Nat.two_pow_pos 16
  scratchWidth := Nat.zero_le _
  running := by
    refine ⟨.between, ⟨rfl, rfl⟩, rfl, fun hf => ?_⟩
    rcases ht with h | rfl
    · rw [h] at hf; cases hf
    · rfl

/-- R134, R135: block reset keeps the invariant. -/
theorem blockReset_keeps_inv {s : State} (hi : Inv s) : Inv (blockReset s) := by
  unfold blockReset
  split
  · exact inv_resetRegisters (trace := s.trace) hi.memCanonical hi.memInside (.inl rfl)
  · exact inv_resetRegisters hi.memCanonical hi.memInside (.inr rfl)

/-- The invariant does not read HOST's plan. -/
theorem Inv.plan {s : State} (hi : Inv s) (rest : List HostAct) : Inv (withPlan rest s) :=
  hi.congr hi.memCanonical hi.memInside rfl rfl rfl rfl rfl rfl rfl rfl rfl rfl rfl rfl

/-- The invariant does not read the descriptor port. -/
theorem Inv.port {s : State} (hi : Inv s) (p : Option Descriptor) : Inv (withPort p s) :=
  hi.congr hi.memCanonical hi.memInside rfl rfl rfl rfl rfl rfl rfl rfl rfl rfl rfl rfl

/-- Settles O45: by the kinds of steps (`step_cases`), each of which keeps the invariant. -/
theorem everyStepKeepsTheInvariant : Obligations.EveryStepKeepsTheInvariant := by
  intro s t hi h
  have hw := wf_of_step h
  obtain ⟨rest, hpp | ⟨p, rfl⟩ | ⟨a, b, hwrite⟩ | ⟨-, rfl⟩⟩ := step_cases h
  · exact ppMove_keeps_inv (s := withPlan rest s) hw (hi.plan rest) hpp
  · exact (hi.plan rest).port p
  · exact hostWrite_keeps_inv (hi.plan rest) hwrite
  · exact blockReset_keeps_inv (hi.plan rest)

/-- Settles O46: the constructed block has the registers of R41. -/
theorem resetHasTheInvariant : Obligations.ResetHasTheInvariant := by
  have constructed (c : Config) : Inv (State.constructed c) :=
    inv_resetRegisters (s := State.constructed c) rfl rfl (.inr rfl)
  exact ⟨fun c _ => constructed c, constructed _⟩

/-! ### FAULT and the trace -/

theorem faultSet_subset_iff (f g : FaultSet) : f.subset g = true ↔
    (f.resetMidOperation = true → g.resetMidOperation = true) ∧ (f.sourceRace = true → g.sourceRace = true) ∧
      (f.unknownRead = true → g.unknownRead = true) := by
  simp only [FaultSet.subset, Bool.and_eq_true, Bool.or_eq_true, Bool.not_eq_true', ← Bool.not_eq_true, and_assoc,
    imp_iff_not_or]

theorem faultSet_subset_trans {f g h : FaultSet} (hfg : f.subset g = true) (hgh : g.subset h = true) :
    f.subset h = true := by
  rw [faultSet_subset_iff] at *
  obtain ⟨m, r, u⟩ := hfg
  obtain ⟨m', r', u'⟩ := hgh
  exact ⟨m' ∘ m, r' ∘ r, u' ∘ u⟩

theorem faultSet_eq_empty {f : FaultSet} (h : f.subset .empty = true) : f = .empty := by
  obtain ⟨m, r, u⟩ := f
  simpa [faultSet_subset_iff, FaultSet.empty] using h

/-- R39, R40: the configuration is the same, events are appended to the trace, and reasons are added to FAULT. -/
structure Grows (s t : State) : Prop where
  cfg : t.cfg = s.cfg
  trace : ∃ events, t.trace = s.trace ++ events
  fault : s.fault.subset t.fault = true

theorem Grows.trans {s u t : State} (h : Grows s u) (h' : Grows u t) : Grows s t := by
  obtain ⟨events, he⟩ := h.trace
  obtain ⟨events', he'⟩ := h'.trace
  exact ⟨h'.cfg.trans h.cfg, ⟨events ++ events', by rw [he', he, List.append_assoc]⟩,
    faultSet_subset_trans h.fault h'.fault⟩

theorem grows_of_same {s t : State} (hc : t.cfg = s.cfg) (ht : t.trace = s.trace)
    (hf : s.fault.subset t.fault = true) : Grows s t := ⟨hc, ⟨[], by rw [ht, List.append_nil]⟩, hf⟩

theorem Extends.grows {s t : State} (h : Extends s t) : Grows s t := ⟨h.cfg, h.events, h.fault⟩

theorem accept_grows (d : Descriptor) (s : State) : Grows s (accept d s) := by
  obtain ⟨q, e, -, -⟩ := accept_frame d s
  rw [e]
  exact grows_of_same rfl rfl (faultSet_subset_self _)

theorem ppMove_grows {s t : State} (h : PPMove s t) : Grows s t := by
  obtain ⟨u, n, hu, hn⟩ := h
  have start : Grows s u := by
    rcases hu with rfl | ⟨d, -, rfl⟩
    · exact grows_of_same rfl rfl (faultSet_subset_self _)
    · exact accept_grows d s
  exact ticks_keep (fun a b ha hab => ha.trans (tick_extends hab).grows) n start hn

theorem hostWrite_grows {a : Nat} {b : Byte} {s t : State} (h : hostWrite a b s = .next t) : Grows s t := by
  obtain ⟨-, rfl | rfl⟩ := hostWrite_cases h
  · exact grows_of_same rfl rfl (faultSet_subset_self _)
  · obtain ⟨q, sc, ca, -, e⟩ := redraw_frame a (Config.racedByte (s.raceNo + 1) a) { s with
      mem := s.mem.write a b, fault := addSourceRace s.fault, raced := a :: s.raced, raceNo := s.raceNo + 1 }
    rw [e]
    exact grows_of_same rfl rfl ((faultSet_subset_iff ..).2 ⟨id, fun _ => rfl, id⟩)

/-- R135: a reset in mid-operation keeps the trace and the reasons, and adds one. -/
theorem blockReset_busy_grows {s : State} (hb : s.busy = true) : Grows s (blockReset s) := by
  rw [blockReset, if_pos hb]
  exact grows_of_same rfl rfl ((faultSet_subset_iff ..).2 ⟨fun _ => rfl, id, id⟩)

/-- R134: a reset of an idle block. -/
theorem blockReset_idle {s : State} (hb : s.busy = false) :
    blockReset s = { resetRegisters s with fault := .empty, trace := [] } := by simp [blockReset, hb]

/-- R39, R40: every step only adds, but for the block reset of an idle block. -/
theorem step_grows {s t : State} (h : step s = .next t) : Grows s t ∨
    t.cfg = s.cfg ∧ s.busy = false ∧ (∃ rest, s.script = .assertReset :: rest) ∧ t.fault = .empty ∧ t.trace = [] := by
  obtain ⟨rest, move⟩ := step_cases h
  have plan : Grows s (withPlan rest s) := grows_of_same rfl rfl (faultSet_subset_self _)
  rcases move with hpp | ⟨p, rfl⟩ | ⟨a, b, hwrite⟩ | ⟨hs, rfl⟩
  · exact .inl (plan.trans (ppMove_grows hpp))
  · exact .inl (grows_of_same rfl rfl (faultSet_subset_self _))
  · exact .inl (plan.trans (hostWrite_grows hwrite))
  · by_cases hb : s.busy = true
    · exact .inl (plan.trans (blockReset_busy_grows (s := withPlan rest s) hb))
    · rw [Bool.not_eq_true] at hb
      rw [blockReset_idle (s := withPlan rest s) hb]
      exact .inr ⟨rfl, hb, ⟨rest, hs⟩, rfl, rfl⟩

/-- R39: a state with a fault reason is not final. -/
theorem isFinal_of_reason {s : State} (h : s.fault ≠ .empty) : isFinal s = false := by simp [isFinal, h]

/-- Settles O48: a step adds to FAULT or is the reset of an idle block (`step_grows`). -/
theorem faultReasonsOnlyAddUp : Obligations.FaultReasonsOnlyAddUp := by
  intro s t h
  obtain ⟨cfg, -, fault⟩ | ⟨cfg, hb, hs, hf, -⟩ := step_grows h
  · refine ⟨cfg, .inl ⟨fault, fun hne => isFinal_of_reason fun he => hne ?_⟩⟩
    rw [he] at fault
    exact faultSet_eq_empty fault
  · exact ⟨cfg, .inr ⟨hb, hs, hf⟩⟩

/-- Settles O49: a step appends to the trace or is the reset of an idle block (`step_grows`). -/
theorem traceOnlyGrows : Obligations.TraceOnlyGrows := by
  intro s t h
  obtain ⟨-, trace, -⟩ | ⟨-, hb, hs, -, ht⟩ := step_grows h
  · exact .inl trace
  · exact .inr ⟨hb, hs, ht⟩

/-! ### RESULT, UNKNOWN and the fetched word -/

/-- Settles O50: a step of R7 writes RESULT only when it ends the request, and acceptance never. -/
theorem resultIsThePreviousWhileBusy : Obligations.ResultIsThePreviousWhileBusy := by
  intro s t h ht
  cases hb : s.busy with
  | true => exact (tick_extends (ppStep_busy hb ▸ h)).result ht
  | false =>
    cases hp : s.port with
    | none =>
      cases (ppStep_wait hb hp).symm.trans h
      rfl
    | some d =>
      cases (ppStep_accept hb hp).symm.trans h
      obtain ⟨q, e, -, -⟩ := accept_frame d s
      rw [e]
      rfl

theorem tick_unknown {s : State} {op : Op} {pos : Pos} (hq : s.seq = .run op pos) (hr : s.req = none) :
    tick s = .next { s with fault := addUnknownRead s.fault } := by simp [tick, hq, hr]

/-- Settles O51: the step of a busy block that reads REQ (`tick_unknown`). -/
theorem unknownRequestIsRecorded : Obligations.UnknownRequestIsRecorded := by
  intro s op pos hb hq hr
  rw [ppStep_busy hb, tick_unknown hq hr]
  rfl

/-- The decoder's reading of a fetched word is `decode` of its bits. -/
theorem decode_of_decodeTableWord {nbits w : Nat} {i : Instr} (h : decodeTableWord nbits w = some i) :
    decode (descriptorOfBits nbits w) = .ok i := by
  unfold decodeTableWord at h
  split at h
  · next j hj => cases h; exact hj
  · cases h

theorem runRequest_ok {d : Descriptor} {i : Instr} (s : State) (h : decode d = .ok i) :
    runRequest d s = exec i (accept d s) := by simp [runRequest, h]

/-- Settles O8: `withFetchWord` plans `letRequest` for an idle block that presents the descriptor. -/
theorem fetchWordIsTheNextRequest : Obligations.FetchWordIsTheNextRequest := by
  intro s nbits w i hw h
  rw [← runRequest_ok _ (decode_of_decodeTableWord h)]
  exact step_letRequest (s := { s.withFetchWord nbits w with script := [] }) hw rfl rfl rfl

end Sys2Proof.Machine

/-! PROOFS. The state of the block (10_state.md, the requests): the status and the flags a request reports, the shadow it
does not read, and the registers it leaves alone. -/

namespace Sys2Proof.Machine

/-! ### The two flags (R27, R28) -/

/-- R29, R118: every request ends with `Finish`, whose flags say whether it was rejected and whether it pulsed the reset
line. -/
theorem exec_finishes (i : Instr) (s : State) : ∃ st u,
    exec i s = .next (finish st (!i.wf s.cfg) (decide (i = .transportReset) && hwAnswer s) u) := by
  cases hwf : i.wf s.cfg with
  | true => exact exec_ends_with_finish i s hwf
  | false =>
    have notReset : i ≠ .transportReset := by rintro rfl; cases hwf
    obtain ⟨reason, h⟩ := exec_of_not_wf hwf
    exact ⟨0, s, by rw [h, decide_eq_false notReset]; rfl⟩

/-- Settles O37: the flags are those of the request's `Finish` (`exec_finishes`). -/
theorem resultFlagsSayWhatHappened : Obligations.ResultFlagsSayWhatHappened := by
  intro s i
  obtain ⟨st, u, h⟩ := exec_finishes i s
  obtain ⟨illegal, pulsed, reserved⟩ :=
    flags_resultWord st (!i.wf s.cfg) (decide (i = .transportReset) && hwAnswer s)
  refine ⟨_, h, ?_, ?_, reserved⟩
  · simp only [finish, illegal, Bool.not_eq_true']
  · simp only [finish, pulsed, Bool.and_eq_true, decide_eq_true_eq]

/-! ### The statuses a request reports (R26, R119) -/

/-- R119: what a frame or a run of frames puts on the trace closes with statuses that are all 0 but perhaps the last, and
returns the first nonzero one. -/
def Reports (s : State) (r : Status × State) : Prop :=
  ∃ events, r.2.trace = s.trace ++ events ∧ FailFast (closesOf events) r.1

theorem reports_nothing (s : State) : Reports s (0, s) := ⟨[], by simp, 0, .inl ⟨rfl, rfl⟩⟩

/-- Statuses that gave 0 are all 0. -/
theorem FailFast.zeros {l : List Status} (h : FailFast l 0) : ∃ n, l = List.replicate n 0 := by
  obtain ⟨n, ⟨rfl, -⟩ | rfl⟩ := h
  · exact ⟨n, rfl⟩
  · exact ⟨n + 1, by rw [List.replicate_succ']⟩

/-- A run of frames that returned 0, and what follows it. -/
theorem Reports.then {s u : State} {r q : Status × State} (h : Reports s r) (h0 : r.1 = 0) (ht : u.trace = r.2.trace)
    (hq : Reports u q) : Reports s q := by
  obtain ⟨events, he, hf⟩ := h
  obtain ⟨events', he', hf'⟩ := hq
  rw [h0] at hf
  obtain ⟨n, hn⟩ := hf.zeros
  refine ⟨events ++ events', by rw [he', ht, he, List.append_assoc], ?_⟩
  rw [closesOf_append, hn]
  exact hf'.zeros_append n

theorem Reports.andThen {s : State} {r : Status × State} {next : State → Status × State} (h : Reports s r)
    (hn : Reports r.2 (next r.2)) : Reports s (andThen r next) := by
  by_cases h0 : r.1 = 0
  · rw [andThen_pos h0]
    exact h.then h0 rfl hn
  · rwa [andThen_neg h0]

/-- R82: a command session closes once. -/
theorem reports_of_session {s : State} {r : Status × State} {c : Config} {op : Byte} {args : List Byte}
    (h : r.2.trace = s.trace ++ cmdSession c op args r.1) : Reports s r :=
  ⟨_, h, 0, .inr (by rw [closesOf_cmdSession]; rfl)⟩

theorem colFrame_trace (a b : BitVec 6) (s : State) : (colFrame a b s).2.trace =
    s.trace ++ cmdSession s.cfg s.cfg.opSetColumn (colArgs a b) (colFrame a b s).1 := by
  rw [colFrame_eq]
  rfl

theorem rowFrame_trace (a b : BitVec 7) (s : State) : (rowFrame a b s).2.trace =
    s.trace ++ cmdSession s.cfg s.cfg.opSetRow (rowArgs a b) (rowFrame a b s).1 := by
  rw [rowFrame_eq]
  rfl

theorem rowFrame_reports (a b : BitVec 7) (s : State) : Reports s (rowFrame a b s) :=
  reports_of_session (rowFrame_trace a b s)

theorem colFrame_reports (a b : BitVec 6) (s : State) : Reports s (colFrame a b s) :=
  reports_of_session (colFrame_trace a b s)

theorem startLineFrame_reports (s : State) : Reports s (startLineFrame s) := by
  rw [startLineFrame, framedCmd_eq]
  exact reports_of_session rfl

/-- R85: a data frame goes on only after a close that returned 0. -/
theorem framedData_reports (bytes : List Byte) {s : State} (hp : 1 ≤ s.cfg.p) : Reports s (framedData bytes s) := by
  obtain ⟨k, cnt, ⟨one, -, zeros, -⟩, -, e⟩ := framedData_spec bytes s hp
  rw [e]
  refine ⟨_, rfl, ?_⟩
  rw [closesOf_dataFrame]
  exact failFast_dataFrame _ k one zeros

theorem framedData_cfg (bytes : List Byte) (s : State) : (framedData bytes s).2.cfg = s.cfg := by
  obtain ⟨-, -, cfg, -⟩ := framedData_keep bytes s
  exact cfg

/-- R99: the packer's loop goes on only after a row that returned 0. -/
theorem packLoop_reports (base b len fuel : Nat) {s : State} (hp : 1 ≤ s.cfg.p) :
    Reports s (packLoop base b len fuel s) := by
  induction fuel generalizing s with
  | zero => exact reports_nothing s
  | succ fuel ih =>
    rw [packLoop]
    cases nextRow b len s with
    | terminal =>
      simp only [terminalRow]
      split
      · exact reports_nothing s
      · exact framedData_reports _ (s := loadTerminalRow _ s) hp
    | even =>
      have row : Reports s (evenRow base b s) := framedData_reports _ (s := loadEvenRow _ s) hp
      have cfg : (evenRow base b s).2.cfg = s.cfg := framedData_cfg _ (loadEvenRow _ s)
      simp only
      split
      · next h0 => exact row.then h0 rfl (ih (s := afterEvenRow b (evenRow base b s).2) (cfg.symm ▸ hp))
      · exact row
    | odd =>
      have row : Reports s (oddRow base b s) := framedData_reports _ (s := loadOddRow _ s) hp
      have cfg : (oddRow base b s).2.cfg = s.cfg := framedData_cfg _ (loadOddRow _ s)
      simp only
      split
      · next h0 => exact row.then h0 rfl (ih (s := afterOddRow b (oddRow base b s).2) (cfg.symm ▸ hp))
      · exact row

theorem pack_reports (w : Byte) (base len : Nat) {s : State} (hp : 1 ≤ s.cfg.p) : Reports s (pack w base len s) := by
  unfold pack
  split
  · exact framedData_reports _ hp
  · exact packLoop_reports base _ len _ (s := startPack s) hp

theorem startLineFrame_cfg (s : State) : (startLineFrame s).2.cfg = s.cfg := framedCmd_cfg ..

/-- R95: RENDER's frames, each after a status of 0. -/
theorem render_reports (x y w h : Byte) (base len : Nat) {s : State} (hp : 1 ≤ s.cfg.p) :
    Reports s (render x y w h base len s) := by
  refine (rowFrame_reports _ _ s).andThen ?_
  refine (colFrame_reports _ _ _).andThen ?_
  refine (startLineFrame_reports _).andThen ?_
  refine pack_reports w base len ?_
  rwa [startLineFrame_cfg, colFrame_cfg, rowFrame_cfg]

/-- R112: the statuses of INIT's frames are ORed onto `acc`. -/
theorem initLoop_reports (l : List InitFrame) (acc : Status) (s : State) : ∃ events,
    (initLoop l acc s).2.trace = s.trace ++ events ∧ (initLoop l acc s).1 = (closesOf events).foldl (· ||| ·) acc := by
  induction l generalizing acc s with
  | nil => exact ⟨[], by simp [initLoop], rfl⟩
  | cons f l ih =>
    rw [initLoop, framedCmd_eq]
    obtain ⟨events, trace, status⟩ := ih (acc ||| closeStatus s 0)
      (forgetWindow f.opcode (afterBus s (cmdSession s.cfg f.opcode f.args (closeStatus s 0)) 1 0))
    refine ⟨cmdSession s.cfg f.opcode f.args (closeStatus s 0) ++ events, ?_, ?_⟩
    · rw [trace, forgetWindow_trace, afterBus_trace, List.append_assoc]
    · rw [status, closesOf_append, closesOf_cmdSession]
      rfl

/-- R26, R119: the status of a request, by its policy, from the statuses it closed with. -/
def StatusByPolicy (i : Instr) (c : Config) (closes : List Status) (st : Status) : Prop :=
  (aggregates i = true → st = orOfAll closes) ∧
  (aggregates i = false → st = firstFailure closes ∧ ∀ x ∈ closes.dropLast, x = 0) ∧
  (∀ op len src, i = .sendCmd op len src → i.wf c = true → closes = [st]) ∧
  (i = .transportReset ∨ i.wf c = false → closes = [] ∧ st = 0)

theorem status_of_no_close {i : Instr} {c : Config} (h : i = .transportReset ∨ i.wf c = false) :
    StatusByPolicy i c [] 0 := by
  refine ⟨fun _ => rfl, fun _ => ⟨rfl, nofun⟩, ?_, fun _ => ⟨rfl, rfl⟩⟩
  rintro op len src rfl hwf
  simp [hwf] at h

theorem status_of_sendCmd {op : Byte} {len : BitVec 16} {src : Word} {c : Config}
    (hwf : (Instr.sendCmd op len src).wf c = true) (st : Status) : StatusByPolicy (.sendCmd op len src) c [st] st := by
  have one : FailFast [st] st := ⟨0, .inr rfl⟩
  exact ⟨nofun, fun _ => one.out, fun _ _ _ _ _ => rfl, by simp [hwf]⟩

theorem status_of_aggregate {i : Instr} {c : Config} {closes : List Status} {st : Status} (ha : aggregates i = true)
    (hwf : i.wf c = true) (h : st = orOfAll closes) : StatusByPolicy i c closes st := by
  refine ⟨fun _ => h, by simp [ha], ?_, ?_⟩
  · rintro op len src rfl
    cases ha
  · rintro (rfl | hn)
    · cases ha
    · rw [hwf] at hn; cases hn

theorem status_of_failFast {i : Instr} {c : Config} {closes : List Status} {st : Status} (ha : aggregates i = false)
    (hc : i.op ≠ .sendCmd) (ht : i ≠ .transportReset) (hwf : i.wf c = true) (h : FailFast closes st) :
    StatusByPolicy i c closes st := by
  refine ⟨by simp [ha], fun _ => h.out, ?_, by simp [ht, hwf]⟩
  rintro op len src rfl
  exact absurd rfl hc

theorem statusField_finish (st : Status) (a b : Bool) (s : State) : statusField (finish st a b s).result = st :=
  statusField_resultWord ..

/-- What a request puts on the trace, and that its status follows its policy. -/
def Accounts (i : Instr) (s : State) : Prop :=
  ∃ t events, exec i s = .next t ∧ t.trace = s.trace ++ events ∧
    StatusByPolicy i s.cfg (closesOf events) (statusField t.result)

/-- A request that ends with the status of its frames, one after another. -/
theorem accounts_of_reports {i : Instr} {s : State} {r : Status × State} (hx : exec i s = .next (endRequest r))
    (ha : aggregates i = false) (hc : i.op ≠ .sendCmd) (ht : i ≠ .transportReset) (hwf : i.wf s.cfg = true)
    (h : Reports s r) : Accounts i s := by
  obtain ⟨events, trace, status⟩ := h
  refine ⟨_, events, hx, trace, ?_⟩
  rw [endRequest, statusField_finish]
  exact status_of_failFast ha hc ht hwf status

theorem accounts_of_not_wf {i : Instr} {s : State} (h : i.wf s.cfg = false) : Accounts i s := by
  obtain ⟨reason, hx⟩ := exec_of_not_wf h
  refine ⟨_, [], hx, (List.append_nil _).symm, ?_⟩
  rw [reject, statusField_finish]
  exact status_of_no_close (.inr h)

theorem exec_sendCmd {op : Byte} {len : BitVec 16} {src : Word} (s : State)
    (hwf : (Instr.sendCmd op len src).wf s.cfg = true) : exec (.sendCmd op len src) s =
      .next (endSendCmd op (framedCmd op (readBytes src.toNat len.toNat s) s)) := by
  rw [exec, execSendCmd, ifLegal_wf _ _ _ hwf]

theorem exec_sendData {len : BitVec 16} {src : Word} (s : State) (hwf : (Instr.sendData len src).wf s.cfg = true) :
    exec (.sendData len src) s = .next (endRequest (framedData (readBytes src.toNat len.toNat s) s)) := by
  rw [exec, execSendData, ifLegal_wf _ _ _ hwf]

theorem accounts_sendCmd {op : Byte} {len : BitVec 16} {src : Word} {s : State}
    (hwf : (Instr.sendCmd op len src).wf s.cfg = true) : Accounts (.sendCmd op len src) s := by
  refine ⟨_, cmdSession s.cfg op (readBytes src.toNat len.toNat s) (closeStatus s 0), exec_sendCmd s hwf, ?_, ?_⟩
  · rw [framedCmd_eq]
    rfl
  · rw [endSendCmd, statusField_finish, framedCmd_eq, closesOf_cmdSession]
    exact status_of_sendCmd hwf _

/-- R92: both frames close, and their statuses are ORed. -/
theorem accounts_resetRange (s : State) : Accounts .resetRange s := by
  have trace := rowFrame_trace 0 (fullRowEnd s.cfg) (colFrame 0 (fullColEnd s.cfg) s).2
  rw [colFrame_trace, List.append_assoc] at trace
  refine ⟨_, _, rfl, trace, ?_⟩
  rw [endRequest, statusField_finish, closesOf_append, closesOf_cmdSession, closesOf_cmdSession]
  refine status_of_aggregate rfl rfl ?_
  simp [fullRange, orOfAll]

/-- R112: INIT closes once for each of its frames, and ORs their statuses. -/
theorem accounts_init (s : State) : Accounts .init s := by
  obtain ⟨events, trace, status⟩ := initLoop_reports s.cfg.initFrames 0 s
  refine ⟨_, events ++ [.settled], rfl, ?_, ?_⟩
  · rw [← List.append_assoc, ← trace]
    rfl
  · have closes : closesOf (events ++ [.settled]) = closesOf events := by
      rw [closesOf_append]
      exact List.append_nil _
    rw [endInit, statusField_finish, closes]
    exact status_of_aggregate rfl rfl status

/-- R114: the hardware reset closes nothing. -/
theorem accounts_transportReset (s : State) : Accounts .transportReset s := by
  refine ⟨_, [.pulsed (hwAnswer s)], rfl, ?_, ?_⟩
  · change (if hwAnswer s then _ else _ : State).trace = _
    split <;> rfl
  · rw [statusField_finish]
    exact status_of_no_close (.inl rfl)

/-- Settles O35: each request's frames close by its policy. -/
theorem statusIsTheTransports : Obligations.StatusIsTheTransports := by
  intro s i hw
  have hp := one_le_p _ hw
  change Accounts i s
  cases hwf : i.wf s.cfg with
  | false => exact accounts_of_not_wf hwf
  | true =>
    cases i with
    | sendCmd op len src => exact accounts_sendCmd hwf
    | sendData len src =>
      exact accounts_of_reports (exec_sendData s hwf) rfl nofun nofun hwf
        (framedData_reports _ hp)
    | setColRange start stop => exact accounts_of_reports rfl rfl nofun nofun hwf (colFrame_reports ..)
    | setRowRange start stop => exact accounts_of_reports rfl rfl nofun nofun hwf (rowFrame_reports ..)
    | resetRange => exact accounts_resetRange s
    | render x y w h len src =>
      exact accounts_of_reports (exec_render s hwf) rfl nofun nofun hwf (render_reports _ _ _ _ _ _ hp)
    | clear => exact accounts_of_reports rfl rfl nofun nofun hwf (framedData_reports _ hp)
    | init => exact accounts_init s
    | transportReset => exact accounts_transportReset s

/-! ### The shadow is not read (R31)

`forgetAll` maps two states to the same one exactly when they agree in every field but the shadow. -/

theorem eq_of_forgetAll_eq {s t : State} (h : forgetAll s = forgetAll t) :
    t = { s with colStart := t.colStart, colEnd := t.colEnd, rowStart := t.rowStart, rowEnd := t.rowEnd } := by
  obtain ⟨⟩ := s
  obtain ⟨⟩ := t
  simp only [forgetAll, State.mk.injEq] at h
  simp [h]

theorem cfg_of_forgetAll_eq {s t : State} (h : forgetAll s = forgetAll t) : s.cfg = t.cfg := by
  rw [eq_of_forgetAll_eq h]

/-- A status and a state that do not depend on the shadow of the state before. -/
def ShadowBlind (f : State → Status × State) : Prop :=
  ∀ ⦃s t⦄, forgetAll s = forgetAll t → (f s).1 = (f t).1 ∧ forgetAll (f s).2 = forgetAll (f t).2

/-- What reads none of the fields of `withUnread` does not read the shadow. -/
theorem shadowBlind_of_withUnread {f : State → Status × State}
    (hf : ∀ g s, g.mem = s.mem → f (withUnread g s) = ((f s).1, withUnread g (f s).2)) : ShadowBlind f := by
  intro s t h
  have ht : t = withUnread t s := by
    obtain ⟨⟩ := s
    obtain ⟨⟩ := t
    simp only [forgetAll, State.mk.injEq] at h
    simp [withUnread, h]
  have hm : t.mem = s.mem := by rw [eq_of_forgetAll_eq h]
  have hs : f s = ((f s).1, withUnread s (f s).2) := hf s s rfl
  have ht' : f t = ((f s).1, withUnread t (f s).2) := by rw [← hf t s hm, ← ht]
  rw [ht']
  refine ⟨rfl, ?_⟩
  calc forgetAll (f s).2
    _ = withUnread (forgetAll s) (f s).2 := congrArg (fun r => forgetAll r.2) hs
    _ = forgetAll (withUnread t (f s).2) := by rw [h]; rfl

theorem shadowBlind_andThen {f g : State → Status × State} (hf : ShadowBlind f) (hg : ShadowBlind g) :
    ShadowBlind fun s => andThen (f s) g := by
  intro s t h
  obtain ⟨h1, h2⟩ := hf h
  by_cases h0 : (f s).1 = 0
  · simp only [andThen_pos h0, andThen_pos (h1 ▸ h0)]
    exact hg h2
  · simp only [andThen_neg h0, andThen_neg (h1 ▸ h0)]
    exact ⟨h1, h2⟩

theorem shadowBlind_framedCmd (op : Byte) (args : List Byte) : ShadowBlind (framedCmd op args) := by
  intro s t h
  rw [eq_of_forgetAll_eq h, framedCmd_eq, framedCmd_eq]
  exact ⟨rfl, rfl⟩

theorem shadowBlind_colFrame (a b : BitVec 6) : ShadowBlind (colFrame a b) := by
  intro s t h
  rw [eq_of_forgetAll_eq h, colFrame_eq, colFrame_eq]
  exact ⟨rfl, rfl⟩

theorem shadowBlind_rowFrame (a b : BitVec 7) : ShadowBlind (rowFrame a b) := by
  intro s t h
  rw [eq_of_forgetAll_eq h, rowFrame_eq, rowFrame_eq]
  exact ⟨rfl, rfl⟩

theorem shadowBlind_framedData (bytes : List Byte) : ShadowBlind (framedData bytes) :=
  shadowBlind_of_withUnread fun g s _ => framedData_withUnread g bytes s

theorem shadowBlind_pack (w : Byte) (base len : Nat) : ShadowBlind (pack w base len) :=
  shadowBlind_of_withUnread fun g s hm => pack_withUnread g w base len s fun _ _ _ => by rw [hm]

theorem shadowBlind_startLineFrame : ShadowBlind startLineFrame := by
  intro s t h
  have hc : s.cfg = t.cfg := cfg_of_forgetAll_eq h
  rw [startLineFrame, startLineFrame, hc]
  exact shadowBlind_framedCmd _ _ h

/-- R95: all of RENDER, frame by frame. -/
theorem shadowBlind_render (x y w h : Byte) (base len : Nat) : ShadowBlind (render x y w h base len) :=
  shadowBlind_andThen (shadowBlind_rowFrame _ _) <| shadowBlind_andThen (shadowBlind_colFrame _ _) <|
    shadowBlind_andThen shadowBlind_startLineFrame (shadowBlind_pack w base len)

theorem shadowBlind_fullRange : ShadowBlind fullRange := by
  intro s t h
  have hc : s.cfg = t.cfg := cfg_of_forgetAll_eq h
  simp only [fullRange, hc]
  obtain ⟨col, after⟩ := shadowBlind_colFrame 0 (fullColEnd t.cfg) h
  obtain ⟨row, done⟩ := shadowBlind_rowFrame 0 (fullRowEnd t.cfg) after
  exact ⟨by rw [col, row], done⟩

theorem shadowBlind_initLoop (l : List InitFrame) (acc : Status) : ShadowBlind (initLoop l acc) := by
  intro s t h
  rw [eq_of_forgetAll_eq h, initLoop_eq, initLoop_eq]
  exact ⟨rfl, rfl⟩

/-- R44: the Bytes of a range do not depend on the shadow. -/
theorem readBytes_of_forgetAll_eq {s t : State} (h : forgetAll s = forgetAll t) (base n : Nat) :
    readBytes base n s = readBytes base n t := by
  rw [eq_of_forgetAll_eq h]
  exact readBytes_congr _ _ rfl rfl rfl

/-- The end of a request whose status and state do not depend on the shadow. -/
theorem forgetAll_endRequest {r q : Status × State} (h : r.1 = q.1 ∧ forgetAll r.2 = forgetAll q.2) :
    forgetAll (endRequest r) = forgetAll (endRequest q) := by
  obtain ⟨status, state⟩ := h
  change finish r.1 false false (forgetAll r.2) = finish q.1 false false (forgetAll q.2)
  rw [status, state]

theorem forgetAll_ifLegal {i : Instr} {body : State → State} {s t : State} (h : forgetAll s = forgetAll t)
    (hb : forgetAll (body s) = forgetAll (body t)) : forgetAll (ifLegal i body s) = forgetAll (ifLegal i body t) := by
  have hc : s.cfg = t.cfg := cfg_of_forgetAll_eq h
  unfold ifLegal
  rw [hc]
  cases operandCheck t.cfg i with
  | none => exact hb
  | some reason => exact congrArg (reject reason) h

theorem forgetAll_afterHwReset (r : Bool × State) : forgetAll (afterHwReset r) = forgetAll r.2 := by
  unfold afterHwReset
  split <;> rfl

/-- R31: the next state of a request, but for its shadow, does not depend on the shadow. -/
theorem exec_shadowBlind (i : Instr) {s t : State} (h : forgetAll s = forgetAll t) :
    mapNext forgetAll (exec i s) = mapNext forgetAll (exec i t) := by
  have hc := cfg_of_forgetAll_eq h
  have hr := readBytes_of_forgetAll_eq h
  have lift {x y : State} (e : forgetAll x = forgetAll y) :
      mapNext forgetAll (.next x) = mapNext forgetAll (.next y) := congrArg Host.Outcome.next e
  cases i with
  | sendCmd op len src =>
    refine lift (forgetAll_ifLegal h ?_)
    rw [hr]
    exact forgetAll_endRequest (shadowBlind_framedCmd op _ h)
  | sendData len src =>
    refine lift (forgetAll_ifLegal h ?_)
    rw [hr]
    exact forgetAll_endRequest (shadowBlind_framedData _ h)
  | setColRange start stop => exact lift (forgetAll_endRequest (shadowBlind_colFrame _ _ h))
  | setRowRange start stop => exact lift (forgetAll_endRequest (shadowBlind_rowFrame _ _ h))
  | resetRange => exact lift (forgetAll_endRequest (shadowBlind_fullRange h))
  | render x y w hh len src =>
    exact lift (forgetAll_ifLegal h (forgetAll_endRequest (shadowBlind_render x y w hh _ _ h)))
  | clear =>
    refine lift (forgetAll_endRequest ?_)
    rw [hc]
    exact shadowBlind_framedData _ h
  | init =>
    obtain ⟨status, state⟩ := shadowBlind_initLoop s.cfg.initFrames 0 h
    refine lift ?_
    rw [← hc]
    change finish _ false false (settle (forgetAll _)) = finish _ false false (settle (forgetAll _))
    rw [status, state]
  | transportReset =>
    refine lift ?_
    change finish 0 false _ (forgetAll _) = finish 0 false _ (forgetAll _)
    rw [forgetAll_afterHwReset, forgetAll_afterHwReset, eq_of_forgetAll_eq h]
    rfl

/-- Every request has a next state. -/
theorem exec_next (i : Instr) (s : State) : ∃ t, exec i s = .next t := by
  obtain ⟨st, u, h⟩ := exec_finishes i s
  exact ⟨_, h⟩

/-- Settles O38: two states that differ in the shadow only lead to two such states (`exec_shadowBlind`). -/
theorem noRequestReadsTheShadow : Obligations.NoRequestReadsTheShadow := by
  intro s t i a b c d h
  obtain ⟨u, hu⟩ := exec_next i { s with colStart := a, colEnd := b, rowStart := c, rowEnd := d }
  have e := exec_shadowBlind i (s := s) (t := { s with colStart := a, colEnd := b, rowStart := c, rowEnd := d }) rfl
  rw [h, hu] at e
  exact ⟨u, hu, eq_of_forgetAll_eq (Host.Outcome.next.inj e)⟩

/-! ### The shadow is left alone (R32, R33) -/

/-- The columns of the shadow are the same. -/
def ColsKept (s t : State) : Prop := t.colStart = s.colStart ∧ t.colEnd = s.colEnd

/-- The rows of the shadow are the same. -/
def RowsKept (s t : State) : Prop := t.rowStart = s.rowStart ∧ t.rowEnd = s.rowEnd

theorem endRequest_framedData_shadow (bytes : List Byte) (s : State) :
    ColsKept s (endRequest (framedData bytes s)) ∧ RowsKept s (endRequest (framedData bytes s)) := by
  obtain ⟨colStart, colEnd, rowStart, rowEnd⟩ := dataLoop_shadow bytes (openData s)
  exact ⟨⟨colStart, colEnd⟩, rowStart, rowEnd⟩

/-- R33: a frame of SEND_CMD forgets what its opcode commands, and no more. -/
theorem endSendCmd_shadow (op : Byte) (args : List Byte) (s : State) :
    (op ≠ s.cfg.opSetColumn → ColsKept s (endSendCmd op (framedCmd op args s))) ∧
      (op ≠ s.cfg.opSetRow → RowsKept s (endSendCmd op (framedCmd op args s))) := by
  rw [framedCmd_eq]
  exact ⟨fun h => ⟨if_neg h, if_neg h⟩, fun h => ⟨if_neg h, if_neg h⟩⟩

/-- R33, R112: INIT forgets what the opcodes of its list command. -/
theorem endInit_shadow (l : List InitFrame) (s : State) :
    ((∀ f ∈ l, f.opcode ≠ s.cfg.opSetColumn) → ColsKept s (endInit (initLoop l 0 s))) ∧
      ((∀ f ∈ l, f.opcode ≠ s.cfg.opSetRow) → RowsKept s (endInit (initLoop l 0 s))) := by
  have notCommanded {op : Byte} (h : ∀ f ∈ l, f.opcode ≠ op) : ¬∃ f ∈ l, f.opcode = op := fun ⟨f, hf, e⟩ => h f hf e
  rw [initLoop_eq]
  exact ⟨fun h => ⟨if_neg (notCommanded h), if_neg (notCommanded h)⟩,
    fun h => ⟨if_neg (notCommanded h), if_neg (notCommanded h)⟩⟩

/-- R90: a column frame leaves the rows. -/
theorem endRequest_colFrame_rows (a b : BitVec 6) (s : State) : RowsKept s (endRequest (colFrame a b s)) := by
  rw [colFrame_eq]
  exact ⟨rfl, rfl⟩

/-- R91: a row frame leaves the columns. -/
theorem endRequest_rowFrame_cols (a b : BitVec 7) (s : State) : ColsKept s (endRequest (rowFrame a b s)) := by
  rw [rowFrame_eq]
  exact ⟨rfl, rfl⟩

/-- R33: a reset line that was not pulsed forgets nothing. -/
theorem afterHwReset_shadow {s : State} (h : hwAnswer s = false) :
    ColsKept s (afterHwReset (tHwReset s)) ∧ RowsKept s (afterHwReset (tHwReset s)) := by
  simp only [afterHwReset, tHwReset, h]
  exact ⟨⟨rfl, rfl⟩, rfl, rfl⟩

/-- R118: a rejected request leaves the shadow. -/
theorem reject_shadow (reason : Reject) (s : State) : ColsKept s (reject reason s) ∧ RowsKept s (reject reason s) :=
  ⟨⟨rfl, rfl⟩, rfl, rfl⟩

/-- Settles O42, request by request; a rejected one leaves the whole shadow. -/
theorem shadowChangesOnlyByWindowCommands : Obligations.ShadowChangesOnlyByWindowCommands := by
  intro s t i h cols rows
  cases hwf : i.wf s.cfg with
  | false =>
    obtain ⟨reason, e⟩ := exec_of_not_wf hwf
    cases e.symm.trans h
    obtain ⟨keptCols, keptRows⟩ := reject_shadow reason s
    have both : cols ∧ rows := ⟨keptCols, keptRows⟩
    have each {p q : Prop} : (p → cols) ∧ (q → rows) := ⟨fun _ => keptCols, fun _ => keptRows⟩
    exact ⟨fun _ => both, fun _ => both, fun _ => keptRows, fun _ => keptCols, fun _ _ _ _ => each, fun _ => each,
      fun _ _ => both⟩
  | true =>
    refine ⟨?_, ?_, ?_, ?_, ?_, ?_, ?_⟩
    · rintro ⟨len, src, rfl⟩
      cases (exec_sendData s hwf).symm.trans h
      exact endRequest_framedData_shadow _ s
    · rintro rfl
      cases h
      exact endRequest_framedData_shadow _ s
    · rintro ⟨a, b, rfl⟩
      cases h
      exact endRequest_colFrame_rows _ _ s
    · rintro ⟨a, b, rfl⟩
      cases h
      exact endRequest_rowFrame_cols _ _ s
    · rintro op len src rfl
      cases (exec_sendCmd s hwf).symm.trans h
      exact endSendCmd_shadow op _ s
    · rintro rfl
      cases h
      exact endInit_shadow s.cfg.initFrames s
    · rintro rfl unpulsed
      cases h
      exact afterHwReset_shadow unpulsed

/-! ### The packer's registers are left alone (R34, R35, R37, R38) -/

/-- PHASE, CARRY, CUR and SCRATCH are the same. -/
def PackerKept (s t : State) : Prop :=
  t.phase = s.phase ∧ t.carry = s.carry ∧ t.cur = s.cur ∧ t.scratch = s.scratch

theorem PackerKept.trans {s u t : State} (h : PackerKept s u) (h' : PackerKept u t) : PackerKept s t := by
  obtain ⟨phase, carry, cur, scratch⟩ := h
  obtain ⟨phase', carry', cur', scratch'⟩ := h'
  exact ⟨phase'.trans phase, carry'.trans carry, cur'.trans cur, scratch'.trans scratch⟩

theorem framedCmd_packerKept (op : Byte) (args : List Byte) (s : State) : PackerKept s (framedCmd op args s).2 := by
  rw [framedCmd_eq]
  exact ⟨rfl, rfl, rfl, rfl⟩

theorem colFrame_packerKept (a b : BitVec 6) (s : State) : PackerKept s (colFrame a b s).2 := by
  rw [colFrame_eq]
  exact ⟨rfl, rfl, rfl, rfl⟩

theorem rowFrame_packerKept (a b : BitVec 7) (s : State) : PackerKept s (rowFrame a b s).2 := by
  rw [rowFrame_eq]
  exact ⟨rfl, rfl, rfl, rfl⟩

theorem framedData_packerKept (bytes : List Byte) (s : State) : PackerKept s (framedData bytes s).2 :=
  dataLoop_packer bytes (openData s)

theorem initLoop_packerKept (l : List InitFrame) (acc : Status) (s : State) : PackerKept s (initLoop l acc s).2 := by
  rw [initLoop_eq]
  exact ⟨rfl, rfl, rfl, rfl⟩

theorem andThen_packerKept {s : State} {r : Status × State} {next : State → Status × State} (h : PackerKept s r.2)
    (hn : PackerKept r.2 (next r.2).2) : PackerKept s (andThen r next).2 := by
  by_cases h0 : r.1 = 0
  · rw [andThen_pos h0]
    exact h.trans hn
  · rwa [andThen_neg h0]

/-- R100: an even width sends its buffer as it is. -/
theorem render_packerKept {w : Byte} (hw : w.toNat % 2 = 0) (x y h : Byte) (base len : Nat) (s : State) :
    PackerKept s (render x y w h base len s).2 := by
  refine andThen_packerKept (rowFrame_packerKept ..) ?_
  refine andThen_packerKept (colFrame_packerKept ..) ?_
  refine andThen_packerKept (framedCmd_packerKept ..) ?_
  rw [pack, if_pos hw]
  exact framedData_packerKept ..

theorem afterHwReset_packerKept (s : State) : PackerKept s (afterHwReset (tHwReset s)) := by
  unfold afterHwReset
  split <;> exact ⟨rfl, rfl, rfl, rfl⟩

/-- Settles O43: every frame keeps the registers, and only the rows of an odd width write them. -/
theorem packerRegistersChangeOnlyInOddRenders : Obligations.PackerRegistersChangeOnlyInOddRenders := by
  intro s t i h evenWidth
  change PackerKept s t
  cases hwf : i.wf s.cfg with
  | false =>
    obtain ⟨reason, e⟩ := exec_of_not_wf hwf
    cases e.symm.trans h
    exact ⟨rfl, rfl, rfl, rfl⟩
  | true =>
    cases i with
    | sendCmd op len src =>
      cases (exec_sendCmd s hwf).symm.trans h
      exact framedCmd_packerKept op _ s
    | sendData len src =>
      cases (exec_sendData s hwf).symm.trans h
      exact framedData_packerKept _ s
    | setColRange start stop => cases h; exact colFrame_packerKept _ _ s
    | setRowRange start stop => cases h; exact rowFrame_packerKept _ _ s
    | resetRange => cases h; exact (colFrame_packerKept _ _ s).trans (rowFrame_packerKept ..)
    | render x y w hh len src =>
      cases (exec_render s hwf).symm.trans h
      exact render_packerKept (evenWidth x y w hh len src rfl) x y hh _ _ s
    | clear => cases h; exact framedData_packerKept _ s
    | init => cases h; exact initLoop_packerKept _ 0 s
    | transportReset => cases h; exact afterHwReset_packerKept s

end Sys2Proof.Machine

/-! PROOFS. Source memory (20_memory.md): the canonical form, what HOST writes and what PP reads, source races, and
what a request reads and leaves alone. -/

namespace Sys2Proof.Machine

/-! ### The canonical form -/

namespace Memory

theorem wfAbove_cons {lo x : Nat} {b : Byte} {m : Memory} :
    wfAbove lo ((x, b) :: m) = true ↔ lo ≤ x ∧ b ≠ unlisted ∧ wfAbove (x + 1) m = true := by
  simp [wfAbove, and_assoc]

theorem read_cons_same (x : Nat) (b : Byte) (m : Memory) : read x ((x, b) :: m) = b := if_pos rfl

theorem read_cons_ne {a x : Nat} (h : a ≠ x) (b : Byte) (m : Memory) : read a ((x, b) :: m) = m.read a := if_neg h

/-- An address that does not read as unlisted lies at or above the first cell. -/
theorem le_of_read_ne {lo y a : Nat} {c : Byte} {n : Memory} (h : wfAbove lo ((y, c) :: n) = true)
    (ha : read a ((y, c) :: n) ≠ unlisted) : y ≤ a := by
  obtain ⟨-, hc, hn⟩ := wfAbove_cons.1 h
  by_contra hlt
  exact ha (read_below_wfAbove a y _ (wfAbove_cons.2 ⟨Nat.le_refl y, hc, hn⟩) (by omega))

/-- A canonical memory with a cell reads otherwise than the empty one. -/
theorem exists_read_ne_of_cons {lo x : Nat} {b : Byte} {m : Memory} (h : wfAbove lo ((x, b) :: m) = true) :
    read x ((x, b) :: m) ≠ unlisted := by
  rw [read_cons_same]
  exact (wfAbove_cons.1 h).2.1

/-- A canonical memory is determined by what it reads as: the first cells agree, and so do the memories after them. -/
theorem eq_of_read_eq {lo : Nat} {m n : Memory} (hm : wfAbove lo m = true) (hn : wfAbove lo n = true)
    (h : ∀ a, m.read a = n.read a) : m = n := by
  induction m generalizing lo n with
  | nil =>
    cases n with
    | nil => rfl
    | cons cell n => exact absurd (h cell.1).symm (exists_read_ne_of_cons hn)
  | cons cell m ih =>
    obtain ⟨x, b⟩ := cell
    cases n with
    | nil => exact absurd (h x) (exists_read_ne_of_cons hm)
    | cons cell n =>
      obtain ⟨y, c⟩ := cell
      have hxy : x = y := Nat.le_antisymm (le_of_read_ne hm (h y ▸ exists_read_ne_of_cons hn))
        (le_of_read_ne hn (h x ▸ exists_read_ne_of_cons hm))
      subst hxy
      have hbc : b = c := by simpa only [read_cons_same] using h x
      obtain ⟨-, -, hm'⟩ := wfAbove_cons.1 hm
      obtain ⟨-, -, hn'⟩ := wfAbove_cons.1 hn
      rw [hbc, ih hm' hn' fun a => ?_]
      by_cases ha : a < x + 1
      · rw [read_below_wfAbove a _ m hm' ha, read_below_wfAbove a _ n hn' ha]
      · have hne : a ≠ x := by omega
        rw [← read_cons_ne hne b m, h a, read_cons_ne hne]

/-- R42: a write to a canonical memory is read back. -/
theorem read_write {m : Memory} (h : m.wf = true) (a : Nat) (b : Byte) : (m.write a b).read a = b :=
  read_write_same a b m 0 h

end Memory

/-- Settles O58: both memories lie above 0, so `Memory.eq_of_read_eq` applies. -/
theorem canonicalMemoriesAreUnique : Obligations.CanonicalMemoriesAreUnique := by
  intro m n hm hn h
  exact Memory.eq_of_read_eq hm hn h

/-! ### What a HOST write does (R42, R55, R56) -/

theorem addressExists_iff {a : Nat} {s : State} : addressExists a s = true ↔ a < 2 ^ s.cfg.addrBits := by
  simp [addressExists]

/-- R42: source memory has no Byte past its top to write. -/
theorem hostWrite_outside {a : Nat} {s : State} (h : 2 ^ s.cfg.addrBits ≤ a) (b : Byte) :
    hostWrite a b s = .fault .noSuchAddress := by
  have hx : ¬ addressExists a s = true := by rw [addressExists_iff]; omega
  rw [hostWrite, if_neg hx]

/-- R55: a write that is not in the range of the running request changes its Byte only. -/
theorem hostWrite_unraced {a : Nat} {s : State} (ha : a < 2 ^ s.cfg.addrBits) (h : inRunningRange a s = false)
    (b : Byte) : hostWrite a b s = .next { s with mem := s.mem.write a b } := by
  simp only [hostWrite, addressExists_iff.2 ha, h, if_true, Bool.false_eq_true, if_false]

/-- R55, R56: the addresses of the range of the request that is running. -/
theorem inRunningRange_iff {a : Nat} {s : State} : inRunningRange a s = true ↔ ∃ r, s.req = some r ∧
    s.busy = true ∧ usesSource r.op = true ∧ r.src.toNat ≤ a ∧ a < r.src.toNat + r.len.toNat := by
  unfold inRunningRange
  cases s.req with
  | none => simp
  | some r => simp [and_assoc]

theorem inRunningRange_of_idle {s : State} (h : s.busy = false) (a : Nat) : inRunningRange a s = false := by
  rw [Bool.eq_false_iff, ne_eq, inRunningRange_iff]
  rintro ⟨r, -, busy, -⟩
  rw [h] at busy
  cases busy

theorem inRunningRange_of_outside {s : State} {r : Req} {a : Nat} (hr : s.req = some r)
    (h : a < r.src.toNat ∨ r.src.toNat + r.len.toNat ≤ a) : inRunningRange a s = false := by
  rw [Bool.eq_false_iff, ne_eq, inRunningRange_iff]
  rintro ⟨q, hq, -, -, above, below⟩
  cases hr.symm.trans hq
  omega

/-- R56: a HOST write in the range of the running request, before what PP has read is redrawn. -/
def recordRace (a : Nat) (b : Byte) (s : State) : State :=
  { s with mem := s.mem.write a b, fault := addSourceRace s.fault, raced := a :: s.raced, raceNo := s.raceNo + 1 }

/-- R56: a write in the range of the running request records the race, and redraws what PP has read of the Byte. -/
theorem hostWrite_inRange {a : Nat} {s : State} (ha : a < 2 ^ s.cfg.addrBits) (h : inRunningRange a s = true)
    (b : Byte) : hostWrite a b s = .next (redraw a (Config.racedByte (s.raceNo + 1) a) (recordRace a b s)) := by
  obtain ⟨r, hr, hb, hu, h1, h2⟩ := inRunningRange_iff.1 h
  exact hostWrite_raced hr ha hb hu h1 h2

/-- What a HOST write may change. -/
def WroteByte (a : Nat) (b : Byte) (s t : State) : Prop :=
  t = { s with
    mem := s.mem.write a b, fault := t.fault, raced := t.raced, raceNo := t.raceNo
    seq := t.seq, scratch := t.scratch, carry := t.carry }

/-- R42: HOST can write every Byte of source memory. -/
theorem hostWrite_inside {a : Nat} {s : State} (ha : a < 2 ^ s.cfg.addrBits) (b : Byte) :
    ∃ t, hostWrite a b s = .next t ∧ WroteByte a b s t := by
  cases hin : inRunningRange a s with
  | false => exact ⟨_, hostWrite_unraced ha hin b, rfl⟩
  | true =>
    obtain ⟨q, sc, ca, -, e⟩ := redraw_frame a (Config.racedByte (s.raceNo + 1) a) (recordRace a b s)
    have written := hostWrite_inRange ha hin b
    rw [e] at written
    exact ⟨_, written, rfl⟩

/-- A step of a machine whose HOST writes next. -/
theorem step_writeByte {s : State} {a : Nat} {b : Byte} {rest : List HostAct} (hw : s.cfg.wf = true)
    (hs : s.script = .writeByte a b :: rest) : step s = hostWrite a b (withPlan rest s) := by
  simp [step, hw, move, hs, hostMove, withPlan]

/-- Settles O56: the step is the write (`step_writeByte`), which changes its Byte (`hostWrite_inside`) or faults. -/
theorem hostWritesOneByte : Obligations.HostWritesOneByte := by
  intro s rest a b hw hs hm
  rw [step_writeByte hw hs]
  refine ⟨fun ha => ?_, fun ha => hostWrite_outside (s := withPlan rest s) ha b⟩
  obtain ⟨t, ht, e⟩ := hostWrite_inside (s := withPlan rest s) ha b
  refine ⟨t, ht, ?_⟩
  rw [e]
  exact ⟨Memory.write_wf a b s.mem hm, Memory.read_write hm a b, fun x hx => Memory.read_write_other a x b s.mem hx,
    rfl, rfl, rfl⟩

/-! ### What PP reads (R43) -/

theorem memRead_of_not_raced {a : Nat} {s : State} (h : a ∉ s.raced) : memRead a s = s.mem.read a := if_neg h

theorem memRead_of_raced {a : Nat} {s : State} (h : a ∈ s.raced) : memRead a s = Config.racedByte s.raceNo a :=
  if_pos h

/-- R125: acceptance latches the descriptor, sets BUSY, and leaves source memory as it is with no race recorded. -/
theorem accept_reads (d : Descriptor) (s : State) : (accept d s).req = some (latch s.cfg d) ∧
    (accept d s).busy = true ∧ ∀ x, memRead x (accept d s) = s.mem.read x := by
  obtain ⟨q, e, -, -⟩ := accept_frame d s
  rw [e]
  exact ⟨rfl, rfl, fun x => memRead_of_not_raced List.not_mem_nil⟩

/-- Settles O57: the write of an idle block changes memory only, and the acceptance after it records no race. -/
theorem memReadIsTheByteOfSourceMemory : Obligations.MemReadIsTheByteOfSourceMemory := by
  refine ⟨fun s a h => memRead_of_not_raced h, fun s d a b hw hm hb hp hs ha => ?_⟩
  let written : State := { withPlan [] s with mem := s.mem.write a b }
  have first : step s = .next written := by
    rw [step_writeByte hw hs]
    exact hostWrite_unraced (s := withPlan [] s) ha (inRunningRange_of_idle (s := withPlan [] s) hb a) b
  have both : steps 2 s = .next (accept d written) := by
    rw [steps, first]
    exact steps_of_accept (s := written) hw rfl hb hp 0
  obtain ⟨req, busy, reads⟩ := accept_reads d written
  refine ⟨_, both, req, busy, ?_, fun x hx => ?_⟩
  · rw [reads]
    exact Memory.read_write hm a b
  · rw [reads]
    exact Memory.read_write_other a x b s.mem hx

/-! ### Source races (R54, R56) -/

/-- R44, R65: SEND_CMD, SEND_DATA and RENDER use a source range. -/
theorem usesSource_of_op {op : BitVec 4} (h : op = 1 ∨ op = 2 ∨ op = 6) : usesSource op = true := by
  rcases h with rfl | rfl | rfl <;> rfl

/-- Settles O54: a write in the range records the race and redraws (`hostWrite_inRange`, `redraw_frame`); any other one
changes its Byte only. -/
theorem sourceRaceIsRecorded : Obligations.SourceRaceIsRecorded := by
  intro s a b r hr ha
  refine ⟨fun hb hop h1 h2 => ?_, fun h => hostWrite_unraced ha ?_ b⟩
  · obtain ⟨q, sc, ca, -, e⟩ := redraw_frame a (Config.racedByte (s.raceNo + 1) a) (recordRace a b s)
    have written := hostWrite_inRange ha (inRunningRange_iff.2 ⟨r, hr, hb, usesSource_of_op hop, h1, h2⟩) b
    rw [e] at written
    exact ⟨_, written, memRead_of_raced List.mem_cons_self, rfl⟩
  · rcases h with hb | h
    · exact inRunningRange_of_idle hb a
    · exact inRunningRange_of_outside hr h

theorem redraw_run {s : State} {op : Op} {pos : Pos} {r : Req} (hq : s.seq = .run op pos) (hr : s.req = some r)
    (a : Nat) (f : Byte) : redraw a f s = redrawAt op pos r (a - r.src.toNat) f s := by simp [redraw, hq, hr]

/-- R56: a HOST write to Byte `j` of the range of a running request redraws what PP has read of it at its position. -/
theorem hostWrite_running {s : State} {op : Op} {pos : Pos} {r : Req} {j : Nat} (hb : s.busy = true)
    (hq : s.seq = .run op pos) (hr : s.req = some r) (hu : usesSource r.op = true) (hj : j < r.len.toNat)
    (ha : r.src.toNat + j < 2 ^ s.cfg.addrBits) (b : Byte) : hostWrite (r.src.toNat + j) b s =
      .next (redrawAt op pos r j (Config.racedByte (s.raceNo + 1) (r.src.toNat + j))
        (recordRace (r.src.toNat + j) b s)) := by
  rw [hostWrite_inRange ha (inRunningRange_iff.2 ⟨r, hr, hb, hu, by omega, by omega⟩),
    redraw_run (s := recordRace (r.src.toNat + j) b s) hq hr, Nat.add_sub_cancel_left]

/-- R54: with no Byte computed from source Byte `j` sent, the row buffer and the carry become those of the row with that
Byte. -/
theorem redrawBuffer_load {s u : State} {site : Site} {row : RowKind} {bytes : List Byte} {i j : Nat}
    (hrow : rowInBuffer site s = row) (hs : s.scratch = (loadRow row bytes u).scratch)
    (hc : s.carry = (loadRow row bytes u).carry) (hi : s.cur + i ≤ j) (hj : j < s.cur + bytes.length) (f : Byte) :
    (redrawBuffer site .rowBuffer i j f s).seq = s.seq ∧
      (redrawBuffer site .rowBuffer i j f s).scratch = (loadRow row (bytes.set (j - s.cur) f) u).scratch ∧
      (redrawBuffer site .rowBuffer i j f s).carry = (loadRow row (bytes.set (j - s.cur) f) u).carry := by
  have e : redrawBuffer site .rowBuffer i j f s = redrawRow row (j - s.cur) f s := by
    rw [redrawBuffer, if_pos hi, hrow]
  refine ⟨?_, ?_⟩
  · obtain ⟨sc, ca, -, frame⟩ := redrawBuffer_frame site .rowBuffer i j f s
    rw [frame]
  · rw [e]
    exact redrawRow_load f hs hc (by omega)

/-- Settles O55: at each position the write redraws the copy that PP holds there (`hostWrite_running`). -/
theorem racedBytesInFlightAreFree : Obligations.RacedBytesInFlightAreFree := by
  intro s b op pos r j hb hq hr hu hj ha any
  refine ⟨_, hostWrite_running hb hq hr hu hj ha b, ?argByte, ?cmdOpen, ?cmdNext, ?dataPut, ?rowByte, ?rowBuffer⟩
  case argByte => rintro got rfl; rfl
  case cmdOpen =>
    rintro c o args hargs rfl
    exact congrArg (fun bytes => Seq.run op (.cmdOpen .sendCmd bytes)) (redrawArg_drop any c o 0 hargs hj)
  case cmdNext =>
    rintro c o args k hargs rfl
    exact congrArg (fun bytes => Seq.run op (.cmdNext .sendCmd bytes)) (redrawArg_drop any c o k hargs hj)
  case dataPut =>
    rintro site source n old rfl
    simp only [redrawAt, if_true, goto_seq]
    rfl
  case rowByte =>
    rintro row got rfl hcur
    have hcur' : (recordRace (r.src.toNat + j) b s).cur ≤ j := hcur
    simp only [redrawAt, if_pos hcur', goto_seq]
    rfl
  case rowBuffer =>
    intro site i n row bytes u hpos hrow hs hc hi hj'
    have loaded := redrawBuffer_load (s := recordRace (r.src.toNat + j) b s) hrow hs hc hi hj' any
    rcases hpos with rfl | rfl | rfl <;> exact loaded

/-! ### A running request never stops (R43, R151) -/

/-- R43: every step of R7 of a block with the invariant answers. -/
theorem tick_next_of_inv {s : State} (hw : s.cfg.wf = true) (hi : Inv s) : ∃ t, tick s = .next t := by
  obtain ⟨v, hb, hq⟩ := hi.blockGood
  cases hs : s.seq with
  | idle => exact ⟨s, by simp [tick, hs]⟩
  | rejecting reason => exact ⟨_, tick_rejecting hs⟩
  | run op pos =>
    obtain ⟨r, ⟨hbusy, hreq, named⟩, hpos⟩ := seqOk_run hs hq
    obtain ⟨t, ht, -⟩ := stepAt_good hw hb ⟨hbusy, hreq, named⟩ hpos
    exact ⟨t, (tick_run hs hreq).trans ht⟩

/-- Settles O47: an idle block waits or accepts, and a busy one takes a step of R7 (`tick_next_of_inv`). -/
theorem runningRequestsNeverStop : Obligations.RunningRequestsNeverStop := by
  intro s hw hi
  cases hb : s.busy with
  | true =>
    rw [ppStep_busy hb]
    exact tick_next_of_inv hw hi
  | false =>
    cases hp : s.port with
    | none => exact ⟨s, ppStep_wait hb hp⟩
    | some d => exact ⟨_, ppStep_accept hb hp⟩

/-! ### What a request leaves alone (R19, R30, R39, R42) -/

theorem initLoop_keep (l : List InitFrame) (acc : Status) (s : State) : KeepsRest s (initLoop l acc s).2 := by
  rw [initLoop_eq]
  exact KeepsRest.refl

theorem afterHwReset_keep (s : State) : KeepsRest s (afterHwReset (tHwReset s)) := by
  unfold afterHwReset
  split <;> exact KeepsRest.refl

theorem render_keep (x y w h : Byte) (base len : Nat) (s : State) :
    KeepsRest s (render x y w h base len s).2 := by
  refine andThen_keep (rowFrame_keep ..) fun _ => ?_
  refine andThen_keep (colFrame_keep ..) fun _ => ?_
  exact andThen_keep (framedCmd_keep ..) fun _ => pack_keep ..

/-- R42: no request touches source memory, REQ, the configuration, FAULT or the other agents. -/
theorem exec_keep {i : Instr} {s t : State} (h : exec i s = .next t) : KeepsRest s t := by
  cases hwf : i.wf s.cfg with
  | false =>
    obtain ⟨reason, e⟩ := exec_of_not_wf hwf
    cases e.symm.trans h
    exact KeepsRest.refl
  | true =>
    cases i with
    | sendCmd op len src =>
      cases (exec_sendCmd s hwf).symm.trans h
      exact framedCmd_keep op _ s
    | sendData len src =>
      cases (exec_sendData s hwf).symm.trans h
      exact framedData_keep _ s
    | setColRange start stop => cases h; exact colFrame_keep _ _ s
    | setRowRange start stop => cases h; exact rowFrame_keep _ _ s
    | resetRange => cases h; exact (colFrame_keep _ _ s).trans (rowFrame_keep ..)
    | render x y w hh len src =>
      cases (exec_render s hwf).symm.trans h
      exact render_keep x y w hh _ _ s
    | clear => cases h; exact framedData_keep _ s
    | init => cases h; exact initLoop_keep _ 0 s
    | transportReset => cases h; exact afterHwReset_keep s

/-- R29: a request leaves the block idle. -/
theorem exec_idle {i : Instr} {s t : State} (h : exec i s = .next t) : t.busy = false ∧ t.seq = .idle := by
  obtain ⟨st, u, e⟩ := exec_finishes i s
  cases e.symm.trans h
  exact ⟨rfl, rfl⟩

/-- Settles O41: what `exec_keep` keeps, and the idle block every request ends with. -/
theorem requestsLeaveTheRestUnchanged : Obligations.RequestsLeaveTheRestUnchanged := by
  intro s t i h
  obtain ⟨mem, req, cfg, fault, port, script, closes, pulses, raced, raceNo⟩ := exec_keep h
  obtain ⟨busy, seq⟩ := exec_idle h
  exact ⟨fun a => by rw [mem], mem, req, cfg, fault, port, script, closes, pulses, raced, raceNo, busy, seq⟩

/-! ### What a request reads (R44) -/

/-- A state with another source memory. -/
def withMem (mem : Memory) (s : State) : State := { s with mem := mem }

/-- From `s` on, `f` goes the same way with the other memory. -/
def IgnoresMem (mem : Memory) (f : State → Status × State) (s : State) : Prop :=
  f (withMem mem s) = ((f s).1, withMem mem (f s).2)

section
variable {mem : Memory} {s : State}

/-- What leaves the fields of `withUnread` as they are, and does not read them but for memory. -/
theorem ignoresMem_of_withUnread {f : State → Status × State}
    (hs : f (withUnread s s) = ((f s).1, withUnread s (f s).2))
    (hm : f (withUnread (withMem mem s) s) = ((f s).1, withUnread (withMem mem s) (f s).2)) : IgnoresMem mem f s := by
  have kept : (f s).2 = withUnread s (f s).2 := congrArg Prod.snd hs
  calc f (withMem mem s)
    _ = ((f s).1, withUnread (withMem mem s) (f s).2) := hm
    _ = ((f s).1, withMem mem (withUnread s (f s).2)) := rfl
    _ = ((f s).1, withMem mem (f s).2) := by rw [← kept]

theorem ignoresMem_andThen {f g : State → Status × State} (hf : IgnoresMem mem f s)
    (hg : IgnoresMem mem g (f s).2) : IgnoresMem mem (fun s => andThen (f s) g) s := by
  unfold IgnoresMem at *
  by_cases h0 : (f s).1 = 0
  · simp only [hf, andThen_pos h0, andThen_pos (r := ((f s).1, withMem mem (f s).2)) h0, hg]
  · simp only [hf, andThen_neg h0, andThen_neg (r := ((f s).1, withMem mem (f s).2)) h0]

theorem ignoresMem_framedCmd (op : Byte) (args : List Byte) : IgnoresMem mem (framedCmd op args) s := by
  rw [IgnoresMem, framedCmd_eq, framedCmd_eq]
  rfl

theorem ignoresMem_colFrame (a b : BitVec 6) : IgnoresMem mem (colFrame a b) s := by
  rw [IgnoresMem, colFrame_eq, colFrame_eq]
  rfl

theorem ignoresMem_rowFrame (a b : BitVec 7) : IgnoresMem mem (rowFrame a b) s := by
  rw [IgnoresMem, rowFrame_eq, rowFrame_eq]
  rfl

theorem ignoresMem_startLineFrame : IgnoresMem mem startLineFrame s := by
  rw [IgnoresMem, startLineFrame, startLineFrame, framedCmd_eq, framedCmd_eq]
  rfl

theorem ignoresMem_initLoop (l : List InitFrame) (acc : Status) : IgnoresMem mem (initLoop l acc) s := by
  rw [IgnoresMem, initLoop_eq, initLoop_eq]
  rfl

theorem ignoresMem_framedData (bytes : List Byte) : IgnoresMem mem (framedData bytes) s :=
  ignoresMem_of_withUnread (framedData_withUnread s bytes s) (framedData_withUnread _ bytes s)

theorem ignoresMem_fullRange : IgnoresMem mem fullRange s := by
  simp only [IgnoresMem, fullRange, colFrame_eq, rowFrame_eq]
  rfl

/-- R99, R100: the packer reads its source range only. -/
theorem ignoresMem_pack (w : Byte) {base len : Nat}
    (h : ∀ a, base ≤ a → a < base + len → mem.read a = s.mem.read a) : IgnoresMem mem (pack w base len) s :=
  ignoresMem_of_withUnread (pack_withUnread s w base len s fun _ _ _ => rfl) (pack_withUnread _ w base len s h)

/-- R95: the frames before the pixels read none, and the pixels are those of the range. -/
theorem ignoresMem_render (x y w hh : Byte) {base len : Nat}
    (h : ∀ a, base ≤ a → a < base + len → mem.read a = s.mem.read a) :
    IgnoresMem mem (render x y w hh base len) s := by
  refine ignoresMem_andThen (ignoresMem_rowFrame ..) ?_
  refine ignoresMem_andThen (ignoresMem_colFrame ..) ?_
  refine ignoresMem_andThen ignoresMem_startLineFrame (ignoresMem_pack w ?_)
  rwa [startLineFrame, framedCmd_mem, colFrame_mem, rowFrame_mem]

/-- R44: the Bytes of a range, from a memory that agrees on it. -/
theorem readBytes_withMem {base n : Nat} (h : ∀ a, base ≤ a → a < base + n → mem.read a = s.mem.read a) :
    readBytes base n (withMem mem s) = readBytes base n s :=
  readBytes_withUnread (withMem mem s) s base n h

/-- R70: the checks on the operands do not read source memory. -/
theorem ifLegal_withMem {i : Instr} {body : State → State} (hb : body (withMem mem s) = withMem mem (body s)) :
    ifLegal i body (withMem mem s) = withMem mem (ifLegal i body s) := by
  have hc : (withMem mem s).cfg = s.cfg := rfl
  unfold ifLegal
  rw [hc]
  cases operandCheck s.cfg i with
  | none => exact hb
  | some reason => rfl

theorem endRequest_withMem {f : State → Status × State} (hf : IgnoresMem mem f s) :
    endRequest (f (withMem mem s)) = withMem mem (endRequest (f s)) := congrArg endRequest hf

theorem afterHwReset_withMem : afterHwReset (tHwReset (withMem mem s)) = withMem mem (afterHwReset (tHwReset s)) := by
  change (if hwAnswer s then _ else _) = withMem mem (if hwAnswer s then _ else _)
  split <;> rfl

/-- R44: a request goes the same way with another memory that agrees on the addresses it may read. -/
theorem exec_withMem {i : Instr} (h : ∀ a, readsAddress a i → mem.read a = s.mem.read a) :
    exec i (withMem mem s) = mapNext (withMem mem) (exec i s) := by
  have next {u v : State} (e : u = withMem mem v) :
      (.next u : Host.Outcome State Fault Refusal) = mapNext (withMem mem) (.next v) := congrArg Host.Outcome.next e
  cases i with
  | sendCmd op len src =>
    refine next (ifLegal_withMem ?_)
    rw [readBytes_withMem fun a h1 h2 => h a ⟨h1, h2⟩]
    exact congrArg (endSendCmd op) (ignoresMem_framedCmd op _)
  | sendData len src =>
    refine next (ifLegal_withMem ?_)
    rw [readBytes_withMem fun a h1 h2 => h a ⟨h1, h2⟩]
    exact endRequest_withMem (ignoresMem_framedData _)
  | setColRange start stop => exact next (endRequest_withMem (ignoresMem_colFrame ..))
  | setRowRange start stop => exact next (endRequest_withMem (ignoresMem_rowFrame ..))
  | resetRange => exact next (endRequest_withMem ignoresMem_fullRange)
  | render x y w hh len src =>
    exact next (ifLegal_withMem (endRequest_withMem (ignoresMem_render x y w hh fun a h1 h2 => h a ⟨h1, h2⟩)))
  | clear => exact next (endRequest_withMem (ignoresMem_framedData _))
  | init => exact next (congrArg endInit (ignoresMem_initLoop s.cfg.initFrames 0))
  | transportReset =>
    refine next ?_
    change finish 0 false (hwAnswer s) (afterHwReset (tHwReset (withMem mem s))) =
      withMem mem (finish 0 false (hwAnswer s) (afterHwReset (tHwReset s)))
    rw [afterHwReset_withMem]
    rfl

end

/-- Settles O40: the next state with the other memory is `exec_withMem`. -/
theorem requestsReadOnlyTheirRange : Obligations.RequestsReadOnlyTheirRange := by
  intro s t i mem hmem h
  have other : exec i (withMem mem s) = mapNext (withMem mem) (exec i s) := exec_withMem hmem
  rwa [h] at other

end Sys2Proof.Machine

/-! PROOFS. The encoding (30_encoding.md): what the decoder makes of a descriptor, field by field; that it undoes the
encoder; and which of the four checks a descriptor fails first. -/

namespace Sys2Proof.Machine

/-! ### The decoder (R63 to R67) -/

/-- R65: the opcode map by the numbers of the operations. -/
theorem opOfField_eq_some {v : BitVec 4} {op : Op} : opOfField v = some op ↔ v.toNat = (fieldOfOp op).toNat := by
  revert v; cases op <;> decide

/-- R66: the values of OP that name no operation. -/
theorem opOfField_eq_none {v : BitVec 4} : opOfField v = none ↔ v.toNat = 0 ∨ 10 ≤ v.toNat := by
  revert v; decide

/-- R63: a descriptor that names an operation and has its reserved fields 0 decodes to that operation's operands. -/
theorem decode_eq_operandsOf {d : Descriptor} {op : Op} (hop : opOfField d.opField = some op) (h0 : d.rsv0 = 0)
    (h1 : d.rsv1 = 0) : decode d = .ok (operandsOf d op) := by
  simp [decode, hop, h0, h1]

/-- R66: the first check. -/
theorem decode_eq_badOp {d : Descriptor} (hop : opOfField d.opField = none) : decode d = .error .badOp := by
  simp [decode, hop]

/-- R67: the second check. -/
theorem decode_eq_reservedBits {d : Descriptor} {op : Op} (hop : opOfField d.opField = some op)
    (h : ¬(d.rsv0 = 0 ∧ d.rsv1 = 0)) : decode d = .error .reservedBits := by
  simp only [decode, hop, if_neg h]

/-- R63: the operands of an operation, each the bits of its field. -/
theorem operandsOf_eq_fieldAt (d : Descriptor) (op : Op) : operandsOf d op =
    match op with
    | .sendCmd => .sendCmd (fieldAt d.w0 8 8) (fieldAt d.w1 16 16) d.w2
    | .sendData => .sendData (fieldAt d.w1 16 16) d.w2
    | .setColRange => .setColRange (fieldAt d.w0 8 8) (fieldAt d.w0 16 8)
    | .setRowRange => .setRowRange (fieldAt d.w0 8 8) (fieldAt d.w0 16 8)
    | .resetRange => .resetRange
    | .render => .render (fieldAt d.w0 8 8) (fieldAt d.w0 16 8) (fieldAt d.w0 24 8) (fieldAt d.w1 0 8)
        (fieldAt d.w1 16 16) d.w2
    | .clear => .clear
    | .init => .init
    | .transportReset => .transportReset := by
  cases op <;> simp only [operandsOf, Descriptor.p0, Descriptor.p1, Descriptor.p2, Descriptor.p3, Descriptor.len,
    extract_eq_fieldAt]

/-- Settles O1: OP names the operation, and `operandsOf_eq_fieldAt` its operands. -/
theorem everyOperandIsItsField : Obligations.EveryOperandIsItsField := by
  intro d h0 h1
  have named (op : Op) (h : d.w0.toNat % 16 = (fieldOfOp op).toNat) : decode d = .ok (operandsOf d op) := by
    rw [← opField_toNat, ← opOfField_eq_some] at h
    exact decode_eq_operandsOf h ((rsv0_eq_zero d).2 h0) ((rsv1_eq_zero d).2 h1)
  simp only [operandsOf_eq_fieldAt] at named
  exact ⟨named .sendCmd, named .sendData, named .setColRange, named .setRowRange, named .resetRange, named .render,
    named .clear, named .init, named .transportReset⟩

/-- Settles O4: the decoder runs on each. -/
theorem writtenOutDescriptorsDecode : Obligations.WrittenOutDescriptorsDecode := by
  unfold Obligations.WrittenOutDescriptorsDecode
  decide

/-! ### The round trip (R62, R63) -/

/-- R65, R67: what the decoder checks holds of every encoded request. -/
theorem encode_shape (i : Instr) : Laws.EncodeShape.Statement i := by
  cases i with
  | sendCmd op len src => exact Laws.EncodeShape.sendCmd op len src
  | sendData len src => exact Laws.EncodeShape.sendData len src
  | setColRange start stop => exact Laws.EncodeShape.setColRange start stop
  | setRowRange start stop => exact Laws.EncodeShape.setRowRange start stop
  | resetRange => exact Laws.EncodeShape.resetRange
  | render x y w h len src => exact Laws.EncodeShape.render x y w h len src
  | clear => exact Laws.EncodeShape.clear
  | init => exact Laws.EncodeShape.init
  | transportReset => exact Laws.EncodeShape.transportReset

/-- R63: the operands stand in the encoded descriptor where the decoder takes them from. -/
theorem operandsOf_encode (i : Instr) : operandsOf (encode i) i.op = i := by
  have w0 (op : Op) (a b c : Byte) (w1 w2 : Word) := (packW0_fields op a b c w1 w2).2.2
  have w1 (w0 : Word) (l : BitVec 16) (p3 : Byte) (w2 : Word) := (packW1_fields w0 l p3 w2).2
  cases i with
  | sendCmd op len src => simp only [encode, Instr.op, operandsOf, w0, w1]
  | sendData len src => simp only [encode, Instr.op, operandsOf, w1]
  | setColRange start stop => simp only [encode, Instr.op, operandsOf, w0]
  | setRowRange start stop => simp only [encode, Instr.op, operandsOf, w0]
  | render x y w h len src => simp only [encode, Instr.op, operandsOf, w0, w1]
  | resetRange | clear | init | transportReset => rfl

/-- R62: the decoder undoes the encoder. -/
theorem decode_encode (i : Instr) : decode (encode i) = .ok i := by
  obtain ⟨hop, h0, h1⟩ := encode_shape i
  rw [decode_eq_operandsOf hop h0 h1, operandsOf_encode]

/-! ### The four checks (R66 to R70) -/

theorem checkRequest_of_decode_error {d : Descriptor} {reason : Reject} (c : Config)
    (h : decode d = .error reason) : checkRequest c d = .error reason := by
  simp [checkRequest, h]

theorem checkRequest_of_operandCheck_some {c : Config} {d : Descriptor} {i : Instr} {reason : Reject}
    (hd : decode d = .ok i) (h : operandCheck c i = some reason) : checkRequest c d = .error reason := by
  simp [checkRequest, hd, h]

theorem checkRequest_of_operandCheck_none {c : Config} {d : Descriptor} {i : Instr}
    (hd : decode d = .ok i) (h : operandCheck c i = none) : checkRequest c d = .ok i := by
  simp [checkRequest, hd, h]

/-- Settles O2: `decode_encode`, and a well-formed request passes the checks on its operands. -/
theorem decodeOfEncodeIsTheRequest : Obligations.DecodeOfEncodeIsTheRequest := by
  intro c i
  refine ⟨decode_encode i, fun hwf => ?_⟩
  exact checkRequest_of_operandCheck_none (decode_encode i) ((operandCheck_eq_none c i).2 hwf)

/-- R68: the source range of a descriptor does not lie inside SM, by the numbers of its words. -/
abbrev SourceOutside (c : Config) (d : Descriptor) : Prop :=
  d.w2.toNat / 2 ^ c.addrBits ≠ 0 ∨ 2 ^ c.addrBits < d.w2.toNat % 2 ^ c.addrBits + d.w1.toNat / 2 ^ 16

/-- R69: the region of a descriptor has no pixel, by the numbers of its words. -/
abbrev NoPixel (d : Descriptor) : Prop := d.w0.toNat / 2 ^ 24 = 0 ∨ d.w1.toNat % 256 = 0

theorem rangeCheck_fields (c : Config) (d : Descriptor) :
    rangeCheck c d.w2 d.len = if SourceOutside c d then some .badRange else none := by
  rw [rangeCheck, if_congr (range_outside_iff c d.w2 d.len) rfl rfl, len_toNat]

theorem regionCheck_fields (d : Descriptor) :
    regionCheck d.p2 d.p3 = if NoPixel d then some .emptyRegion else none := by
  rw [regionCheck, if_congr (or_congr (p2_eq_zero d) (p3_eq_zero d)) rfl rfl]

/-- R70: the checks on the operands of a descriptor that names `op`, in their order. -/
theorem operandCheck_operandsOf (c : Config) {d : Descriptor} {op : Op} (hop : d.w0.toNat % 16 = (fieldOfOp op).toNat) :
    operandCheck c (operandsOf d op) =
      if (d.w0.toNat % 16 = 1 ∨ d.w0.toNat % 16 = 2 ∨ d.w0.toNat % 16 = 6) ∧ SourceOutside c d then some .badRange
      else if d.w0.toNat % 16 = 6 ∧ NoPixel d then some .emptyRegion else none := by
  rw [hop]
  cases op with
  | sendCmd | sendData => simp [fieldOfOp, operandsOf, operandCheck, rangeCheck_fields]
  | render =>
    have checks : operandCheck c (operandsOf d .render) =
        (if SourceOutside c d then some .badRange else none).or (if NoPixel d then some .emptyRegion else none) := by
      rw [← rangeCheck_fields, ← regionCheck_fields]
      rfl
    rw [checks]
    by_cases h : SourceOutside c d <;> simp [fieldOfOp, h]
  | setColRange | setRowRange | resetRange | clear | init | transportReset =>
    simp [fieldOfOp, operandsOf, operandCheck]

/-- R70: four checks made in turn, each with its own reason, answer as the first that fails says. -/
theorem answer_iff_of_firstFailure {answer : Except Reject Instr} {badOp reserved badRange empty : Prop}
    (hop : badOp → answer = .error .badOp)
    (hreserved : ¬badOp → reserved → answer = .error .reservedBits)
    (hrange : ¬badOp → ¬reserved → badRange → answer = .error .badRange)
    (hempty : ¬badOp → ¬reserved → ¬badRange → empty → answer = .error .emptyRegion)
    (hok : ¬badOp → ¬reserved → ¬badRange → ¬empty → ∃ i, answer = .ok i) :
    (answer = .error .badOp ↔ badOp) ∧
    (answer = .error .reservedBits ↔ ¬badOp ∧ reserved) ∧
    (answer = .error .badRange ↔ ¬badOp ∧ ¬reserved ∧ badRange) ∧
    (answer = .error .emptyRegion ↔ ¬badOp ∧ ¬reserved ∧ ¬badRange ∧ empty) ∧
    ((∃ i, answer = .ok i) ↔ ¬badOp ∧ ¬reserved ∧ ¬badRange ∧ ¬empty) := by
  by_cases h1 : badOp
  · simp [hop h1, h1]
  by_cases h2 : reserved
  · simp [hreserved h1 h2, h1, h2]
  by_cases h3 : badRange
  · simp [hrange h1 h2 h3, h1, h2, h3]
  by_cases h4 : empty
  · simp [hempty h1 h2 h3 h4, h1, h2, h3, h4]
  · obtain ⟨i, h⟩ := hok h1 h2 h3 h4
    simp [h, h1, h2, h3, h4]

/-- Settles O3: the decoder makes the first two checks, `operandCheck_operandsOf` the last two. -/
theorem checksRunInTheirOrder : Obligations.ChecksRunInTheirOrder := by
  intro c d
  have illegal : opOfField d.opField = none ↔ d.w0.toNat % 16 = 0 ∨ 10 ≤ d.w0.toNat % 16 := by
    rw [opOfField_eq_none, opField_toNat]
  have unreserved : d.rsv0 = 0 ∧ d.rsv1 = 0 ↔ ¬(d.w0.toNat / 2 ^ 4 % 16 ≠ 0 ∨ d.w1.toNat / 2 ^ 8 % 256 ≠ 0) := by
    rw [rsv0_eq_zero, rsv1_eq_zero, not_or, not_not, not_not]
  cases hop : opOfField d.opField with
  | none =>
    have bad := illegal.1 hop
    exact answer_iff_of_firstFailure (fun _ => checkRequest_of_decode_error c (decode_eq_badOp hop))
      (absurd bad) (absurd bad) (absurd bad) (absurd bad)
  | some op =>
    have legal := mt illegal.2 (by simp [hop])
    have checks := operandCheck_operandsOf c ((opField_toNat d).symm.trans (opOfField_eq_some.1 hop))
    have decoded h := decode_eq_operandsOf hop (unreserved.2 h).1 (unreserved.2 h).2
    refine answer_iff_of_firstFailure (fun bad => absurd bad legal) (fun _ h2 => ?_) (fun _ h2 h3 => ?_)
      (fun _ h2 h3 h4 => ?_) (fun _ h2 h3 h4 => ?_)
    · exact checkRequest_of_decode_error c (decode_eq_reservedBits hop fun h => unreserved.1 h h2)
    · exact checkRequest_of_operandCheck_some (decoded h2) (checks.trans (if_pos h3))
    · exact checkRequest_of_operandCheck_some (decoded h2) (checks.trans ((if_neg h3).trans (if_pos h4)))
    · exact ⟨_, checkRequest_of_operandCheck_none (decoded h2) (checks.trans ((if_neg h3).trans (if_neg h4)))⟩

end Sys2Proof.Machine

/-! PROOFS. The framer (40_framer.md): SEND_CMD and SEND_DATA as one formula each, the chunks of a data frame, and what
every request does on the bus. -/

namespace Sys2Proof.Machine

/-! ### SEND_CMD and SEND_DATA (R87, R88) -/

/-- R118: a request that is not well formed writes RESULT, BUSY and SEQ. -/
theorem exec_rejected {i : Instr} {s : State} (h : i.wf s.cfg = false) :
    exec i s = .next { s with result := 0x00010000, busy := false, seq := .idle } := by
  obtain ⟨reason, e⟩ := exec_of_not_wf h
  rw [e, reject_eq]

/-- Settles O15: the frame is one session (`framedCmd_eq`). -/
theorem sendCmdSendsOneSession : Obligations.SendCmdSendsOneSession := by
  intro s op len src
  refine ⟨packW0_opcode .sendCmd op 0 0, fun h => exec_rejected h, fun h => ?_⟩
  rw [exec_sendCmd s h, framedCmd_eq]
  simp only [endSendCmd, finish, resultWord_plain]
  rfl

/-- Settles O16: the frame is the sessions of `framedData_spec`. -/
theorem sendDataSendsItsSessions : Obligations.SendDataSendsItsSessions := by
  intro s len src hw
  refine ⟨packW0_opcode .sendData 0 0 0, fun h => exec_rejected h, fun h => ?_⟩
  obtain ⟨k, cnt, sent, hcnt, e⟩ := framedData_spec (readBytes src.toNat len.toNat s) s (one_le_p _ hw)
  rw [readBytes_length] at sent
  refine ⟨k, cnt, sent, hcnt, ?_⟩
  rw [exec_sendData s h, e]
  simp only [endRequest, finish, resultWord_plain]
  rfl

/-! ### The chunks of a data frame (R84) -/

/-- The sessions before another one are full. -/
theorem mul_lt_of_lt_sessionCount {p n j : Nat} (hp : 1 ≤ p) (h0 : 0 < j) (hj : j < sessionCount p n) :
    j * p < n := by
  have h : j + 1 ≤ (n + p - 1) / p := by unfold sessionCount at hj; omega
  rw [Nat.le_div_iff_mul_le hp, Nat.succ_mul] at h
  omega

/-- All sessions together hold the frame. -/
theorem le_sessionCount_mul {p : Nat} (hp : 1 ≤ p) (n : Nat) : n ≤ sessionCount p n * p := by
  have h : (n + p - 1) / p < sessionCount p n + 1 := by unfold sessionCount; omega
  rw [Nat.div_lt_iff_lt_mul hp, Nat.succ_mul] at h
  omega

/-- R84: every chunk is P Bytes long but the last, which has the rest. -/
theorem chunkAt_length_eq {p i : Nat} (hp : 1 ≤ p) (bytes : List Byte) (hi : i < sessionCount p bytes.length) :
    (chunkAt p i bytes).length = if i + 1 < sessionCount p bytes.length then p
      else bytes.length - (sessionCount p bytes.length - 1) * p := by
  rw [chunkAt_length p i _ bytes rfl]
  split
  · next h =>
    have full := mul_lt_of_lt_sessionCount hp (Nat.succ_pos i) h
    rw [Nat.succ_mul] at full
    omega
  · next h =>
    have last : sessionCount p bytes.length = i + 1 := by omega
    have rest := le_sessionCount_mul hp bytes.length
    rw [last, Nat.succ_mul] at rest
    rw [last, Nat.add_sub_cancel]
    omega

/-- Settles O17: with every close 0 all sessions are sent, and their chunks are `chunkAt`. -/
theorem chunkingIsTransparent : Obligations.ChunkingIsTransparent := by
  intro s bytes hw count h0
  have hp := one_le_p _ hw
  obtain ⟨k, cnt, sent, -, e⟩ := framedData_spec bytes s hp
  obtain rfl : k = count := sent.all h0
  have payload := chunkAt_flatten s.cfg.p hp bytes
  have last : closeStatus s (count - 1) = 0 := h0 _ (by omega)
  rw [last] at e
  refine ⟨_, (List.range count).map fun j => chunkAt s.cfg.p j bytes, e, ?_, by simp, payload, ?_,
    fun i hi => ⟨?_, ?_⟩⟩
  · exact congrArg (s.trace ++ ·) (dataFrame_of_zero _ s hp bytes rfl h0)
  · exact (payloadOf_sessions s.cfg _).trans payload
  · rw [List.getElem?_map, List.getElem?_range hi]
    rfl
  · exact chunkAt_length_eq hp bytes hi

/-! ### Whole sessions, each closing with TRANSPORT's next answer (R36, R78, R79, R80) -/

/-- What a frame, a run of frames or a request does on the bus: it appends whole sessions that keep the contract, and as
many of TRANSPORT's answers as they have closes, in order. -/
structure WholeSessions (s t : State) : Prop where
  cfg : t.cfg = s.cfg
  closes : t.closes = s.closes
  session : s.session = .closed → t.session = .closed
  events : ∃ events n, t.trace = s.trace ++ events ∧ t.closeNo = s.closeNo + n ∧
    busRun s.cfg .between events = some .between ∧ closesOf events = (List.range n).map (closeStatus s)

/-- Nothing is put on the bus. -/
theorem wholeSessions_of_same {s t : State} (cfg : t.cfg = s.cfg) (closes : t.closes = s.closes)
    (session : t.session = s.session) (trace : t.trace = s.trace) (closeNo : t.closeNo = s.closeNo) :
    WholeSessions s t :=
  ⟨cfg, closes, session.trans, [], 0, by rw [trace, List.append_nil], closeNo, rfl, rfl⟩

theorem WholeSessions.refl (s : State) : WholeSessions s s := wholeSessions_of_same rfl rfl rfl rfl rfl

/-- The answers after the first `n` are those of the state that took `n`. -/
theorem WholeSessions.trans {s u t : State} (h : WholeSessions s u) (h' : WholeSessions u t) : WholeSessions s t := by
  obtain ⟨cfg, closes, session, events, n, trace, closeNo, run, answers⟩ := h
  obtain ⟨cfg', closes', session', events', n', trace', closeNo', run', answers'⟩ := h'
  have shift : closeStatus u = fun j => closeStatus s (n + j) :=
    funext fun j => closeStatus_congr _ _ cfg closes (by omega)
  refine ⟨cfg'.trans cfg, closes'.trans closes, session' ∘ session, events ++ events', n + n', ?_, by omega,
    ?_, ?_⟩
  · rw [trace', trace, List.append_assoc]
  · rw [busRun_append, run, ← cfg]
    exact run'
  · rw [closesOf_append, answers, answers', List.range_add, List.map_append, List.map_map, shift]
    rfl

theorem WholeSessions.finish {s t : State} (h : WholeSessions s t) (st : Status) (illegal pulsed : Bool) :
    WholeSessions s (finish st illegal pulsed t) := h.trans (wholeSessions_of_same rfl rfl rfl rfl rfl)

/-- An event between two sessions. -/
theorem wholeSessions_emit {s : State} {e : Event} (run : busNext s.cfg .between e = some .between)
    (noClose : closesOf [e] = []) : WholeSessions s (emit e s) :=
  ⟨rfl, rfl, id, [e], 0, rfl, rfl, by simp only [busRun, run], noClose⟩

theorem wholeSessions_framedCmd (op : Byte) (args : List Byte) (s : State) :
    WholeSessions s (framedCmd op args s).2 := by
  rw [framedCmd_eq]
  exact ⟨rfl, rfl, fun _ => rfl, _, 1, rfl, rfl, busRun_cmdSession .., closesOf_cmdSession ..⟩

theorem wholeSessions_framedData (bytes : List Byte) {s : State} (hp : 1 ≤ s.cfg.p) :
    WholeSessions s (framedData bytes s).2 := by
  obtain ⟨k, cnt, -, -, e⟩ := framedData_spec bytes s hp
  rw [e]
  exact ⟨rfl, rfl, fun _ => rfl, _, k, rfl, rfl, busRun_dataFrame .., closesOf_dataFrame ..⟩

theorem wholeSessions_colFrame (a b : BitVec 6) (s : State) : WholeSessions s (colFrame a b s).2 :=
  (wholeSessions_framedCmd s.cfg.opSetColumn (colArgs a b) s).trans (by
    rw [colFrame, updateCols_eq]
    exact wholeSessions_of_same rfl rfl rfl rfl rfl)

theorem wholeSessions_rowFrame (a b : BitVec 7) (s : State) : WholeSessions s (rowFrame a b s).2 :=
  (wholeSessions_framedCmd s.cfg.opSetRow (rowArgs a b) s).trans (by
    rw [rowFrame, updateRows_eq]
    exact wholeSessions_of_same rfl rfl rfl rfl rfl)

/-- One row of the packer, whichever way its Bytes came into the row buffer. -/
theorem wholeSessions_sendRow {s u : State} (hp : 1 ≤ s.cfg.p) (h : WholeSessions s u) :
    WholeSessions s (sendRow u).2 := h.trans (wholeSessions_framedData _ (h.cfg.symm ▸ hp))

/-- R99: the rows of the packer, one data frame each. -/
theorem wholeSessions_packLoop (base b len fuel : Nat) {s : State} (hp : 1 ≤ s.cfg.p) :
    WholeSessions s (packLoop base b len fuel s).2 := by
  induction fuel generalizing s with
  | zero => exact .refl s
  | succ fuel ih =>
    have onward {st : Status} {u : State} (row : WholeSessions s u) :
        WholeSessions s (if st = 0 then packLoop base b len fuel u else (st, u)).2 := by
      split
      · exact row.trans (ih (row.cfg.symm ▸ hp))
      · exact row
    rw [packLoop]
    cases nextRow b len s with
    | terminal =>
      simp only [terminalRow]
      split
      · exact .refl s
      · exact wholeSessions_sendRow hp (wholeSessions_of_same rfl rfl rfl rfl rfl)
    | even =>
      have load : WholeSessions s (loadEvenRow (readBytes (base + s.cur) b s) s) :=
        wholeSessions_of_same rfl rfl rfl rfl rfl
      have row : WholeSessions s (afterEvenRow b (evenRow base b s).2) :=
        (wholeSessions_sendRow hp load).trans (wholeSessions_of_same rfl rfl rfl rfl rfl)
      exact onward row
    | odd =>
      have load : WholeSessions s (loadOddRow (readBytes (base + s.cur) (b - 1) s) s) :=
        wholeSessions_of_same rfl rfl rfl rfl rfl
      have row : WholeSessions s (afterOddRow b (oddRow base b s).2) :=
        (wholeSessions_sendRow hp load).trans (wholeSessions_of_same rfl rfl rfl rfl rfl)
      exact onward row

theorem wholeSessions_pack (w : Byte) (base len : Nat) {s : State} (hp : 1 ≤ s.cfg.p) :
    WholeSessions s (pack w base len s).2 := by
  unfold pack
  split
  · exact wholeSessions_framedData _ hp
  · have start : WholeSessions s (startPack s) := wholeSessions_of_same rfl rfl rfl rfl rfl
    exact start.trans (wholeSessions_packLoop _ _ _ _ hp)

theorem WholeSessions.andThen {s : State} {r : Status × State} {next : State → Status × State}
    (h : WholeSessions s r.2) (hn : WholeSessions r.2 (next r.2).2) : WholeSessions s (andThen r next).2 := by
  by_cases h0 : r.1 = 0
  · rw [andThen_pos h0]
    exact h.trans hn
  · rwa [andThen_neg h0]

/-- R95: RENDER's window frames, and its pixels. -/
theorem wholeSessions_render (x y w h : Byte) (base len : Nat) {s : State} (hp : 1 ≤ s.cfg.p) :
    WholeSessions s (render x y w h base len s).2 := by
  refine (wholeSessions_rowFrame _ _ s).andThen ?_
  refine (wholeSessions_colFrame _ _ _).andThen ?_
  refine (wholeSessions_framedCmd _ _ _).andThen ?_
  refine wholeSessions_pack w base len ?_
  rwa [framedCmd_cfg, colFrame_cfg, rowFrame_cfg]

/-- R112: every frame of INIT is sent. -/
theorem wholeSessions_initLoop (l : List InitFrame) (acc : Status) (s : State) :
    WholeSessions s (initLoop l acc s).2 := by
  induction l generalizing acc s with
  | nil => exact .refl s
  | cons f l ih =>
    have forget (u : State) : WholeSessions u (forgetWindow f.opcode u) := wholeSessions_of_same rfl rfl rfl rfl rfl
    exact ((wholeSessions_framedCmd f.opcode f.args s).trans (forget _)).trans (ih _ _)

theorem wholeSessions_settle (s : State) : WholeSessions s (settle s) := wholeSessions_emit rfl rfl

/-- R114: the hardware reset pulses between sessions. -/
theorem wholeSessions_hwReset (s : State) : WholeSessions s (afterHwReset (tHwReset s)) := by
  have answered : WholeSessions s { s with pulseNo := s.pulseNo + 1 } := wholeSessions_of_same rfl rfl rfl rfl rfl
  have pulsed : WholeSessions s (tHwReset s).2 := answered.trans (wholeSessions_emit rfl rfl)
  unfold afterHwReset
  split
  · exact pulsed.trans (wholeSessions_of_same rfl rfl rfl rfl rfl)
  · exact pulsed

/-- R80, R126: every request puts whole sessions on the bus. -/
theorem exec_wholeSessions {i : Instr} {s t : State} (hw : s.cfg.wf = true) (h : exec i s = .next t) :
    WholeSessions s t := by
  have hp := one_le_p _ hw
  cases hwf : i.wf s.cfg with
  | false =>
    obtain ⟨reason, e⟩ := exec_of_not_wf hwf
    cases e.symm.trans h
    exact (WholeSessions.refl s).finish ..
  | true =>
    cases i with
    | sendCmd op len src =>
      cases (exec_sendCmd s hwf).symm.trans h
      have forget (u : State) : WholeSessions u (forgetWindow op u) := wholeSessions_of_same rfl rfl rfl rfl rfl
      exact ((wholeSessions_framedCmd op _ s).trans (forget _)).finish ..
    | sendData len src =>
      cases (exec_sendData s hwf).symm.trans h
      exact (wholeSessions_framedData _ hp).finish ..
    | setColRange start stop => cases h; exact (wholeSessions_colFrame _ _ s).finish ..
    | setRowRange start stop => cases h; exact (wholeSessions_rowFrame _ _ s).finish ..
    | resetRange =>
      cases h
      exact ((wholeSessions_colFrame _ _ s).trans (wholeSessions_rowFrame ..)).finish ..
    | render x y w hh len src =>
      cases (exec_render s hwf).symm.trans h
      exact (wholeSessions_render x y w hh _ _ hp).finish ..
    | clear => cases h; exact (wholeSessions_framedData _ hp).finish ..
    | init => cases h; exact ((wholeSessions_initLoop _ 0 s).trans (wholeSessions_settle _)).finish ..
    | transportReset => cases h; exact (wholeSessions_hwReset s).finish ..

/-- Settles O34: the contract is kept by whole sessions. -/
theorem requestsKeepTheTransportContract : Obligations.RequestsKeepTheTransportContract := by
  intro s i hw
  obtain ⟨t, h⟩ := exec_next i s
  obtain ⟨-, -, session, events, -, trace, -, run, -⟩ := exec_wholeSessions hw h
  exact ⟨t, events, h, trace, run, session⟩

/-- Settles O36: each session of the request takes the next answer, which the port cut to STATUS_BITS. -/
theorem everyCloseTakesTheNextAnswer : Obligations.EveryCloseTakesTheNextAnswer := by
  intro s i hw
  obtain ⟨t, h⟩ := exec_next i s
  obtain ⟨-, -, -, events, n, trace, closeNo, -, answers⟩ := exec_wholeSessions hw h
  have taken : t.closeNo - s.closeNo = n := by omega
  refine ⟨t, events, h, trace, by rw [taken, answers], by omega, fun st hst => ?_⟩
  rw [answers, List.mem_map] at hst
  obtain ⟨j, -, rfl⟩ := hst
  exact statusFits_closeStatus s j

end Sys2Proof.Machine

/-! PROOFS. The window (41_window.md): the last frame of a request is followed by `Finish`, the two frames of RESET_RANGE as
one formula, and from them what the three range requests do. -/

namespace Sys2Proof.Machine

/-- R29: a request whose last session just closed reports its status, with both flags 0. -/
theorem endRequest_afterBus (st : Status) (s : State) (events : List Event) (closes cnt : Nat) :
    endRequest (st, afterBus s events closes cnt) = { s with
      trace := s.trace ++ events, session := .closed, cnt := cnt, closeNo := s.closeNo + closes
      result := BitVec.ofNat 32 st.toNat, busy := false, seq := .idle } := by
  simp only [endRequest, finish, resultWord_plain]
  rfl

/-! ### One range frame (R89 to R91) -/

/-- R90: the arguments of SET_COL_RANGE, each cut to 6 bits. -/
theorem colArgs_maskCol (start stop : Byte) : colArgs (maskCol start) (maskCol stop) =
    [BitVec.ofNat 8 (start.toNat % 64), BitVec.ofNat 8 (stop.toNat % 64)] := by
  rw [colArgs, colValueByte_maskCol, colValueByte_maskCol]

/-- R91: the arguments of SET_ROW_RANGE, each cut to 7 bits. -/
theorem rowArgs_maskRow (start stop : Byte) : rowArgs (maskRow start) (maskRow stop) =
    [BitVec.ofNat 8 (start.toNat % 128), BitVec.ofNat 8 (stop.toNat % 128)] := by
  rw [rowArgs, rowValueByte_maskRow, rowValueByte_maskRow]

/-- Settles O19: the column frame is one session and its update of the shadow (`colFrame_eq`). -/
theorem setColRangeMasksAndRecords : Obligations.SetColRangeMasksAndRecords := by
  intro s start stop
  refine ⟨packW0_opcode .setColRange start stop 0, ?_⟩
  rw [exec, execSetColRange, colFrame_eq, endRequest_afterBus, colArgs_maskCol, maskCol_eq, maskCol_eq]

/-- Settles O20: the row frame is one session and its update of the shadow (`rowFrame_eq`). -/
theorem setRowRangeMasksAndRecords : Obligations.SetRowRangeMasksAndRecords := by
  intro s start stop
  refine ⟨packW0_opcode .setRowRange start stop 0, ?_⟩
  rw [exec, execSetRowRange, rowFrame_eq, endRequest_afterBus, rowArgs_maskRow, maskRow_eq, maskRow_eq]

/-! ### Both range frames (R92) -/

/-- R92: the arguments of the column frame that commands the full width. -/
theorem colArgs_full (c : Config) : colArgs 0 (fullColEnd c) = [0x00, BitVec.ofNat 8 ((c.width / 2 + 63) % 64)] := by
  rw [colArgs, fullColEnd_eq, colValueByte_ofNat]
  rfl

/-- R92: the arguments of the row frame that commands the full height. -/
theorem rowArgs_full (c : Config) : rowArgs 0 (fullRowEnd c) = [0x00, BitVec.ofNat 8 ((c.height + 127) % 128)] := by
  rw [rowArgs, fullRowEnd_eq, rowValueByte_ofNat]
  rfl

/-- R92: the row session follows the column session whatever that returned, and each half of the shadow goes by the
answer to its own session. -/
theorem fullRange_eq (s : State) : fullRange s = (closeStatus s 0 ||| closeStatus s 1,
    afterBus { s with
        colStart := if closeStatus s 0 = 0 then some 0 else none
        colEnd := if closeStatus s 0 = 0 then some (fullColEnd s.cfg) else none
        rowStart := if closeStatus s 1 = 0 then some 0 else none
        rowEnd := if closeStatus s 1 = 0 then some (fullRowEnd s.cfg) else none }
      (cmdSession s.cfg s.cfg.opSetColumn (colArgs 0 (fullColEnd s.cfg)) (closeStatus s 0) ++
        cmdSession s.cfg s.cfg.opSetRow (rowArgs 0 (fullRowEnd s.cfg)) (closeStatus s 1)) 2 0) := by
  have rowAnswer : closeStatus (colFrame 0 (fullColEnd s.cfg) s).2 0 = closeStatus s 1 := by
    rw [colFrame_eq]
    exact closeStatus_congr 0 1 rfl rfl rfl
  simp only [fullRange, rowFrame_eq, rowAnswer]
  rw [colFrame_eq]
  simp [afterBus]

/-- Settles O21: the two sessions of `fullRange_eq`, their ends by number. -/
theorem resetRangeSendsBothFrames : Obligations.ResetRangeSendsBothFrames := by
  intro s
  refine ⟨packW0_opcode .resetRange 0 0 0, ?_⟩
  rw [exec, execResetRange, fullRange_eq, endRequest_afterBus, colArgs_full, rowArgs_full, fullColEnd_eq, fullRowEnd_eq,
    ← List.append_assoc]

end Sys2Proof.Machine

/-! PROOFS. The packer (42_packer.md): the window frames of RENDER and the state in which its pixels start, the data
frames of an even and of an odd width, and that a request does not read what an earlier one left in the registers. -/

namespace Sys2Proof.Machine

/-! ### The window of RENDER (R95 to R98) -/

/-- R95: the state in which `Pack` starts, after the three window frames closed with 0. -/
def windowSent (x y w h : Byte) (s : State) : State :=
  afterBus (withRenderWindow x y w h s)
    (renderRowSession s.cfg y h 0 ++ renderColSession s.cfg x w 0 ++ startLineSession s.cfg 0) 3 0

section
variable (x y w h : Byte) (s : State)

theorem windowSent_trace : (windowSent x y w h s).trace = s.trace ++ renderRowSession s.cfg y h 0 ++
    renderColSession s.cfg x w 0 ++ startLineSession s.cfg 0 := by
  simp only [List.append_assoc]
  rfl

theorem closeStatus_windowSent (n : Nat) : closeStatus (windowSent x y w h s) n = closeStatus s (3 + n) :=
  (closeStatus_afterBus ..).trans (closeStatus_congr _ _ rfl rfl rfl)

theorem readBytes_windowSent (base n : Nat) : readBytes base n (windowSent x y w h s) = readBytes base n s :=
  readBytes_congr _ _ rfl rfl rfl

end

/-- R95: once the three window frames closed with 0, RENDER is its pixels. -/
theorem exec_render_of_windowSent {x y w h : Byte} {len : BitVec 16} {src : Word} {s : State}
    (hwf : (Instr.render x y w h len src).wf s.cfg = true) (h0 : ∀ j < 3, closeStatus s j = 0) :
    exec (.render x y w h len src) s =
      .next (endRequest (pack w src.toNat len.toNat (windowSent x y w h s))) := by
  obtain ⟨hw, hh, -⟩ := wf_render hwf
  rw [exec_render s hwf, render_eq x y w h _ _ s hw hh, if_pos (h0 0 (by omega)), if_pos (h0 1 (by omega)),
    if_pos (h0 2 (by omega))]
  rfl

/-- R31: the pixels leave the shadow, as they leave every field they do not read. -/
theorem pack_shadow (w : Byte) (base len : Nat) (s : State) :
    RowsKept s (pack w base len s).2 ∧ ColsKept s (pack w base len s).2 := by
  have kept : (pack w base len s).2 = withUnread s (pack w base len s).2 :=
    congrArg Prod.snd (pack_withUnread s w base len s fun _ _ _ => rfl)
  rw [kept]
  exact ⟨⟨rfl, rfl⟩, rfl, rfl⟩

/-- Settles O22, by the first of the three closes that fails (`render_eq`). -/
theorem renderAbortsBeforeData : Obligations.RenderAbortsBeforeData := by
  intro s x y w h len src hwf
  obtain ⟨hw, hh, -⟩ := wf_render hwf
  refine ⟨fun row => ?_, fun row col => ?_, fun row col line => ?_, fun hc h0 => ?_⟩
  · rw [exec_render s hwf, render_eq x y w h _ _ s hw hh, if_neg row]
    simp only [endRequest, finish, resultWord_plain]
    rfl
  · rw [exec_render s hwf, render_eq x y w h _ _ s hw hh, if_pos row, if_neg col, List.append_assoc]
    simp only [endRequest, finish, resultWord_plain]
    rfl
  · rw [exec_render s hwf, render_eq x y w h _ _ s hw hh, if_pos row, if_pos col, if_neg line, endRequest_afterBus]
    simp only [List.append_assoc]
    rfl
  · have hp : 1 ≤ (windowSent x y w h s).cfg.p := one_le_p _ hc
    obtain ⟨-, -, -, data, -, trace, -⟩ := wholeSessions_pack w src.toNat len.toNat hp
    obtain ⟨⟨rowStart, rowEnd⟩, colStart, colEnd⟩ := pack_shadow w src.toNat len.toNat (windowSent x y w h s)
    rw [windowSent_trace] at trace
    exact ⟨_, data, exec_render_of_windowSent hwf h0, trace, rowStart, rowEnd, colStart, colEnd⟩

/-- Settles O23: the shadow is the commanded window, whose values are below their masks but for the column end of an odd
width that reaches 128. -/
theorem renderCommandsTheRegionsSegments : Obligations.RenderCommandsTheRegionsSegments := by
  intro s x y w h len src hc hwf h0 hx hy
  obtain ⟨hw, hh, -⟩ := wf_render hwf
  have wPos : w.toNat ≠ 0 := fun zero => hw (BitVec.eq_of_toNat_eq zero)
  have hPos : h.toNat ≠ 0 := fun zero => hh (BitVec.eq_of_toNat_eq zero)
  obtain ⟨-, -, -, window⟩ := renderAbortsBeforeData s x y w h len src hwf
  obtain ⟨t, -, next, -, rowStart, rowEnd, colStart, colEnd⟩ := window hc h0
  refine ⟨t, _, _, _, _, next, rowStart, rowEnd, colStart, colEnd, ?_, ?_, ?_, ?_⟩
  · rw [BitVec.toNat_ofNat]; omega
  · rw [BitVec.toNat_ofNat, BitVec.toNat_ofNat]; omega
  · rw [BitVec.toNat_ofNat]; omega
  · rw [BitVec.toNat_ofNat, BitVec.toNat_ofNat]
    split_ifs <;> omega

/-! ### An even width (R100) -/

/-- Settles O24: the data is one frame of the source Bytes (`framedData_spec`). -/
theorem renderEvenWidthSendsTheBuffer : Obligations.RenderEvenWidthSendsTheBuffer := by
  intro s x y w h len src hc hwf even h0
  have hp : 1 ≤ s.cfg.p := one_le_p _ hc
  have answers : closeStatus (windowSent x y w h s) = fun n => closeStatus s (3 + n) :=
    funext (closeStatus_windowSent x y w h s)
  obtain ⟨k, cnt, sent, hcnt, frame⟩ :=
    framedData_spec (readBytes src.toNat len.toNat s) (windowSent x y w h s) hp
  rw [answers] at sent frame
  rw [readBytes_length] at sent
  refine ⟨k, cnt, sent, hcnt, fun zero => ?_, ?_⟩
  · obtain rfl : k = sessionCount s.cfg.p len.toNat := sent.all zero
    have payload := payload_frame s.cfg hp (readBytes src.toNat len.toNat s) (fun n => closeStatus s (3 + n))
    rw [readBytes_length] at payload
    exact payload zero
  · rw [exec_render_of_windowSent hwf h0, pack, if_pos even, readBytes_windowSent, frame, windowSent, afterBus_afterBus,
      endRequest_afterBus, ← List.append_assoc, ← List.append_assoc, ← List.append_assoc]
    rfl

/-! ### An odd width: the rows and the registers (R99 to R106) -/

/-- R99, R101: what an odd-width pack sends and leaves, by the source Bytes alone. -/
theorem rowsSent_pack {w : Byte} (odd : w.toNat % 2 = 1) (base len : Nat) {s : State} (hp : 1 ≤ s.cfg.p)
    (closed : s.session = .closed) (hcnt : s.cnt ≤ s.cfg.p) :
    RowsSent (startPack s) len (fun n => packRegs (w.toNat / 2 + 1) n .even 0x00 0 (readBytes base len s))
      (rowsOf w.toNat (readBytes base len s)) (pack w base len s) := by
  rw [pack, if_neg (by omega), rowsOf, readBytes_length]
  exact packLoop_spec base (bufLen w) len (packFuel len) (startPack s) hp (Nat.le_add_left ..) (Nat.zero_le _) closed
    hcnt

/-- R34, R37, R38: the state in which an odd-width RENDER ends whose packer began `m` rows. -/
theorem endRequest_of_packRegs {x y w h : Byte} {s : State} {r : Status × State} {ph : Phase} {ca : Byte} {cu : Nat}
    {sc : List Byte} {data : List Event} {n cnt m : Nat} {bytes : List Byte} (odd : w.toNat % 2 = 1)
    (state : r.2 = withPacker (afterBus (startPack (windowSent x y w h s)) data n cnt) ph ca cu sc)
    (regs : (ph, ca, cu) = packRegs (w.toNat / 2 + 1) m .even 0x00 0 bytes) :
    endRequest r = { withPackerAfter w.toNat (min m (fullRows w.toNat bytes.length)) bytes
        (withRenderWindow x y w h s) with
      trace := (endRequest r).trace, session := .closed, cnt := (endRequest r).cnt
      closeNo := (endRequest r).closeNo, scratch := (endRequest r).scratch, result := (endRequest r).result
      busy := false, seq := .idle } := by
  rw [withPackerAfter_regs odd m bytes _ regs, endRequest, state]
  rfl

/-- Settles O27: the two ends of `RowsSent`, from the state the window frames left. -/
theorem renderOddWidthStopsAtTheFailedRow : Obligations.RenderOddWidthStopsAtTheFailedRow := by
  intro s x y w h len src hc hwf odd h0 bytes rows
  have sent := rowsSent_pack odd src.toNat len.toNat (s := windowSent x y w h s) (one_le_p _ hc) rfl (Nat.zero_le _)
  rw [readBytes_windowSent] at sent
  obtain ⟨ph, ca, cu, sc, data, n, cnt, state, -, hcu, ends⟩ := sent
  have next := exec_render_of_windowSent hwf h0
  generalize pack w src.toNat len.toNat (windowSent x y w h s) = r at state ends next
  have frame {m : Nat} (regs : (ph, ca, cu) = packRegs (w.toNat / 2 + 1) m .even 0x00 0 bytes) :=
    endRequest_of_packRegs odd state regs
  rw [show bytes.length = len.toNat from readBytes_length ..] at frame
  have cur : (endRequest r).cur ≤ len.toNat := by rw [endRequest, state]; exact hcu
  have trace : (endRequest r).trace = s.trace ++ renderRowSession s.cfg y h 0 ++ renderColSession s.cfg x w 0 ++
      startLineSession s.cfg 0 ++ data := by
    rw [← windowSent_trace, endRequest, state]
    rfl
  rcases ends with ⟨status, regs, hdata, -, -⟩ | ⟨sent, row, k, j, hrow, regs, hk, failed, hdata, hj, status, -, -⟩
  · refine ⟨_, rows.length, rows.length, data, next, frame regs, cur, trace, .inl ⟨rfl, rfl, hdata, ?_⟩⟩
    rw [endRequest, status]
    rfl
  · have answers (n : Nat) : closeStatus (startPack (windowSent x y w h s)) (j + n) = closeStatus s (3 + j + n) := by
      rw [Nat.add_assoc, ← closeStatus_windowSent x y w h]
      rfl
    simp only [answers] at hk failed hdata status
    refine ⟨_, sent, sent + 1, data, next, frame regs, cur, trace,
      .inr ⟨row, k, 3 + j, hrow, rfl, hk, failed, hdata, congrArg (3 + ·) hj, ?_⟩⟩
    rw [endRequest, status]
    exact resultWord_plain _

/-! ### An odd width with every status 0 (R105, R107) -/

/-- A row's sessions and those of the rows before it are among those of all rows. -/
theorem totalSessions_take_add_le (p : Nat) {rows : List (List Byte)} {n : Nat} {row : List Byte}
    (h : rows[n]? = some row) : totalSessions p (rows.take n) + sessionCount p row.length ≤ totalSessions p rows := by
  induction rows generalizing n with
  | nil => cases h
  | cons first rows ih =>
    cases n with
    | zero =>
      obtain rfl : first = row := Option.some.inj h
      rw [totalSessions_cons, List.take_zero]
      simp [totalSessions]
    | succ n =>
      have rest := ih (n := n) (by simpa using h)
      rw [List.take_succ_cons, totalSessions_cons, totalSessions_cons]
      omega

/-- R105: no source has more rows than `packLoop`'s fuel, nor a row more than B Bytes. -/
theorem totalSessions_rowsOf_le {p : Nat} (hp : 1 ≤ p) (w : Nat) (bytes : List Byte) :
    totalSessions p (rowsOf w bytes) ≤ (2 * bytes.length + 2) * sessionCount p (w / 2 + 1) :=
  calc totalSessions p (rowsOf w bytes)
    _ ≤ (rowsOf w bytes).length * sessionCount p (w / 2 + 1) :=
      totalSessions_le p _ hp _ fun row hrow => (packRows_row_length _ _ (Nat.le_add_left ..) _ _ _ row hrow).1
    _ ≤ _ := Nat.mul_le_mul_right _ (packRows_length_le ..)

/-- R99: with enough answers 0, an odd-width RENDER sends all rows of its source Bytes. -/
theorem exec_render_odd_of_zero {s : State} {x y w h : Byte} {len : BitVec 16} {src : Word} (hc : s.cfg.wf = true)
    (hwf : (Instr.render x y w h len src).wf s.cfg = true) (odd : w.toNat % 2 = 1)
    (h0 : ∀ j < 3 + (2 * len.toNat + 2) * sessionCount s.cfg.p (w.toNat / 2 + 1), closeStatus s j = 0) :
    ∃ t, exec (.render x y w h len src) s = .next t ∧ t.result = 0 ∧
      t.trace = s.trace ++ renderRowSession s.cfg y h 0 ++ renderColSession s.cfg x w 0 ++ startLineSession s.cfg 0 ++
        rowFrames s.cfg (rowsOf w.toNat (readBytes src.toNat len.toNat s)) := by
  obtain ⟨t, sent, begun, data, next, -, -, trace, ends⟩ :=
    renderOddWidthStopsAtTheFailedRow s x y w h len src hc hwf odd fun j hj => h0 j (by omega)
  rcases ends with ⟨-, -, rfl, result⟩ | ⟨row, k, j, hrow, -, ⟨one, all, -⟩, failed, -, hj, -⟩
  · exact ⟨t, next, result, trace⟩
  · have inside : j + sessionCount s.cfg.p row.length ≤
        3 + totalSessions s.cfg.p (rowsOf w.toNat (readBytes src.toNat len.toNat s)) := by
      rw [hj, Nat.add_assoc]
      exact Nat.add_le_add_left (totalSessions_take_add_le _ hrow) 3
    have bound := totalSessions_rowsOf_le (one_le_p _ hc) w.toNat (readBytes src.toNat len.toNat s)
    rw [readBytes_length] at bound
    exact absurd (h0 _ (by omega)) failed

/-- Settles O25: the rows are the pixels of the source Bytes (`packRows_pixels`). -/
theorem renderOddWidthSendsThePixels : Obligations.RenderOddWidthSendsThePixels := by
  intro s x y w h len src hc hwf odd h0
  obtain ⟨t, next, result, trace⟩ := exec_render_odd_of_zero hc hwf odd h0
  have width : 2 * (w.toNat / 2 + 1) - 1 = w.toNat := by omega
  refine ⟨t, _, next, result, trace, fun r whole => ?_, fun row hrow => ?_⟩
  · have fuel : r + 1 ≤ (r + 1) * w.toNat := Nat.le_mul_of_pos_right _ (by omega)
    have pixels := packRows_pixels (w.toNat / 2 + 1) (2 * (readBytes src.toNat len.toNat s).length + 2)
      (Nat.le_add_left ..) 0x00 (readBytes src.toNat len.toNat s) r
    rw [width, readBytes_length] at pixels
    rw [rowsOf, readBytes_length]
    exact pixels (by omega) whole
  · exact (packRows_row_length _ _ (Nat.le_add_left ..) _ _ _ row hrow).2

/-- R105: the lengths of the rows: full ones, and a last one of what is left. -/
theorem rowsOf_map_length {w : Nat} (odd : w % 2 = 1) (bytes : List Byte) :
    let rest := bytes.length % w
    let tail := if w / 2 + 1 ≤ rest then rest - (w / 2 + 1) else rest
    (rowsOf w bytes).map List.length =
      List.replicate (fullRows w bytes.length) (w / 2 + 1) ++ if 0 < tail then [tail] else [] := by
  have count := packRows_count (w / 2 + 1) (Nat.le_add_left ..) bytes.length _ 0x00 bytes rfl (Nat.le_refl _)
  rwa [show 2 * (w / 2 + 1) - 1 = w by omega] at count

/-- R105: `ceil(w h / 2)` Bytes are `h div 2` pairs of rows, and one more EVEN row for an odd `h`. -/
theorem exactLength_div_mod {w h len : Nat} (odd : w % 2 = 1) (wide : 1 < w) (exact : len = (w * h + 1) / 2) :
    len / w = h / 2 ∧ len % w = if h % 2 = 0 then 0 else w / 2 + 1 := by
  have pixels : w * h = 2 * (w * (h / 2)) + w * (h % 2) := by
    rw [← Nat.mul_assoc, Nat.mul_comm 2 w, Nat.mul_assoc, ← Nat.mul_add, Nat.div_add_mod]
  rw [Nat.div_mod_unique (by omega)]
  rcases Nat.mod_two_eq_zero_or_one h with even | odd'
  · rw [even, Nat.mul_zero] at pixels
    rw [if_pos even]
    omega
  · rw [odd', Nat.mul_one] at pixels
    rw [if_neg (by omega)]
    omega

/-- R105: the exact length for `h` rows gives `h` full rows. -/
theorem rowsOf_map_length_of_exact {w h : Nat} {bytes : List Byte} (odd : w % 2 = 1) (wide : 1 < w)
    (exact : bytes.length = (w * h + 1) / 2) :
    (rowsOf w bytes).map List.length = List.replicate h (w / 2 + 1) := by
  obtain ⟨div, mod⟩ := exactLength_div_mod odd wide exact
  rw [rowsOf_map_length odd, fullRows, div, mod]
  rcases Nat.mod_two_eq_zero_or_one h with even | odd'
  · have pairs : 2 * (h / 2) = h := by omega
    simp [even, pairs]
  · have pairs : 2 * (h / 2) + 1 = h := by omega
    simp [odd', pairs]

/-- R105: width 1 sends one row a nibble. -/
theorem rowsOf_map_length_of_narrow {w : Nat} (narrow : w = 1) (bytes : List Byte) :
    (rowsOf w bytes).map List.length = List.replicate (2 * bytes.length) 1 := by
  subst narrow
  rw [rowsOf_map_length rfl]
  simp [fullRows, Nat.mod_one]

/-- Settles O26: the lengths of `rowsOf_map_length`, and what they are for the exact length and for width 1. -/
theorem renderOddWidthRowCount : Obligations.RenderOddWidthRowCount := by
  intro s x y w h len src hc hwf odd h0 b rest tail
  obtain ⟨t, next, -, trace⟩ := exec_render_odd_of_zero hc hwf odd h0
  have total : (readBytes src.toNat len.toNat s).length = len.toNat := readBytes_length ..
  refine ⟨t, _, next, trace, fun _ => ?_, fun wide exact => ?_, fun narrow => ?_⟩
  · have lengths := rowsOf_map_length odd (readBytes src.toNat len.toNat s)
    rwa [total] at lengths
  · exact rowsOf_map_length_of_exact odd wide (total.trans exact)
  · have ones := rowsOf_map_length_of_narrow narrow (readBytes src.toNat len.toNat s)
    rw [total] at ones
    refine ⟨ones, fun exact => ?_⟩
    have count := congrArg List.length ones
    rw [List.length_map, List.length_replicate] at count
    split <;> omega

/-! ### Nothing carries over from an earlier request (R35, R101, R123) -/

/-- A state with PHASE, CARRY, CUR, SCRATCH, RESULT, BUSY and SEQ of another one: what an earlier request may leave. -/
def withLeftover (g s : State) : State :=
  { s with
    phase := g.phase, carry := g.carry, cur := g.cur, scratch := g.scratch
    result := g.result, busy := g.busy, seq := g.seq }

/-- A status and a state that differ from other leftovers in leftovers only. -/
def IgnoresLeftover (f : State → Status × State) : Prop :=
  ∀ g s, ∃ k, f (withLeftover g s) = ((f s).1, withLeftover k (f s).2)

theorem ignoresLeftover_andThen {f next : State → Status × State} (hf : IgnoresLeftover f)
    (hn : IgnoresLeftover next) : IgnoresLeftover fun s => andThen (f s) next := by
  intro g s
  obtain ⟨k, first⟩ := hf g s
  by_cases h0 : (f s).1 = 0
  · obtain ⟨m, second⟩ := hn k (f s).2
    refine ⟨m, ?_⟩
    simp only [first, andThen_pos h0, andThen_pos (r := ((f s).1, withLeftover k (f s).2)) h0, second]
  · refine ⟨k, ?_⟩
    simp only [first, andThen_neg h0, andThen_neg (r := ((f s).1, withLeftover k (f s).2)) h0]

/-- A frame whose Bytes come from fields that are no leftovers. -/
theorem ignoresLeftover_of_value {α : Type} {f : α → State → Status × State} (value : State → α)
    (hv : ∀ g s, value (withLeftover g s) = value s) (hf : ∀ a, IgnoresLeftover (f a)) :
    IgnoresLeftover fun s => f (value s) s := by
  intro g s
  simp only [hv]
  exact hf _ g s

theorem ignoresLeftover_framedCmd (op : Byte) (args : List Byte) : IgnoresLeftover (framedCmd op args) :=
  fun g s => ⟨g, by rw [framedCmd_eq, framedCmd_eq]; rfl⟩

theorem ignoresLeftover_colFrame (a b : BitVec 6) : IgnoresLeftover (colFrame a b) :=
  fun g s => ⟨g, by rw [colFrame_eq, colFrame_eq]; rfl⟩

theorem ignoresLeftover_rowFrame (a b : BitVec 7) : IgnoresLeftover (rowFrame a b) :=
  fun g s => ⟨g, by rw [rowFrame_eq, rowFrame_eq]; rfl⟩

theorem ignoresLeftover_startLineFrame : IgnoresLeftover startLineFrame :=
  ignoresLeftover_of_value (fun s => s.cfg.opStartLine) (fun _ _ => rfl) fun op => ignoresLeftover_framedCmd op [0x00]

theorem ignoresLeftover_fullRange : IgnoresLeftover fullRange :=
  fun g s => ⟨g, by rw [fullRange_eq, fullRange_eq]; rfl⟩

theorem ignoresLeftover_initLoop (l : List InitFrame) (acc : Status) : IgnoresLeftover (initLoop l acc) :=
  fun g s => ⟨g, by rw [initLoop_eq, initLoop_eq]; rfl⟩

/-- The leftovers are the packer's registers with SCRATCH and some of the fields of `withUnread`. -/
theorem ignoresLeftover_of_parts {f : State → Status × State}
    (hp : ∀ s ph ca cu sc, ∃ ph' ca' cu' sc',
      f (withPacker s ph ca cu sc) = ((f s).1, withPacker (f s).2 ph' ca' cu' sc'))
    (hu : ∀ g s, g.mem = s.mem → f (withUnread g s) = ((f s).1, withUnread g (f s).2)) : IgnoresLeftover f := by
  intro g s
  have kept : (f s).2 = withUnread s (f s).2 := congrArg Prod.snd (hu s s rfl)
  obtain ⟨ph, ca, cu, sc, packer⟩ := hp (withUnread (withLeftover g s) s) g.phase g.carry g.cur g.scratch
  refine ⟨withPacker g ph ca cu sc, ?_⟩
  calc f (withLeftover g s)
    _ = f (withPacker (withUnread (withLeftover g s) s) g.phase g.carry g.cur g.scratch) := rfl
    _ = ((f s).1, withPacker (withUnread (withLeftover g s) (f s).2) ph ca cu sc) := by
      rw [packer, hu (withLeftover g s) s rfl]
    _ = ((f s).1, withLeftover (withPacker g ph ca cu sc) (withUnread s (f s).2)) := rfl
    _ = ((f s).1, withLeftover (withPacker g ph ca cu sc) (f s).2) := by rw [← kept]

theorem ignoresLeftover_framedData (bytes : List Byte) : IgnoresLeftover (framedData bytes) :=
  ignoresLeftover_of_parts (fun s ph ca cu sc => ⟨ph, ca, cu, sc, framedData_withPacker ph ca cu sc bytes s⟩)
    fun g s _ => framedData_withUnread g bytes s

/-- R100, R101: an even width does not use the packer's registers, and an odd one writes them before it reads them. -/
theorem pack_withPacker (w : Byte) (base len : Nat) (s : State) (ph : Phase) (ca : Byte) (cu : Nat) (sc : List Byte) :
    ∃ ph' ca' cu' sc', pack w base len (withPacker s ph ca cu sc) =
      ((pack w base len s).1, withPacker (pack w base len s).2 ph' ca' cu' sc') := by
  by_cases even : w.toNat % 2 = 0
  · simp only [pack, if_pos even, readBytes_withPacker]
    exact ⟨ph, ca, cu, sc, framedData_withPacker ph ca cu sc _ s⟩
  · simp only [pack, if_neg even]
    obtain ⟨sc', buffer⟩ := packLoop_scratch base (bufLen w) len (packFuel len) (startPack s) sc
    exact ⟨_, _, _, sc', buffer⟩

theorem ignoresLeftover_pack (w : Byte) (base len : Nat) : IgnoresLeftover (pack w base len) :=
  ignoresLeftover_of_parts (pack_withPacker w base len)
    fun g s hm => pack_withUnread g w base len s fun _ _ _ => by rw [hm]

/-- R95: all of RENDER, frame by frame. -/
theorem ignoresLeftover_render (x y w h : Byte) (base len : Nat) : IgnoresLeftover (render x y w h base len) :=
  ignoresLeftover_andThen (ignoresLeftover_rowFrame _ _) <| ignoresLeftover_andThen (ignoresLeftover_colFrame _ _) <|
    ignoresLeftover_andThen ignoresLeftover_startLineFrame (ignoresLeftover_pack w base len)

/-- A next state that differs from other leftovers in the packer's registers and SCRATCH only. -/
def EndsAlike (body : State → State) : Prop :=
  ∀ g s, ∃ ph ca cu sc, body (withLeftover g s) = withPacker (body s) ph ca cu sc

/-- R29: `Finish` writes RESULT, BUSY and SEQ. -/
theorem endsAlike_finish {f : State → Status × State} (hf : IgnoresLeftover f) (after : State → State)
    (ha : ∀ g s, after (withLeftover g s) = withLeftover g (after s)) :
    EndsAlike fun s => finish (f s).1 false false (after (f s).2) := by
  intro g s
  obtain ⟨k, frames⟩ := hf g s
  refine ⟨k.phase, k.carry, k.cur, k.scratch, ?_⟩
  simp only [frames, ha]
  rfl

theorem endsAlike_endRequest {f : State → Status × State} (hf : IgnoresLeftover f) :
    EndsAlike fun s => endRequest (f s) := endsAlike_finish hf id fun _ _ => rfl

/-- R118: a rejection writes RESULT, BUSY and SEQ too. -/
theorem endsAlike_ifLegal (i : Instr) {body : State → State} (hb : EndsAlike body) : EndsAlike (ifLegal i body) := by
  intro g s
  have cfg : (withLeftover g s).cfg = s.cfg := rfl
  simp only [ifLegal, cfg]
  cases operandCheck s.cfg i with
  | none => exact hb g s
  | some reason => exact ⟨g.phase, g.carry, g.cur, g.scratch, rfl⟩

theorem endsAlike_transportReset :
    EndsAlike fun s => finish 0 false (tHwReset s).1 (afterHwReset (tHwReset s)) := by
  intro g s
  have pulse : afterHwReset (tHwReset (withLeftover g s)) = withLeftover g (afterHwReset (tHwReset s)) := by
    change (if hwAnswer s then _ else _) = withLeftover g (if hwAnswer s then _ else _)
    split <;> rfl
  refine ⟨g.phase, g.carry, g.cur, g.scratch, ?_⟩
  simp only [pulse]
  rfl

/-- R101, R123: what every request is, whatever an earlier one left. -/
theorem exec_endsAlike (i : Instr) : ∃ body, (∀ s, exec i s = .next (body s)) ∧ EndsAlike body := by
  cases i with
  | sendCmd op len src =>
    exact ⟨_, fun _ => rfl, endsAlike_ifLegal _ <| endsAlike_finish
      (ignoresLeftover_of_value (readBytes src.toNat len.toNat) (fun _ _ => rfl) (ignoresLeftover_framedCmd op))
      (forgetWindow op) fun _ _ => rfl⟩
  | sendData len src =>
    exact ⟨_, fun _ => rfl, endsAlike_ifLegal _ <| endsAlike_endRequest <|
      ignoresLeftover_of_value (readBytes src.toNat len.toNat) (fun _ _ => rfl) ignoresLeftover_framedData⟩
  | setColRange start stop => exact ⟨_, fun _ => rfl, endsAlike_endRequest (ignoresLeftover_colFrame _ _)⟩
  | setRowRange start stop => exact ⟨_, fun _ => rfl, endsAlike_endRequest (ignoresLeftover_rowFrame _ _)⟩
  | resetRange => exact ⟨_, fun _ => rfl, endsAlike_endRequest ignoresLeftover_fullRange⟩
  | render x y w h len src =>
    exact ⟨_, fun _ => rfl, endsAlike_ifLegal _ (endsAlike_endRequest (ignoresLeftover_render x y w h _ _))⟩
  | clear =>
    exact ⟨_, fun _ => rfl, endsAlike_endRequest <|
      ignoresLeftover_of_value (fun s => List.replicate (clearCount s.cfg) 0x00) (fun _ _ => rfl)
        ignoresLeftover_framedData⟩
  | init =>
    exact ⟨_, fun _ => rfl, endsAlike_finish
      (ignoresLeftover_of_value (fun s => s.cfg.initFrames) (fun _ _ => rfl) fun l => ignoresLeftover_initLoop l 0)
      settle fun _ _ => rfl⟩
  | transportReset => exact ⟨_, fun _ => rfl, endsAlike_transportReset⟩

/-- Settles O39: from other leftovers a request comes to the same state but for the packer's registers
(`exec_endsAlike`). -/
theorem nothingCarriesOverFromEarlierRequests : Obligations.NothingCarriesOverFromEarlierRequests := by
  intro s t i phase carry cur scratch result busy seq h
  obtain ⟨body, next, alike⟩ := exec_endsAlike i
  obtain rfl : body s = t := Host.Outcome.next.inj ((next s).symm.trans h)
  obtain ⟨ph, ca, cu, sc, other⟩ := alike { s with
    phase := phase, carry := carry, cur := cur, scratch := scratch, result := result, busy := busy, seq := seq } s
  exact ⟨withPacker (body s) ph ca cu sc, (next _).trans (congrArg Host.Outcome.next other), rfl⟩

end Sys2Proof.Machine

/-! PROOFS. The driver session (43_session.md): CLEAR as a data frame of zeros, INIT as the frames of its list and the OR
of their statuses, and the hardware reset by the answer of TRANSPORT. -/

namespace Sys2Proof.Machine

/-! ### CLEAR (R110, R111) -/

/-- Settles O28: the frame of zeros is the sessions of `framedData_spec`. -/
theorem clearSendsZeros : Obligations.ClearSendsZeros := by
  intro s hw
  refine ⟨packW0_opcode .clear 0 0 0, ?_⟩
  obtain ⟨k, cnt, sent, hcnt, e⟩ := framedData_spec (List.replicate (clearCount s.cfg) 0x00) s (one_le_p _ hw)
  rw [List.length_replicate] at sent
  refine ⟨k, cnt, sent, hcnt, ?_⟩
  rw [exec, execClear, e, endRequest_afterBus]
  rfl

/-- R111: the display of 128 x 128 has 8192 Bytes. -/
theorem clearCount_fullDisplay {c : Config} (hw : c.width = 128) (hh : c.height = 128) : clearCount c = 8192 := by
  rw [clearCount, hw, hh]

/-- R8, R9: P of the addressed variant with 32-Byte sessions. -/
theorem p_addressed {c : Config} (hv : c.variant = .addressed) (hm : c.maxChunk = 32) : c.p = 30 := by
  rw [Config.p, hdr_eq, hv, hm]
  rfl

/-- R8, R9: P of the strobe variant with 32-Byte sessions. -/
theorem p_strobe {c : Config} (hv : c.variant = .strobe) (hm : c.maxChunk = 32) : c.p = 31 := by
  rw [Config.p, hdr_eq, hv, hm]
  rfl

/-- Settles O29: the frame is chunked as every data frame is (`chunkingIsTransparent`), P Bytes a session. -/
theorem clearOfTheFullDisplay : Obligations.ClearOfTheFullDisplay := by
  intro s hw width height h0
  have zeros : (List.replicate 8192 (0x00 : Byte)).length = 8192 := List.length_replicate
  obtain ⟨t, sessions, e, trace, count, payload, -, chunks⟩ :=
    chunkingIsTransparent s (List.replicate 8192 0x00) hw (by rw [zeros]; exact h0)
  rw [zeros] at count chunks
  have lengths {p : Nat} (full : Nat) (hp : s.cfg.p = p) (hn : sessionCount p 8192 = full + 1) :
      sessions.length = full + 1 ∧
        ∀ j < full + 1, (sessions.getD j []).length = if j < full then p else 8192 - full * p := by
    subst hp
    refine ⟨count.trans hn, fun j hj => ?_⟩
    obtain ⟨session, length⟩ := chunks j (hj.trans_eq hn.symm)
    change _ = if j + 1 < sessionCount s.cfg.p 8192 then _ else 8192 - (sessionCount s.cfg.p 8192 - 1) * _ at length
    rw [List.getD_eq_getElem?_getD, session, Option.getD_some, length, hn]
    simp only [Nat.add_lt_add_iff_right, Nat.add_sub_cancel]
  refine ⟨endRequest (0, t), sessions, ?_, trace, payload, count, fun hv hm => ?_, fun hv hm => ?_⟩
  · rw [exec, execClear, clearCount_fullDisplay width height, e]
  · exact lengths 273 (p_addressed hv hm) rfl
  · exact lengths 264 (p_strobe hv hm) rfl

/-! ### INIT (R112, R113) -/

/-- Settles O30: the frames are those of `initLoop_eq`, and the settle event and `Finish` follow. -/
theorem initSendsEveryFrame : Obligations.InitSendsEveryFrame := by
  intro s
  refine ⟨packW0_opcode .init 0 0 0, ?_⟩
  rw [exec, execInit, initLoop_eq]
  simp only [endInit, finish, resultWord_plain]
  rfl

/-- R113: the OR of some statuses does not depend on their order. -/
theorem orOfAll_perm {l l' : List Status} (h : l.Perm l') : orOfAll l' = orOfAll l := (h.foldl_eq 0).symm

/-- R113: the OR of some statuses of which only the one with number `j` may not be 0. -/
theorem orOfAll_range_of_one_failure {n j : Nat} {status : Nat → Status} (hj : j < n)
    (h : ∀ i < n, i ≠ j → status i = 0) : orOfAll ((List.range n).map status) = status j := by
  rw [orOfAll, or_of_one_failure _ j (by simpa using hj), List.getElem_map, List.getElem_range]
  · exact BitVec.zero_or
  · intro i hi ne
    rw [List.getElem_map, List.getElem_range]
    exact h i (by simpa using hi) ne

/-- Settles O31: INIT reports the OR of its statuses (`initLoop_eq`), which is the same in every order. -/
theorem initReportsItsOneFailure : Obligations.InitReportsItsOneFailure := by
  intro s statuses
  have reported : statusField (endInit (initLoop s.cfg.initFrames 0 s)).result = orOfAll statuses := by
    rw [endInit, statusField_finish, initLoop_eq]
    rfl
  refine ⟨_, rfl, reported, fun other perm => ?_, fun j hj others => ?_⟩
  · rw [reported, orOfAll_perm perm]
  · rw [reported, orOfAll_range_of_one_failure hj others]

/-! ### TRANSPORT_RESET (R114) -/

/-- R28: the word of a request that pulsed the reset line. -/
theorem resultWord_pulsed : resultWord 0 false true = 0x00020000 := by decide

/-- R114: the state after the hardware reset, by the answer of TRANSPORT. -/
theorem afterHwReset_eq (s : State) : afterHwReset (tHwReset s) = { s with
    trace := s.trace ++ [.pulsed (hwAnswer s)], pulseNo := s.pulseNo + 1
    colStart := if hwAnswer s = true then none else s.colStart
    colEnd := if hwAnswer s = true then none else s.colEnd
    rowStart := if hwAnswer s = true then none else s.rowStart
    rowEnd := if hwAnswer s = true then none else s.rowEnd } := by
  cases answer : hwAnswer s <;> simp only [afterHwReset, tHwReset, answer] <;> rfl

/-- Settles O32: the state is that of `afterHwReset_eq`, and the word reports the answer. -/
theorem transportResetReportsThePulse : Obligations.TransportResetReportsThePulse := by
  intro s
  refine ⟨packW0_opcode .transportReset 0 0 0, ?_⟩
  have word : resultWord 0 false (hwAnswer s) = if hwAnswer s = true then 0x00020000 else 0x00000000 := by
    cases hwAnswer s with
    | false => exact resultWord_plain 0
    | true => exact resultWord_pulsed
  rw [exec, execTransportReset, afterHwReset_eq, ← word]
  rfl

end Sys2Proof.Machine

/-! PROOFS. Exceptions (60_exceptions.md): acceptance field by field, the rejection of an illegal descriptor as its two
steps and as one move, and the port, which only an idle block looks at. -/

namespace Sys2Proof.Machine

/-! ### Rejection (R118) -/

/-- Settles O33: a request that is not well formed is rejected (`exec_rejected`). -/
theorem illegalOperandsAreRejected : Obligations.IllegalOperandsAreRejected := fun _ _ => exec_rejected

/-- Settles O10: acceptance puts SEQ at the rejection (`accept_error`), which is the next step of R7. -/
theorem rejectIsTheStepAfterAcceptance : Obligations.RejectIsTheStepAfterAcceptance := by
  intro s d reason hb hp h
  refine ⟨accept d s, ppStep_accept hb hp, ?_, ?_⟩
  · rw [accept_error d s reason h]
    rfl
  · have rejecting : (accept d s).seq = .rejecting reason := by rw [accept_error d s reason h]
    rw [tick_rejecting rejecting, reject_eq]

/-! ### The move `letRequest` -/

/-- A step in which HOST waits for the whole request of the presented descriptor. -/
theorem step_runRequest {s : State} {d : Descriptor} {rest : List HostAct} (hw : s.cfg.wf = true)
    (hs : s.script = .letRequest :: rest) (hb : s.busy = false) (hp : s.port = some d) :
    step s = runRequest d (withPlan rest s) := by
  have planned : step s = requestMove (withPlan rest s) := by simp [step, hw, move, hs, hostMove, withPlan]
  rw [planned]
  exact requestMove_run (s := withPlan rest s) hb hp

/-- Settles O5: the step is `runRequest`, and that is `exec` of a descriptor that decodes. -/
theorem stepRunsTheDecodedRequest : Obligations.StepRunsTheDecodedRequest := by
  intro s d i rest hw hs hb hp h
  rw [step_runRequest hw hs hb hp, runRequest_ok _ h]
  rfl

/-- Settles O9: the step is `runRequest`, which rejects an illegal descriptor after its acceptance. -/
theorem illegalDescriptorIsRejected : Obligations.IllegalDescriptorIsRejected := by
  intro s d reason rest hw hs hb hp h
  have illegal : checkRequest (withPlan rest s).cfg d = .error reason := h
  rw [step_runRequest hw hs hb hp, runRequest_of_illegal illegal, accept_error d _ reason illegal, reject_eq]
  rfl

/-! ### Acceptance (R125) -/

/-- R62: the latched fields, each the bits of its field of the descriptor. -/
theorem latch_eq_fieldAt (c : Config) (d : Descriptor) : latch c d =
    ⟨fieldAt d.w0 0 4, fieldAt d.w0 8 8, fieldAt d.w0 16 8, fieldAt d.w0 24 8, fieldAt d.w1 0 8, fieldAt d.w1 16 16,
      BitVec.ofNat 32 (d.w2.toNat % 2 ^ c.addrBits)⟩ := by
  simp only [latch, Descriptor.opField, Descriptor.p0, Descriptor.p1, Descriptor.p2, Descriptor.p3, Descriptor.len,
    extract_eq_fieldAt]

/-- Settles O11: the step is the acceptance, which changes the latch and SEQ (`accept_frame`). -/
theorem acceptanceLatchesEveryField : Obligations.AcceptanceLatchesEveryField := by
  intro s d hb hp
  obtain ⟨q, accepted, rejected, started⟩ := accept_frame d s
  refine ⟨{ latchRequest d s with seq := q }, accepted ▸ ppStep_accept hb hp, ?_, rejected, started⟩
  rw [← latch_eq_fieldAt]
  rfl

/-! ### The port (R125) -/

theorem tick_idle {s : State} (hq : s.seq = .idle) : tick s = .next s := by simp [tick, hq]

/-- R125: no step of a running request reads or writes the port (`stepAt_withPort`). -/
theorem tick_withPort (p : Option Descriptor) (s : State) : tick (withPort p s) = mapNext (withPort p) (tick s) := by
  cases hq : s.seq with
  | idle =>
    rw [tick_idle hq, tick_idle (s := withPort p s) hq]
    rfl
  | rejecting reason =>
    rw [tick_rejecting hq, tick_rejecting (s := withPort p s) hq]
    rfl
  | run op pos =>
    cases hr : s.req with
    | none =>
      rw [tick_unknown hq hr, tick_unknown (s := withPort p s) hq hr]
      rfl
    | some r =>
      rw [tick_run hq hr, tick_run (s := withPort p s) hq hr]
      exact stepAt_withPort p op pos r s

/-- Settles O12: the step of a busy block is the next one of its request (`tick_withPort`). -/
theorem busyBlockIgnoresThePort : Obligations.BusyBlockIgnoresThePort := by
  intro s p hb
  rw [ppStep_busy hb]
  exact (ppStep_busy (s := withPort p s) hb).trans (tick_withPort p s)

/-- Settles O13: with nothing planned the step is one of PP, and an idle PP with nothing presented waits. -/
theorem idleBlockWaits : Obligations.IdleBlockWaits := by
  intro s hw hs hb hp
  rw [step_of_script_nil hw hs, ppStep_wait hb hp]

end Sys2Proof.Machine

/-! PROOFS. Reset and hazards (70_reset_and_hazards.md): the transport calls of a request without failures, counted from
the lengths of its sessions, and the block reset of an idle and of a busy block. -/

namespace Sys2Proof.Machine

/-! ### Transport calls (R152) -/

/-- R152, R84: the calls of a data frame of `n` source Bytes whose sessions are all sent. -/
theorem dataFrame_readBytes_length {s : State} (hw : s.cfg.wf = true) (base n : Nat) (status : Nat → Status) :
    (dataFrame s.cfg (readBytes base n s) (sessionCount s.cfg.p n) status).length = 3 * sessionCount s.cfg.p n + n := by
  have calls := dataFrame_length s.cfg (one_le_p _ hw) status (readBytes base n s)
  rwa [readBytes_length] at calls

/-- R152, R95: RENDER makes 17 calls before its data: two arguments for the rows, two for the columns, one for the start
line, and 4 more calls for each of the three frames. -/
theorem windowSessions_length (c : Config) (x y w h : Byte) (row col line : Status) :
    (renderRowSession c y h row ++ renderColSession c x w col ++ startLineSession c line).length = 17 := by
  simp only [renderRowSession, renderColSession, startLineSession, List.length_append, cmdSession_length,
    List.length_cons, List.length_nil]

theorem sendCmd_calls {s : State} {len : BitVec 16} {src : Word} (inside : rangeInsideSM s.cfg src len = true)
    (op : Byte) :
    ∃ t, exec (.sendCmd op len src) s = .next t ∧ t.trace.length = s.trace.length + (len.toNat + 4) := by
  obtain ⟨-, -, sends⟩ := sendCmdSendsOneSession s op len src
  refine ⟨_, sends inside, ?_⟩
  simp only [List.length_append, cmdSession_length, List.length_map, List.length_range]

theorem sendData_calls {s : State} {len : BitVec 16} {src : Word} (hw : s.cfg.wf = true)
    (inside : rangeInsideSM s.cfg src len = true)
    (h0 : ∀ j < sessionCount s.cfg.p len.toNat, closeStatus s j = 0) :
    ∃ t, exec (.sendData len src) s = .next t ∧
      t.trace.length = s.trace.length + (3 * sessionCount s.cfg.p len.toNat + len.toNat) := by
  obtain ⟨-, -, sends⟩ := sendDataSendsItsSessions s len src hw
  obtain ⟨k, cnt, sent, -, next⟩ := sends inside
  obtain rfl : k = sessionCount s.cfg.p len.toNat := sent.all h0
  exact ⟨_, next, List.length_append.trans
    (congrArg (s.trace.length + ·) (dataFrame_readBytes_length hw src.toNat len.toNat _))⟩

theorem render_even_calls {s : State} {x y w h : Byte} {len : BitVec 16} {src : Word} (hw : s.cfg.wf = true)
    (hwf : (Instr.render x y w h len src).wf s.cfg = true) (even : w.toNat % 2 = 0)
    (h0 : ∀ j < 3 + sessionCount s.cfg.p len.toNat, closeStatus s j = 0) :
    ∃ t, exec (.render x y w h len src) s = .next t ∧
      t.trace.length = s.trace.length + (17 + (3 * sessionCount s.cfg.p len.toNat + len.toNat)) := by
  obtain ⟨k, cnt, sent, -, -, next⟩ :=
    renderEvenWidthSendsTheBuffer s x y w h len src hw hwf even fun j hj => h0 j (by omega)
  obtain rfl : k = sessionCount s.cfg.p len.toNat := sent.all fun n hn => h0 (3 + n) (by omega)
  have window := windowSessions_length s.cfg x y w h 0 0 0
  have data := dataFrame_readBytes_length hw src.toNat len.toNat fun n => closeStatus s (3 + n)
  refine ⟨_, next, ?_⟩
  simp only [List.length_append, readBytes] at window data ⊢
  omega

/-- Settles O18: each request's trace is its sessions, whose lengths are counted. -/
theorem transportCallsAreCounted : Obligations.TransportCallsAreCounted := by
  intro s len src hw inside
  refine ⟨sendCmd_calls inside, sendData_calls hw inside, fun x y w h wNe hNe even h0 => ?_⟩
  have hwf : (Instr.render x y w h len src).wf s.cfg = true := by
    simpa [Instr.wf, regionNotEmpty, inside] using And.intro wNe hNe
  exact render_even_calls hw hwf even h0

/-! ### Block reset (R134, R135) -/

/-- A step in which HOST asserts block reset. -/
theorem step_assertReset {s : State} {rest : List HostAct} (hw : s.cfg.wf = true)
    (hs : s.script = .assertReset :: rest) : step s = .next (blockReset (withPlan rest s)) := by
  simp [step, hw, move, hs, hostMove, withPlan]

/-- R135: a reset of a busy block. -/
theorem blockReset_busy {s : State} (hb : s.busy = true) :
    blockReset s = { resetRegisters s with fault := addResetMidOperation s.fault } := by simp [blockReset, hb]

/-- Settles O52: the step is the reset (`step_assertReset`), of an idle block (`blockReset_idle`). -/
theorem blockResetSetsEveryElement : Obligations.BlockResetSetsEveryElement := by
  intro s rest hw hs hb
  refine ⟨_, step_assertReset hw hs, ?_⟩
  rw [blockReset_idle (s := withPlan rest s) hb]
  rfl

/-- Settles O53: the step is the reset (`step_assertReset`), of a busy block (`blockReset_busy`). -/
theorem resetMidOperationIsRecorded : Obligations.ResetMidOperationIsRecorded := by
  intro s rest hw hs hb
  refine ⟨_, step_assertReset hw hs, ?_⟩
  rw [blockReset_busy (s := withPlan rest s) hb]
  rfl

end Sys2Proof.Machine
